-- ==== Sys2Proof/Word.lean ====
section
/-! DEFINITION. The bit-vector types of the NRC: what the spec itself adds, shifts or reads as a word (00_scope.md R3). -/

namespace Sys2Proof

/-- A radio register value, a payload byte, a length or an index operand: 8 bits (R3). -/
abbrev Byte := BitVec 8

/-- A radio register address: 7 bits, 0x00 to 0x7F (R3, R40). Bit 7 of the first SPI byte is no part of it. -/
abbrev RegAddr := BitVec 7

/-- A command word, a window register or an SPI frame: 16 bits (R10, R60, R64). -/
abbrev HalfWord := BitVec 16

/-- An index of the host register window: 4 bits, 0 to 15 (R10). -/
abbrev WindowIndex := BitVec 4

end Sys2Proof
end

