-- ==== Sys2Proof/Syntax.lean ====
section
/-! DEFINITION. The instruction set: the six host commands (HCMD) and the two SPI transactions (SPIF), one constructor per row of the opcode table. -/

namespace Sys2Proof

/-- The NRC's instructions (00_scope.md section 1, the two levels of the ISA; 30_encoding.md R61, R64). -/
inductive Instr where
  /-- INIT: bring the radio to armed Standby (44_initialization.md R130) -/
  | init
  /-- SEND n: load and transmit the n bytes HB[0 .. n − 1] (43_packet_transfer.md R121) -/
  | send (n : Byte)
  /-- RECEIVE: one receive attempt (42_mode_controller.md R111) -/
  | receive
  /-- GET_PACKET: move the received packet into HB (43_packet_transfer.md R123) -/
  | getPacket
  /-- CHANGE_CHANNEL k (41_config_tables.md R95) -/
  | changeChannel (k : Byte)
  /-- CHANGE_DATARATE k (41_config_tables.md R96) -/
  | changeDatarate (k : Byte)
  /-- RD a: read one radio register (40_register_bus.md R80) -/
  | rd (a : RegAddr)
  /-- WR a, v: write one radio register (40_register_bus.md R81) -/
  | wr (a : RegAddr) (v : Byte)
deriving DecidableEq, Repr

/-- Whether the instruction is a host command (format HCMD) and not an SPI transaction (format SPIF). -/
def Instr.isCommand : Instr → Bool
  | .init | .send _ | .receive | .getPacket | .changeChannel _ | .changeDatarate _ => true
  | .rd _ | .wr _ _ => false

end Sys2Proof
end

