-- ==== Sys2Proof/WellFormed.lean ====
section
/-! DEFINITION. Well-formed instructions: legal operands of the host commands (R62) and the radio accesses the NRC makes (R28). -/

namespace Sys2Proof

/-- The legal channel indices: 0 to 7, and 16 for the receive channel (R62). -/
def legalChannel (k : Byte) : Bool := k.toNat ≤ 7 || k = 0x10#8

/-- The legal datarate indices: 0 to 6 (R62). -/
def legalDatarate (k : Byte) : Bool := k.toNat ≤ 6

/-- The radio registers the NRC reads (R28, column "NRC access": RD). -/
def readAddrs : List RegAddr := [0x00, 0x0E, 0x10, 0x12, 0x13]

/-- The radio registers the NRC writes (R28, column "NRC access": WR). -/
def writeAddrs : List RegAddr :=
  [0x00, 0x01, 0x06, 0x07, 0x08, 0x09, 0x0C, 0x0D, 0x0E, 0x0F, 0x12, 0x1D, 0x1E, 0x1F, 0x20, 0x21, 0x22, 0x26,
   0x33, 0x39, 0x3B, 0x40]

/-- A well-formed instruction: an index in its table (R62), an access of R28's map. An ill-formed one still decodes and
still has its meaning: a bad index is rejected with BAD_INDEX (R69), a transaction outside the map is one the NRC's own
sequences never make (R28). -/
def Instr.wf : Instr → Bool
  | .init | .send _ | .receive | .getPacket => true
  | .changeChannel k  => legalChannel k
  | .changeDatarate k => legalDatarate k
  | .rd a   => readAddrs.contains a
  | .wr a _ => writeAddrs.contains a

end Sys2Proof
end

