-- ==== Sys2Proof/Decode.lean ====
section
/-! DEFINITION. Decoding of command words (HCMD) and SPI frames (SPIF), total on 16 bits, rejecting by name; then the encoder. -/

namespace Sys2Proof

/-- Why a 16-bit word is no instruction of its format. -/
inductive Reject where
  /-- OP is 0x00 or 0x07 to 0xFF (R61, R63) -/
  | unassignedOpcode
  /-- ARG ≠ 0x00 for INIT, RECEIVE or GET_PACKET (R62, R63) -/
  | nonZeroArgument
  /-- bit 15 clear and a non-zero second byte: a frame the NRC never emits (R65 and the text after R66) -/
  | notEmitted
deriving DecidableEq, Repr

/-- OP = w[15:8] (R60). -/
def opField (w : HalfWord) : Byte := w.extractLsb' 8 8

/-- ARG = w[7:0] (R60). -/
def argField (w : HalfWord) : Byte := w.extractLsb' 0 8

/-- A command without operand: ARG must be 0x00 (R62, R63). -/
def noOperand (i : Instr) (arg : Byte) : Except Reject Instr :=
  if arg = 0#8 then .ok i else .error .nonZeroArgument

/-- Decode a host command word (R60 to R63). An out-of-range index is legal to decode (R63). -/
def decodeHcmd (w : HalfWord) : Except Reject Instr :=
  let arg := argField w
  match (opField w).toNat with
  | 0x01 => noOperand .init arg
  | 0x02 => .ok (.send arg)
  | 0x03 => noOperand .receive arg
  | 0x04 => noOperand .getPacket arg
  | 0x05 => .ok (.changeChannel arg)
  | 0x06 => .ok (.changeDatarate arg)
  | _    => .error .unassignedOpcode

/-- W = frame[15], the write flag (R64). -/
def frameWrite (f : HalfWord) : Bool := f.getLsbD 15

/-- A = frame[14:8], the register address (R64). -/
def frameAddr (f : HalfWord) : RegAddr := f.extractLsb' 8 7

/-- D = frame[7:0], the value or the dummy byte (R64). -/
def frameData (f : HalfWord) : Byte := f.extractLsb' 0 8

/-- Decode a captured MOSI frame (R64 to R66): bit 15 selects WR or RD; an RD carries the dummy byte 0x00. -/
def decodeSpif (f : HalfWord) : Except Reject Instr :=
  if frameWrite f then .ok (.wr (frameAddr f) (frameData f))
  else if frameData f = 0#8 then .ok (.rd (frameAddr f))
  else .error .notEmitted

/-- The instruction of a word whose format is not told, as the opcode table lists both formats side by side: a legal
command word is that command, any other word is read as an SPI frame. The two formats share the frames of RD 0x01 to
RD 0x06 alone, which the NRC never emits (R28). -/
def decodeAny (w : HalfWord) : Except Reject Instr :=
  match decodeHcmd w with
  | .ok i    => .ok i
  | .error _ => decodeSpif w

/-- The host's question: the instruction of `nbits` bits `w`. Every word and frame is 16 bits (R71). -/
def decodeTableWord (nbits w : Nat) : Option Instr :=
  if nbits ≤ 16 ∧ w < 2 ^ 16 then
    match decodeAny (BitVec.ofNat 16 w) with
    | .ok i    => some i
    | .error _ => none
  else none

/-- The word of an instruction: HCMD is {OP, ARG} (R60, R61), SPIF is {W, A, D} (R64 to R66). -/
def encode : Instr → HalfWord
  | .init             => 0x01#8 ++ 0x00#8
  | .send n           => 0x02#8 ++ n
  | .receive          => 0x03#8 ++ 0x00#8
  | .getPacket        => 0x04#8 ++ 0x00#8
  | .changeChannel k  => 0x05#8 ++ k
  | .changeDatarate k => 0x06#8 ++ k
  | .rd a             => 0#1 ++ a ++ 0x00#8
  | .wr a v           => 1#1 ++ a ++ v

/-- The decoder of the instruction's own format. -/
def decodeFor (i : Instr) (w : HalfWord) : Except Reject Instr :=
  if i.isCommand then decodeHcmd w else decodeSpif w

end Sys2Proof
end

