-- ==== Sys2Proof/Config.lean ====
section
/-! DEFINITION. What an implementation fixes (the parameter record P of 00_scope.md section 4) and the free values (R2, R55). -/

namespace Sys2Proof

/-- Order of the 8 bits of a byte on the wire: part of P_SPI_FORMAT (R44). -/
inductive BitOrder where
  | msbFirst
  | lsbFirst
deriving DecidableEq, Repr, Inhabited

/-- P_SPI_FORMAT: the bit-level SPI format, which no rule of the spec depends on (R25, D30, U11). -/
structure SpiFormat where
  bitOrder  : BitOrder
  cpol      : Bool
  cpha      : Bool
  clockRate : Nat
  /-- the level SCK rests at between transactions (70_reset_and_hazards.md R160: part of P_SPI_FORMAT) -/
  sckIdle   : Bool
  /-- the level MOSI rests at between transactions (R160) -/
  mosiIdle  : Bool
deriving DecidableEq, Repr, Inhabited

/-- P_LINE_WIRING: which physical pin carries each logical line (R26, D36). Two lines may share a pin. -/
structure LineWiring where
  modeReady : Nat
  txDone    : Nat
  rxDone    : Nat
  rxTimeout : Nat
deriving DecidableEq, Repr, Inhabited

/-- The parameter record P of 00_scope.md section 4. -/
structure Params where
  modeSleep     : Byte
  modeLoraSleep : Byte
  modeStandby   : Byte
  modeTx        : Byte
  modeRxSingle  : Byte
  dioMapTx      : Byte
  dioMapRx      : Byte
  paMax         : Byte
  paValue       : Byte
  lnaBoost      : Byte
  syncWord      : Byte
  fifoTxBase    : Byte
  fifoRxBase    : Byte
  iqTx33        : Byte
  iqTx3B        : Byte
  iqRx33        : Byte
  iqRx3B        : Byte
  fifoCapacity  : Nat
  /-- P_WAIT_BOUND: `none` is UNBOUNDED, `some n` the natural n ≥ 1 (R7) -/
  waitBound     : Option Nat
  spiFormat     : SpiFormat
  lineWiring    : LineWiring
deriving DecidableEq, Repr

/-- The constraints the spec puts on P and no others (R4): the FIFO bases differ (R5), a natural wait bound is at least 1 (R7). -/
def Params.wf (p : Params) : Bool :=
  p.fifoTxBase != p.fifoRxBase && p.waitBound != some 0

namespace Config

/-! The fields of P that the spec leaves open: constants without a value (R4). -/

opaque modeSleep : Byte
opaque modeLoraSleep : Byte
opaque modeStandby : Byte
opaque modeTx : Byte
opaque modeRxSingle : Byte
opaque dioMapTx : Byte
opaque dioMapRx : Byte
opaque paMax : Byte
opaque lnaBoost : Byte
opaque syncWord : Byte
opaque fifoTxBase : Byte
/-- P_FIFO_RX_BASE stands this many offsets, plus one, above P_FIFO_TX_BASE (modulo 256): every pair of unequal bases is one value of it (R5). -/
opaque fifoRxGap : Fin 255
opaque iqTx33 : Byte
opaque iqTx3B : Byte
opaque iqRx33 : Byte
opaque iqRx3B : Byte
opaque fifoCapacity : Nat
opaque spiFormat : SpiFormat
opaque lineWiring : LineWiring

/-- The P of the machine `State.reset` describes: every open field a constant without a value, P_PA_VALUE at its default
P_PA_MAX (R6) and P_WAIT_BOUND at its default UNBOUNDED (R7). -/
def params : Params where
  modeSleep     := modeSleep
  modeLoraSleep := modeLoraSleep
  modeStandby   := modeStandby
  modeTx        := modeTx
  modeRxSingle  := modeRxSingle
  dioMapTx      := dioMapTx
  dioMapRx      := dioMapRx
  paMax         := paMax
  paValue       := paMax
  lnaBoost      := lnaBoost
  syncWord      := syncWord
  fifoTxBase    := fifoTxBase
  fifoRxBase    := fifoTxBase + BitVec.ofNat 8 (fifoRxGap.val + 1)
  iqTx33        := iqTx33
  iqTx3B        := iqTx3B
  iqRx33        := iqRx33
  iqRx3B        := iqRx3B
  fifoCapacity  := fifoCapacity
  waitBound     := none
  spiFormat     := spiFormat
  lineWiring    := lineWiring

/-! Free values: nothing in Lean can evaluate them (R2, R55, U5, U6, U10). Each is applied to State's counter `draws`. -/

/-- The byte the radio answers to an RD that no queued answer covers (R2, U5). -/
opaque radioByte : Nat → Byte
/-- The levels of the four status lines at a sample that no queued levels cover (R2, R26, U10). -/
opaque modeReadyLevel : Nat → Bool
opaque txDoneLevel : Nat → Bool
opaque rxDoneLevel : Nat → Bool
opaque rxTimeoutLevel : Nat → Bool
/-- A byte read from the host buffer, by the NRC or by the host, that races with an access of the other side (R55, U6). -/
opaque racedByte : Nat → Byte

end Config
end Sys2Proof
end

