-- ==== Sys2Proof/Machine/State.lean ====
section
/-! DEFINITION. The state of the NRC (10_state.md, 20_memory.md R41 and R56), what stands outside it as queued input, the reasons a step can stop, and the state after reset (70_reset_and_hazards.md R160). -/

namespace Sys2Proof.Machine

/-- The error codes of STATUS.ERR (R16, R140). Codes 5 to 7 are reserved and never written: they have no constructor. -/
inductive ErrCode where
  | none
  | badIndex
  | illegalCmd
  | notInit
  | waitTimeout
deriving DecidableEq, Repr

/-- The Reception Outcome held in OUTCOME (R17). -/
inductive RxOutcome where
  | noMessage
  | timeout
  | crcOk
  | wrongMessage
deriving DecidableEq, Repr

/-- The five radio modes the NRC requests (R100). -/
inductive RadioMode where
  | sleep
  | loraSleep
  | standby
  | tx
  | rxSingle
deriving DecidableEq, Repr

/-- MODE_SHADOW (R19, R20): UNKNOWN, or the mode last requested. Codes 6 and 7 are never written: they have no constructor. -/
inductive ModeShadow where
  | unknown
  | requested (m : RadioMode)
deriving DecidableEq, Repr

/-- T_WHICH (R24, R103): which receive line ended the wait. -/
inductive RxLine where
  | done
  | timeout
deriving DecidableEq, Repr

/-- The lines `WaitHigh` waits for (R102). -/
inductive WaitLine where
  | modeReady
  | txDone
deriving DecidableEq, Repr

/-- The levels of the four line inputs at one sample (R26); `true` is high. -/
structure Levels where
  modeReady : Bool
  txDone    : Bool
  rxDone    : Bool
  rxTimeout : Bool
deriving DecidableEq, Repr

/-- SEQ_PC (R23): the next step to perform. The command is SEQ_CMD's; `check` is the decode checks of R69, `line n again`
the n-th line of the command's pseudocode, with `again` the loop position inside a wait (a low sample was seen). The
position inside a byte loop is the line together with T_IDX. -/
inductive SeqPos where
  | check
  | line (n : Nat) (again : Bool)
deriving DecidableEq, Repr

/-- SEQ_STATE with SEQ_PC (R23): SEQ_PC has a value exactly while RUN. -/
inductive Seq where
  | idle
  | run (pos : SeqPos)
deriving DecidableEq, Repr

/-- The working registers (R24): `none` is "no value", the spec's own state of them outside a command. -/
structure Work where
  /-- T_PTR, a FIFO offset -/
  ptr     : Option Byte
  /-- T_LEN -/
  len     : Option Byte
  /-- T_IDX, 9 bits -/
  idx     : Option (BitVec 9)
  /-- T_FLAGS -/
  flags   : Option Byte
  /-- T_WHICH -/
  which   : Option RxLine
  /-- T_WAITCNT, a natural -/
  waitCnt : Option Nat
  /-- `b` of the pseudocode of R120 and R122: a value only between the two steps of a pair, so that no copy is retained (R32) -/
  byte    : Option Byte
deriving DecidableEq, Repr

/-- No working register has a value: outside a command (R24) and at reset (R160). -/
def Work.noValue : Work :=
  { ptr := none, len := none, idx := none, flags := none, which := none, waitCnt := none, byte := none }

/-- The SPI master port (R25) as it stands between steps: NSS (`true` is high, deasserted), the resting levels of SCK and
MOSI, and the bytes shifted out since NSS last fell. MISO is the input queue `State.misoIn`. -/
structure SpiPort where
  nss  : Bool
  sck  : Bool
  mosi : Bool
  sent : List Byte
deriving DecidableEq, Repr

/-- The events of the history (R56). -/
inductive Event where
  | accept (w : HalfWord)
  | drop (w : HalfWord)
  | wr (a : RegAddr) (v : Byte)
  | rd (a : RegAddr) (v : Byte)
  | sample (l : WaitLine) (level : Bool)
  | sampleRx (done timeout : Bool)
  | hbRd (i : Byte) (b : Byte)
  | hbWr (i : Byte) (b : Byte)
  | done (status : HalfWord)
deriving DecidableEq, Repr

/-- What the host (or the platform) does between two sequencer steps (R2, R10, R41, R161). `turn` is nothing: the
sequencer has the step. -/
inductive HostAction where
  | turn
  /-- write a window register (R11, R21) -/
  | write (i : WindowIndex) (w : HalfWord)
  /-- read a window register (R22) -/
  | read (i : WindowIndex)
  /-- store a byte into the host buffer (R41, `hb i: b` of R73) -/
  | store (i : Byte) (b : Byte)
  /-- load a byte of the host buffer (R41) -/
  | load (i : Byte)
  /-- reset the NRC (R161) -/
  | reset
deriving DecidableEq, Repr

/-- What a host read returned. -/
inductive Seen where
  | window (i : WindowIndex) (w : HalfWord)
  | buffer (i : Byte) (b : Byte)
deriving DecidableEq, Repr

/-- The host buffer as address and byte pairs in one canonical form (`Memory.wf`). -/
abbrev Memory := List Host.Cell

/-- The state of the machine. The first block is the NRC's own (R33) with the host buffer and the event history; the
second is the model's: the parameters, the queued inputs of the environment (R2) and the counter of free draws. `raced`, beside the
buffer it speaks of, is the model's too. -/
structure State where
  /-- CMD, window index 0 (R11) -/
  cmd      : HalfWord
  /-- STATUS.BUSY (R13) -/
  busy     : Bool
  /-- STATUS.INIT_DONE (R14) -/
  initDone : Bool
  /-- STATUS.OVR (R15) -/
  ovr      : Bool
  /-- STATUS.ERR (R16) -/
  err      : ErrCode
  /-- OUTCOME, window index 2 (R17) -/
  outcome  : RxOutcome
  /-- RX_LEN bits 7:0, window index 3; bits 15:8 read as 0 (R18) -/
  rxLen    : Byte
  /-- MODE_SHADOW, window index 4 (R19, R20) -/
  mode     : ModeShadow
  /-- SEQ_STATE and SEQ_PC (R23) -/
  seq      : Seq
  /-- SEQ_CMD (R23) -/
  seqCmd   : HalfWord
  /-- the working registers (R24) -/
  work     : Work
  /-- the SPI master port (R25) -/
  port     : SpiPort
  /-- HB, the host buffer (R41) -/
  hb       : Memory
  /-- the indices, none twice, of the HB bytes the host stored into while the last accepted command ran as SEND or GET_PACKET:
  what the NRC reads there is a free value (R55) -/
  raced    : List Byte
  /-- the event history, oldest first (R56) -/
  history  : List Event
  /-- the parameter record P, which nothing changes (R4) -/
  params   : Params
  /-- MISO: the bytes the radio answers to the next RDs, oldest first; then answers are free draws (R2, U5) -/
  misoIn   : List Byte
  /-- the four line inputs: their levels at the next samples, oldest first; then levels are free draws (R2, R26, U10) -/
  lineIn   : List Levels
  /-- what the host does next, oldest first; empty: the sequencer has every further step -/
  hostIn   : List HostAction
  /-- what the host's reads returned, oldest first -/
  hostSeen : List Seen
  /-- the number of free draws made so far -/
  draws    : Nat
  /-- a transaction to be made on its own, outside any command: none in every run of the hardware (R13, D40) -/
  lone     : Option HalfWord
deriving DecidableEq, Repr

/-- Why the machine stops. None of them is reached from a state that meets `StateInv`. -/
inductive Fault where
  /-- a working register is read before it is written within the command: R24 and U12 say a model must fault. Raised by
  the sequencer's lines. Safe: no rule does it. -/
  | workingRegisterUnset
  /-- a command is executed while SEQ_STATE is IDLE, where SEQ_PC has no value (R23). Raised by `runCommand`; `step`
  never calls it so. Safe. -/
  | seqIdle
  /-- SEQ_PC names no line of the command's pseudocode (R23). Raised by `runCommand`. Safe: no rule sets it so. -/
  | seqPosOutside
  /-- the frame of a lone transaction is one the NRC never emits (R65). Raised by `step`. Safe: no run of the hardware
  holds a lone transaction. -/
  | frameNotEmitted
deriving DecidableEq, Repr

/-- Why an instruction is refused. -/
inductive Refusal where
  /-- the instruction has no meaning yet; raised by `exec`'s arm, which names it. Safe. No arm of this model raises it. -/
  | notModelled (mnemonic : String)
deriving DecidableEq, Repr

/-- The machine right after reset (70_reset_and_hazards.md R160): no command accepted, IDLE, MODE_SHADOW UNKNOWN, no working
register with a value, NSS high, the history empty. HB lists nothing and the environment's queues are empty. -/
def State.reset : State where
  cmd      := 0x0000
  busy     := false
  initDone := false
  ovr      := false
  err      := .none
  outcome  := .noMessage
  rxLen    := 0x00
  mode     := .unknown
  seq      := .idle
  seqCmd   := 0x0000
  work     := .noValue
  port     := { nss := true, sck := Config.params.spiFormat.sckIdle, mosi := Config.params.spiFormat.mosiIdle, sent := [] }
  hb       := []
  raced    := []
  history  := []
  params   := Config.params
  misoIn   := []
  lineIn   := []
  hostIn   := []
  hostSeen := []
  draws    := 0
  lone     := none

end Sys2Proof.Machine
end

