-- ==== Sys2Proof/Machine/Flags.lean ====
section
/-! DEFINITION. STATUS, OUTCOME and MODE as words, the outcome mapping, the gates of the decode checks and the wait bound. -/

namespace Sys2Proof.Machine

/-- The 3-bit code of STATUS.ERR (R16, R140). -/
def ErrCode.code : ErrCode → BitVec 3
  | .none        => 0
  | .badIndex    => 1
  | .illegalCmd  => 2
  | .notInit     => 3
  | .waitTimeout => 4

/-- The 2-bit code of OUTCOME (R17). -/
def RxOutcome.code : RxOutcome → BitVec 2
  | .noMessage    => 0
  | .timeout      => 1
  | .crcOk        => 2
  | .wrongMessage => 3

/-- The 3-bit code of MODE (R19, R100). -/
def ModeShadow.code : ModeShadow → BitVec 3
  | .unknown              => 0
  | .requested .sleep     => 1
  | .requested .loraSleep => 2
  | .requested .standby   => 3
  | .requested .tx        => 4
  | .requested .rxSingle  => 5

/-- STATUS as a word (R12): bit 0 BUSY, bit 1 INIT_DONE, bit 2 OVR, bits 5:3 ERR, bits 15:6 read as 0. -/
def statusWord (busy initDone ovr : Bool) (err : ErrCode) : HalfWord :=
  0#10 ++ err.code ++ BitVec.ofBool ovr ++ BitVec.ofBool initDone ++ BitVec.ofBool busy

/-- The CRC-error flag: bit 5 of the value read from register 0x12 (R29). -/
def crcError (flags : Byte) : Bool := flags.getLsbD 5

/-- The outcome mapping (R109). Only bit 5 is used, and only after DONE. -/
def mapOutcome (which : RxLine) (flags : Byte) : RxOutcome :=
  match which with
  | .timeout => .timeout
  | .done    => if crcError flags then .wrongMessage else .crcOk

/-- Which receive line ends the wait at a sample (R103): DONE wins a tie, neither high goes on waiting. -/
def rxWinner (done timeout : Bool) : Option RxLine :=
  if done then some .done else if timeout then some .timeout else none

/-- Whether a wait gives up after `n` low samples (R102, R103): only with a natural bound, at exactly that count. -/
def waitExpired (bound : Option Nat) (n : Nat) : Bool :=
  match bound with
  | none   => false
  | some b => n == b

/-- The decode check of every command but INIT (R69, R142): NOT_INIT while INIT_DONE is 0. -/
def initGate (initDone : Bool) : Option ErrCode :=
  if initDone then none else some .notInit

/-- The decode check of an index operand (R69, R143). -/
def indexGate (legal : Bool) : Option ErrCode :=
  if legal then none else some .badIndex

/-- The first check that fails decides (R69, R145). -/
def firstError (first second : Option ErrCode) : Option ErrCode :=
  match first with
  | some e => some e
  | none   => second

end Sys2Proof.Machine
end

