-- ==== Sys2Proof/Machine/Ops.lean ====
section
/-! DEFINITION. The named operations: the host buffer, the event history, SPI transactions, line samples, the window, and the life of a command (acceptance, overrun, completion, and the abort `raiseError`, the NRC's taking of an exception). -/

namespace Sys2Proof.Machine

/-! ### The host buffer (R41) -/

/-- What a host-buffer byte that nothing has written reads as. -/
def unlistedByte : Byte := 0x00

/-- Canonical form from address `lo` on: addresses strictly rising and below 256 (R41), no entry equal to an unlisted byte. -/
def Memory.wfFrom (lo : Nat) : Memory → Bool
  | []          => true
  | (a, b) :: m => decide (lo ≤ a) && decide (a < 256) && (b != unlistedByte) && Memory.wfFrom (a + 1) m

/-- The host buffer's canonical form: equal contents are equal data. -/
def Memory.wf (m : Memory) : Bool := Memory.wfFrom 0 m

/-- MemRead(HB, a, 1). -/
def Memory.read (m : Memory) (a : Nat) : Byte :=
  match m with
  | []          => unlistedByte
  | (k, b) :: m => if k = a then b else Memory.read m a

/-- `m` with the entry for `a` in front, left out where it equals an unlisted byte. -/
def Memory.entry (a : Nat) (b : Byte) (m : Memory) : Memory :=
  if b = unlistedByte then m else (a, b) :: m

/-- MemWrite(HB, a, 1, b), keeping the canonical form. -/
def Memory.write (m : Memory) (a : Nat) (b : Byte) : Memory :=
  match m with
  | []          => Memory.entry a b []
  | (k, c) :: m =>
    if a < k then Memory.entry a b ((k, c) :: m)
    else if a = k then Memory.entry a b m
    else (k, c) :: Memory.write m a b

/-! ### The event history (R56) -/

/-- Record an event. -/
def State.record (s : State) (e : Event) : State := { s with history := s.history ++ [e] }

/-! ### The SPI master port and its two transactions (R80 to R82) -/

/-- NSS goes low: a transaction begins. -/
def SpiPort.select (p : SpiPort) : SpiPort := { p with nss := false, sent := [] }

/-- Shift one byte out on MOSI. -/
def SpiPort.shiftOut (p : SpiPort) (b : Byte) : SpiPort := { p with sent := p.sent ++ [b] }

/-- NSS goes high: the transaction has ended; SCK and MOSI rest at the levels of P_SPI_FORMAT. -/
def SpiPort.deselect (p : SpiPort) (f : SpiFormat) : SpiPort := { p with nss := true, sck := f.sckIdle, mosi := f.mosiIdle }

/-- One transaction on the port: select low, address byte, second byte, select high (R82; R44: the address byte first). -/
def SpiPort.transfer (p : SpiPort) (f : SpiFormat) (b0 b1 : Byte) : SpiPort :=
  (((p.select).shiftOut b0).shiftOut b1).deselect f

/-- First MOSI byte of RD a: `a & 0x7F`, bit 7 clear (R65, R80). -/
def rdFirstByte (a : RegAddr) : Byte := a.setWidth 8 &&& 0x7F

/-- First MOSI byte of WR a, v: `a | 0x80` (R66, R81). -/
def wrFirstByte (a : RegAddr) : Byte := a.setWidth 8 ||| 0x80

/-- The dummy byte of a read (R8, R65). -/
def dummyByte : Byte := 0x00

/-- The byte the radio answers now: the queued one, else a free draw (R2, U5). -/
def radioAnswer (s : State) : Byte :=
  match s.misoIn with
  | v :: _ => v
  | []     => Config.radioByte s.draws

/-- The answer is used up: the queue moves on, or one more draw has been made. -/
def State.takeAnswer (s : State) : State :=
  { s with misoIn := s.misoIn.tail, draws := if s.misoIn.isEmpty then s.draws + 1 else s.draws }

/-- SpiRead(a) (R80): the value is `radioAnswer s`; this is the state after the transaction. -/
def spiRead (a : RegAddr) (s : State) : State :=
  { s.takeAnswer.record (.rd a (radioAnswer s)) with
    port := s.port.transfer s.params.spiFormat (rdFirstByte a) dummyByte }

/-- SpiWrite(a, v) (R81). -/
def spiWrite (a : RegAddr) (v : Byte) (s : State) : State :=
  { s.record (.wr a v) with port := s.port.transfer s.params.spiFormat (wrFirstByte a) v }

/-! ### The NRC's read of the host buffer (R41, R55) -/

/-- What the NRC reads from HB[i]: the byte there, or a free draw where the host stored into it while the command ran (R55). -/
def bufferByte (i : Byte) (s : State) : Byte :=
  if s.raced.contains i then Config.racedByte s.draws else s.hb.read i.toNat

/-- The state after that read: one more draw has been made where the byte raced. -/
def State.takeByte (i : Byte) (s : State) : State :=
  { s with draws := if s.raced.contains i then s.draws + 1 else s.draws }

/-! ### Modes (R100, R101) -/

/-- The value written to register 0x01 for a mode (R100). -/
def modeValue (p : Params) : RadioMode → Byte
  | .sleep     => p.modeSleep
  | .loraSleep => p.modeLoraSleep
  | .standby   => p.modeStandby
  | .tx        => p.modeTx
  | .rxSingle  => p.modeRxSingle

/-- MODE_SHADOW <- m (R20). -/
def State.setMode (s : State) (m : ModeShadow) : State := { s with mode := m }

/-- MODE m (R101): one WR to register 0x01 and the shadow in the same step. -/
def requestMode (m : RadioMode) (s : State) : State :=
  (spiWrite 0x01 (modeValue s.params m) s).setMode (.requested m)

/-! ### Line samples (R26, R102, R103) -/

/-- The levels of the lines at this step: the queued ones, else free draws (R2, U10). -/
def levelsNow (s : State) : Levels :=
  match s.lineIn with
  | l :: _ => l
  | []     =>
    { modeReady := Config.modeReadyLevel s.draws, txDone := Config.txDoneLevel s.draws,
      rxDone := Config.rxDoneLevel s.draws, rxTimeout := Config.rxTimeoutLevel s.draws }

/-- The sample is used up: the queue moves on, or one more draw has been made. -/
def State.takeLevels (s : State) : State :=
  { s with lineIn := s.lineIn.tail, draws := if s.lineIn.isEmpty then s.draws + 1 else s.draws }

/-- The level of the line a `WaitHigh` waits for. -/
def Levels.of (l : Levels) : WaitLine → Bool
  | .modeReady => l.modeReady
  | .txDone    => l.txDone

/-! ### The life of a command (R67, R68, R72, R146) -/

/-- STATUS (index 1) as it stands (R12). -/
def statusOf (s : State) : HalfWord := statusWord s.busy s.initDone s.ovr s.err

/-- Acceptance of a command word (R67). No byte of HB has raced with the command yet (R55). -/
def accept (w : HalfWord) (s : State) : State :=
  { s.record (.accept w) with
    cmd := w, seqCmd := w, err := .none, ovr := false, busy := true, seq := .run .check, work := .noValue, raced := [] }

/-- Overrun: a command word written while BUSY = 1 is dropped (R68). -/
def dropWord (w : HalfWord) (s : State) : State := { s.record (.drop w) with ovr := true }

/-- The end of a command, whether completed or aborted: `Done` with the STATUS it leaves (BUSY = 0), IDLE, and no working
register with a value (R24, R72, R146). -/
def endCommand (s : State) : State :=
  { s.record (.done (statusWord false s.initDone s.ovr s.err)) with busy := false, seq := .idle, work := .noValue }

/-- raise Error(code) (R146): the NRC's taking of an exception. Nothing already done is undone. -/
def raiseError (code : ErrCode) (s : State) : State :=
  endCommand { s with err := code, mode := if code = .waitTimeout then .unknown else s.mode }

/-- Completion (R72), the return to IDLE: ERR stays as it is. -/
def complete (s : State) : State := endCommand s

/-! ### The host's side: the window (R10 to R22), the buffer (R41, R55), reset (R161) -/

/-- A host read of a window register (R11, R12, R17 to R19, R21, R22): its whole value, without side effect. -/
def windowRead (s : State) (i : WindowIndex) : HalfWord :=
  match i.toNat with
  | 0 => s.cmd
  | 1 => statusOf s
  | 2 => s.outcome.code.setWidth 16
  | 3 => s.rxLen.setWidth 16
  | 4 => s.mode.code.setWidth 16
  | _ => 0x0000

/-- A host write of a window register: to CMD it issues a command (R67) or is dropped (R68), elsewhere it is ignored (R21). -/
def windowWrite (i : WindowIndex) (w : HalfWord) (s : State) : State :=
  if i = 0 then (if s.busy then dropWord w s else accept w s) else s

/-- Whether SEND or GET_PACKET is executing, when the host must not touch HB (R55, R172). -/
def bufferInUse (s : State) : Bool :=
  s.busy && match decodeHcmd s.seqCmd with
    | .ok (.send _)   => true
    | .ok .getPacket  => true
    | _               => false

/-- A host store into HB: the byte is stored (R41). While SEND or GET_PACKET runs the index is marked, so that what the NRC later
reads there is a free draw (R55, U6). -/
def hostStore (i b : Byte) (s : State) : State :=
  { s with
    hb := s.hb.write i.toNat b
    raced := if bufferInUse s && !s.raced.contains i then i :: s.raced else s.raced }

/-- A host load from HB. While SEND or GET_PACKET runs what the host reads is a free draw (R55, U6). -/
def hostLoad (i : Byte) (s : State) : State :=
  if bufferInUse s then
    { s with hostSeen := s.hostSeen ++ [.buffer i (Config.racedByte s.draws)], draws := s.draws + 1 }
  else { s with hostSeen := s.hostSeen ++ [.buffer i (s.hb.read i.toNat)] }

/-- Reset (R160 to R162): every NRC register takes its reset value, HB is not changed, the history is empty; no transaction is
made and a running command ends without `Done`. P and the environment are not reset. -/
def resetNrc (s : State) : State :=
  { State.reset with
    port     := { State.reset.port with sck := s.params.spiFormat.sckIdle, mosi := s.params.spiFormat.mosiIdle }
    hb       := s.hb
    params   := s.params
    misoIn   := s.misoIn
    lineIn   := s.lineIn
    hostIn   := s.hostIn
    hostSeen := s.hostSeen
    draws    := s.draws }

/-- One action of the host (R2, R156). -/
def hostAct (a : HostAction) (s : State) : State :=
  match a with
  | .turn      => s
  | .write i w => windowWrite i w s
  | .read i    => { s with hostSeen := s.hostSeen ++ [.window i (windowRead s i)] }
  | .store i b => hostStore i b s
  | .load i    => hostLoad i s
  | .reset     => resetNrc s

end Sys2Proof.Machine
end

