-- ==== Sys2Proof/Machine/Bus.lean ====
section
/-! DEFINITION. The Register Bus: the meanings of RD and WR (40_register_bus.md). -/

namespace Sys2Proof.Machine

/-- RD a (R80): one transaction, always complete, never an error (R83). Inside a command the calling line moves the value
into its working register; here it stands in the `Rd` event. -/
def execRd (a : RegAddr) (s : State) : Host.Outcome State Fault Refusal := .next (spiRead a s)

/-- WR a, v (R81): one transaction, not acknowledged and not verified (R83). -/
def execWr (a : RegAddr) (v : Byte) (s : State) : Host.Outcome State Fault Refusal := .next (spiWrite a v s)

end Sys2Proof.Machine
end

