-- ==== Sys2Proof/Machine/Operands.lean ====
section
/-! DEFINITION. The operands of the pseudocode: where a WR takes its value, where an RD puts it (R24, R53), the byte-loop index and the loop test. -/

namespace Sys2Proof.Machine

/-- Where the value of a `SpiWrite` comes from (R53): a constant, table entry or parameter, T_LEN, or T_PTR. -/
inductive WrSource where
  | value (v : Byte)
  | len
  | ptr
deriving DecidableEq, Repr

/-- The working register that receives the value of a `SpiRead` (R24). -/
inductive RdTarget where
  | ptr
  | len
  | flags
deriving DecidableEq, Repr

/-- The value of a source; `none` where its working register has no value (R24). -/
def WrSource.get (src : WrSource) (w : Work) : Option Byte :=
  match src with
  | .value v => some v
  | .len     => w.len
  | .ptr     => w.ptr

/-- Write a working register. -/
def RdTarget.put (d : RdTarget) (v : Byte) (w : Work) : Work :=
  match d with
  | .ptr   => { w with ptr := some v }
  | .len   => { w with len := some v }
  | .flags => { w with flags := some v }

/-- The host-buffer index a byte loop is at: T_IDX, which is below T_LEN ≤ 255 inside the loops (R41, R120, R122). -/
def bufferIndex (w : Work) : Option Byte := w.idx.map (fun i => i.setWidth 8)

/-- The test of the byte loops fails (R120, R122): T_IDX ≥ T_LEN. It reads both registers; `none` where one has no value (R24). -/
def loopDone (w : Work) : Option Bool :=
  match w.idx, w.len with
  | some j, some n => some (decide (n.toNat ≤ j.toNat))
  | _, _           => none

/-- The end of a pair: T_IDX <- T_IDX + 1, where T_IDX is `j`; the byte has been moved and no copy of it stays (R32). -/
def nextIndex (j : BitVec 9) (w : Work) : Work := { w with idx := some (j + 1), byte := none }

end Sys2Proof.Machine
end

