-- ==== Sys2Proof/Machine/Tables.lean ====
section
/-! DEFINITION. The two read-only tables (R27, R90, R91), bit-exact, and their lookups (R92). -/

namespace Sys2Proof.Machine

/-- One table entry: three bytes in column order. -/
structure Triple where
  b0 : Byte
  b1 : Byte
  b2 : Byte
deriving DecidableEq, Repr

/-- CH_TABLE (R90), FrequencyTripleFor (R92): bytes for registers 0x06, 0x07, 0x08. -/
def chTable (k : Byte) : Option Triple :=
  match k.toNat with
  | 0  => some ⟨0xD9, 0x06, 0x8B⟩
  | 1  => some ⟨0xD9, 0x13, 0x58⟩
  | 2  => some ⟨0xD9, 0x20, 0x24⟩
  | 3  => some ⟨0xD8, 0xC6, 0x8B⟩
  | 4  => some ⟨0xD8, 0xD3, 0x58⟩
  | 5  => some ⟨0xD8, 0xE0, 0x24⟩
  | 6  => some ⟨0xD8, 0xEC, 0xF1⟩
  | 7  => some ⟨0xD8, 0xF9, 0xBE⟩
  | 16 => some ⟨0xD9, 0x61, 0xBE⟩
  | _  => none

/-- DR_TABLE (R91), DatarateTripleFor (R92): bytes for registers 0x1E, 0x1D, 0x26. -/
def drTable (k : Byte) : Option Triple :=
  match k.toNat with
  | 0 => some ⟨0xC4, 0x72, 0x0C⟩
  | 1 => some ⟨0xB4, 0x72, 0x0C⟩
  | 2 => some ⟨0xA4, 0x72, 0x04⟩
  | 3 => some ⟨0x94, 0x72, 0x04⟩
  | 4 => some ⟨0x84, 0x72, 0x04⟩
  | 5 => some ⟨0x74, 0x72, 0x04⟩
  | 6 => some ⟨0x74, 0x82, 0x04⟩
  | _ => none

end Sys2Proof.Machine
end

