-- ==== Sys2Proof/Machine/Sequencer.lean ====
section
/-! DEFINITION. The sequencer (R23, R50, R69, R70): the lines a command's pseudocode is made of, one step each, the named sequences of R74, and how a command runs. -/

namespace Sys2Proof.Machine

/-- What the last line of a command writes before `complete` (rule R72): assignments that take effect with that last step
(00_scope.md section 5). -/
inductive Ending where
  /-- nothing (CHANGE_CHANNEL, CHANGE_DATARATE) -/
  | plain
  /-- STATUS.INIT_DONE <- 1 (R130, R131) -/
  | initDone
  /-- MODE_SHADOW <- STANDBY, the last line of TX_PHASE (R106) -/
  | standby
  /-- OUTCOME <- outcome, as R109 maps it (R111) -/
  | outcome
  /-- RX_LEN <- zext_16(T_LEN) (R123) -/
  | rxLen
deriving DecidableEq, Repr

/-- A line of pseudocode that is a step of its own. -/
inductive SeqLine where
  /-- SpiWrite(a, source) -/
  | wr (a : RegAddr) (src : WrSource)
  /-- SpiWrite(0x0D, T_PTR); T_IDX <- 0 (R120, R122) -/
  | wrFifoPtr
  /-- register <- SpiRead(a) -/
  | rd (a : RegAddr) (d : RdTarget)
  /-- MODE_SHADOW <- STANDBY, the last line of RX_PHASE (R108), with the step that follows it: T_FLAGS <- SpiRead(0x12) (R109) -/
  | rdFlags
  /-- MODE m (R101) -/
  | mode (m : RadioMode)
  /-- the MODE STANDBY of ENSURE_STANDBY: passed over, with the wait after it, where MODE_SHADOW = STANDBY (R104) -/
  | ensureStandby
  /-- WaitHigh(L) (R102) -/
  | wait (l : WaitLine)
  /-- WaitRx() -> T_WHICH (R103) -/
  | waitRx
  /-- b <- MemRead(HB, T_IDX, 1), the first step of SEND_PAYLOAD's loop body (R120) -/
  | hbRead
  /-- SpiWrite(0x00, b); T_IDX <- T_IDX + 1, the second step (R120) -/
  | fifoWrite
  /-- b <- SpiRead(0x00), the first step of RECEIVE_PAYLOAD's loop body (R122) -/
  | fifoRead
  /-- MemWrite(HB, T_IDX, 1, b); T_IDX <- T_IDX + 1, the second step (R122) -/
  | hbWrite
  /-- the last line of a command (R72) -/
  | complete (e : Ending)
deriving DecidableEq, Repr

/-! ### The named sequences (R74) -/

/-- ENSURE_STANDBY (R104). -/
def ensureStandby : List SeqLine := [.ensureStandby, .wait .modeReady]

/-- SET_CHANNEL k (R93): no lines for an index without an entry, which the decode checks reject (R92). -/
def setChannel (k : Byte) : List SeqLine :=
  match chTable k with
  | some t => [.wr 0x06 (.value t.b0), .wr 0x07 (.value t.b1), .wr 0x08 (.value t.b2)]
  | none   => []

/-- SET_DATARATE k (R94). -/
def setDatarate (k : Byte) : List SeqLine :=
  match drTable k with
  | some t => [.wr 0x1E (.value t.b0), .wr 0x1D (.value t.b1), .wr 0x26 (.value t.b2)]
  | none   => []

/-- IQ_TX (R112). -/
def iqTx (p : Params) : List SeqLine := [.wr 0x33 (.value p.iqTx33), .wr 0x3B (.value p.iqTx3B)]

/-- IQ_RX (R112). -/
def iqRx (p : Params) : List SeqLine := [.wr 0x33 (.value p.iqRx33), .wr 0x3B (.value p.iqRx3B)]

/-- TX_PHASE (R106), but for its last assignment, which stands with the line after it. -/
def txPhase (p : Params) : List SeqLine :=
  [.wr 0x40 (.value p.dioMapTx), .mode .tx, .wait .modeReady, .wait .txDone]

/-- RX_PHASE (R108), but for its last assignment, which stands with the line after it. -/
def rxPhase (p : Params) : List SeqLine :=
  [.wr 0x40 (.value p.dioMapRx), .mode .rxSingle, .wait .modeReady, .waitRx]

/-- SEND_PAYLOAD T_LEN (R120). -/
def sendPayload : List SeqLine := [.wr 0x22 .len, .rd 0x0E .ptr, .wrFifoPtr, .hbRead, .fifoWrite]

/-- RECEIVE_PAYLOAD (R122). -/
def receivePayload : List SeqLine := [.rd 0x10 .ptr, .rd 0x13 .len, .wrFifoPtr, .fifoRead, .hbWrite]

/-! ### Where the sequencer goes next (R23, R50) -/

/-- Use a working register's value; a working register without one stops the machine (R24, U12). -/
def need {α : Type} (o : Option α) (k : α → Host.Outcome State Fault Refusal) : Host.Outcome State Fault Refusal :=
  match o with
  | some v => k v
  | none   => .fault .workingRegisterUnset

/-- Where a byte loop whose test stands at line `n` goes on: into its body, or past it once the test fails (R120, R122). -/
def loopTest (n : Nat) (w : Work) : Option Nat := (loopDone w).map fun d => if d then n + 2 else n

/-- The step that is next when line `n` is reached: a passed-over ENSURE_STANDBY (R104) and a finished byte loop (R120, R122)
go on two lines further. `none` where the loop test reads a working register without a value (R24). -/
def arrive (prog : List SeqLine) (n : Nat) (s : State) : Option Nat :=
  match prog[n]? with
  | some .ensureStandby => some (if s.mode = .requested .standby then n + 2 else n)
  | some .hbRead        => loopTest n s.work
  | some .fifoRead      => loopTest n s.work
  | _                   => some n

/-- SEQ_PC <- line `m`, at its beginning. -/
def State.atLine (s : State) (m : Nat) : State := { s with seq := .run (.line m false) }

/-- Go on at line `n`: SEQ_PC <- the step next there. -/
def goto (prog : List SeqLine) (n : Nat) (s : State) : Host.Outcome State Fault Refusal :=
  need (arrive prog n s) fun m => .next (s.atLine m)

/-- T_WAITCNT as the iteration of a sample finds it (R102, R103): 0 at the first one, where T_WAITCNT <- 0 stands before the loop,
else the count so far. -/
def waitCount (again : Bool) (w : Work) : Option Nat := if again then w.waitCnt else some 0

/-- A sample that does not end the wait, after `c` low ones (R102, R103): one more low sample, WAIT_TIMEOUT at the bound, else
the same line again. -/
def lowSample (n c : Nat) (s : State) : State :=
  if waitExpired s.params.waitBound (c + 1) then raiseError .waitTimeout s
  else { s with work := { s.work with waitCnt := some (c + 1) }, seq := .run (.line n true) }

/-- One sample of WaitHigh(L) at line `n`, with T_WAITCNT = `c` (R102): a wait that ends leaves T_WAITCNT at `c`. -/
def sampleLine (prog : List SeqLine) (n : Nat) (l : WaitLine) (c : Nat) (s : State) :
    Host.Outcome State Fault Refusal :=
  let level := (levelsNow s).of l
  let s' := s.takeLevels.record (.sample l level)
  if level then goto prog (n + 1) { s' with work := { s'.work with waitCnt := some c } } else .next (lowSample n c s')

/-- One sample of WaitRx() at line `n`, with T_WAITCNT = `c` (R103). -/
def sampleRxLines (prog : List SeqLine) (n c : Nat) (s : State) : Host.Outcome State Fault Refusal :=
  let done := (levelsNow s).rxDone
  let timeout := (levelsNow s).rxTimeout
  let s' := s.takeLevels.record (.sampleRx done timeout)
  match rxWinner done timeout with
  | some x => goto prog (n + 1) { s' with work := { s'.work with waitCnt := some c, which := some x } }
  | none   => .next (lowSample n c s')

/-- register <- SpiRead(a) as line `n`. -/
def readInto (prog : List SeqLine) (n : Nat) (a : RegAddr) (d : RdTarget) (s : State) :
    Host.Outcome State Fault Refusal :=
  goto prog (n + 1) { spiRead a s with work := d.put (radioAnswer s) s.work }

/-- The last line of a command: its assignments, then completion (R72). -/
def finish (e : Ending) (s : State) : Host.Outcome State Fault Refusal :=
  match e with
  | .plain    => .next (complete s)
  | .initDone => .next (complete { s with initDone := true })
  | .standby  => .next (complete (s.setMode (.requested .standby)))
  | .outcome  =>
    need s.work.which fun x => need s.work.flags fun f => .next (complete { s with outcome := mapOutcome x f })
  | .rxLen    => need s.work.len fun n => .next (complete { s with rxLen := n })

/-- One step: perform line `n` of the program, which is `l`, and go on. -/
def runLine (prog : List SeqLine) (n : Nat) (again : Bool) (l : SeqLine) (s : State) :
    Host.Outcome State Fault Refusal :=
  match l with
  | .wr a src       => need (src.get s.work) fun v => goto prog (n + 1) (spiWrite a v s)
  | .wrFifoPtr      =>
    need s.work.ptr fun p => goto prog (n + 1) { spiWrite 0x0D p s with work := { s.work with idx := some 0 } }
  | .rd a d         => readInto prog n a d s
  | .rdFlags        => readInto prog n 0x12 .flags (s.setMode (.requested .standby))
  | .mode m         => goto prog (n + 1) (requestMode m s)
  | .ensureStandby  => goto prog (n + 1) (requestMode .standby s)
  | .wait l         => need (waitCount again s.work) fun c => sampleLine prog n l c s
  | .waitRx         => need (waitCount again s.work) fun c => sampleRxLines prog n c s
  | .hbRead         =>
    need (bufferIndex s.work) fun i =>
      goto prog (n + 1)
        { (s.takeByte i).record (.hbRd i (bufferByte i s)) with work := { s.work with byte := some (bufferByte i s) } }
  | .fifoWrite      =>
    need s.work.byte fun b => need s.work.idx fun j =>
      goto prog (n - 1) { spiWrite 0x00 b s with work := nextIndex j s.work }
  | .fifoRead       =>
    goto prog (n + 1) { spiRead 0x00 s with work := { s.work with byte := some (radioAnswer s) } }
  | .hbWrite        =>
    need (bufferIndex s.work) fun i => need s.work.byte fun b => need s.work.idx fun j =>
      goto prog (n - 1) { s.record (.hbWr i b) with hb := s.hb.write i.toNat b, work := nextIndex j s.work }
  | .complete e     => finish e s

/-- One step of a command (R69, R70): at the decode checks `check` decides, and `enter` makes the first assignments of the
command that passes; at a line, that line is performed. -/
def runCommand (check : Option ErrCode) (enter : State → State) (prog : List SeqLine) (s : State) :
    Host.Outcome State Fault Refusal :=
  match s.seq with
  | .idle                 => .fault .seqIdle
  | .run .check           =>
    match check with
    | some e => .next (raiseError e s)
    | none   => goto prog 0 (enter s)
  | .run (.line n again) =>
    match prog[n]? with
    | some l => runLine prog n again l s
    | none   => .fault .seqPosOutside

end Sys2Proof.Machine
end

