-- ==== Sys2Proof/Machine/Configure.lean ====
section
/-! DEFINITION. CHANGE_CHANNEL and CHANGE_DATARATE (41_config_tables.md). -/

namespace Sys2Proof.Machine

/-- The pseudocode of CHANGE_CHANNEL k (R95). -/
def changeChannelProgram (k : Byte) : List SeqLine := ensureStandby ++ setChannel k ++ [.complete .plain]

/-- CHANGE_CHANNEL k (R95): an index without an entry is rejected before any transaction (R69, R143). -/
def execChangeChannel (k : Byte) (s : State) : Host.Outcome State Fault Refusal :=
  runCommand (firstError (initGate s.initDone) (indexGate (legalChannel k))) (fun s => s) (changeChannelProgram k) s

/-- The pseudocode of CHANGE_DATARATE k (R96). -/
def changeDatarateProgram (k : Byte) : List SeqLine := ensureStandby ++ setDatarate k ++ [.complete .plain]

/-- CHANGE_DATARATE k (R96). -/
def execChangeDatarate (k : Byte) (s : State) : Host.Outcome State Fault Refusal :=
  runCommand (firstError (initGate s.initDone) (indexGate (legalDatarate k))) (fun s => s) (changeDatarateProgram k) s

end Sys2Proof.Machine
end

