-- ==== Sys2Proof/Machine/Init.lean ====
section
/-! DEFINITION. INIT (44_initialization.md). -/

namespace Sys2Proof.Machine

/-- The pseudocode of INIT (R130), steps (1) to (11) and the last step. The numbers are those of the source. -/
def initProgram (p : Params) : List SeqLine :=
  [.mode .sleep, .mode .loraSleep, .mode .standby, .wait .modeReady]   -- (1) to (3)
    ++ setChannel 0x00                                                   -- (4)
    ++ [.wr 0x09 (.value p.paValue), .wr 0x0C (.value p.lnaBoost)]       -- (5), (6)
    ++ setDatarate 0x00                                                  -- (7)
    ++ [.wr 0x1F (.value 0x25)]                                          -- (8): 37 (R134)
    ++ [.wr 0x20 (.value 0x00), .wr 0x21 (.value 0x08)]                  -- (9): 12 − 4 (R134)
    ++ [.wr 0x39 (.value p.syncWord)]                                    -- (10)
    ++ [.wr 0x0E (.value p.fifoTxBase), .wr 0x0F (.value p.fifoRxBase)]  -- (11)
    ++ [.complete .initDone]

/-- INIT (R130): needs no earlier INIT; INIT_DONE is cleared as its decode checks pass (R14). -/
def execInit (s : State) : Host.Outcome State Fault Refusal :=
  runCommand none (fun s => { s with initDone := false }) (initProgram s.params) s

end Sys2Proof.Machine
end

