-- ==== Sys2Proof/Machine/Packet.lean ====
section
/-! DEFINITION. SEND and GET_PACKET (43_packet_transfer.md). -/

namespace Sys2Proof.Machine

/-- The pseudocode of SEND (R121) after T_LEN <- ARG. -/
def sendProgram (p : Params) : List SeqLine :=
  ensureStandby ++ iqTx p ++ sendPayload ++ txPhase p ++ [.complete .standby]

/-- SEND n (R121). -/
def execSend (n : Byte) (s : State) : Host.Outcome State Fault Refusal :=
  runCommand (initGate s.initDone) (fun s => { s with work := { s.work with len := some n } }) (sendProgram s.params) s

/-- The pseudocode of GET_PACKET (R123). -/
def getPacketProgram : List SeqLine := ensureStandby ++ receivePayload ++ [.complete .rxLen]

/-- GET_PACKET (R123). -/
def execGetPacket (s : State) : Host.Outcome State Fault Refusal :=
  runCommand (initGate s.initDone) (fun s => s) getPacketProgram s

end Sys2Proof.Machine
end

