-- ==== Sys2Proof/Machine/Receive.lean ====
section
/-! DEFINITION. RECEIVE (42_mode_controller.md). -/

namespace Sys2Proof.Machine

/-- The pseudocode of RECEIVE (R111) after OUTCOME <- NO_MESSAGE: the flags read (R109) and clear (R110) follow RX_PHASE. -/
def receiveProgram (p : Params) : List SeqLine :=
  ensureStandby ++ iqRx p ++ rxPhase p ++ [.rdFlags, .wr 0x12 (.value 0xE0), .complete .outcome]

/-- RECEIVE (R111): OUTCOME becomes NO_MESSAGE as the decode checks pass (R17). -/
def execReceive (s : State) : Host.Outcome State Fault Refusal :=
  runCommand (initGate s.initDone) (fun s => { s with outcome := .noMessage }) (receiveProgram s.params) s

end Sys2Proof.Machine
end

