-- ==== Sys2Proof/Machine/Dispatch.lean ====
section
/-! DEFINITION. One step of an instruction: an arm per constructor. -/

namespace Sys2Proof.Machine

def exec (i : Instr) (s : State) : Host.Outcome State Fault Refusal :=
  match i with
  | .init => Sys2Proof.Machine.execInit s
  | .send n => Sys2Proof.Machine.execSend n s
  | .receive => Sys2Proof.Machine.execReceive s
  | .getPacket => Sys2Proof.Machine.execGetPacket s
  | .changeChannel k => Sys2Proof.Machine.execChangeChannel k s
  | .changeDatarate k => Sys2Proof.Machine.execChangeDatarate k s
  | .rd a => Sys2Proof.Machine.execRd a s
  | .wr a v => Sys2Proof.Machine.execWr a v s

end Sys2Proof.Machine
end

