-- ==== Sys2Proof/Machine/Fetch.lean ====
section
/-! DEFINITION. What the next step is: a lone transaction, an action of the host, or the sequencer's step of SEQ_CMD (R1, R23). -/

namespace Sys2Proof.Machine

/-- What the next step does. -/
inductive Turn where
  /-- the instruction whose step it is -/
  | instr (i : Instr)
  /-- SEQ_CMD is an illegal command word (R63): the decode checks reject it (R69) -/
  | illegal
  /-- an action of the host -/
  | host (a : HostAction)
  /-- nobody has a step: IDLE until the host's next command (R72) -/
  | hold
  /-- a lone frame the NRC never emits (R65) -/
  | notEmitted
deriving DecidableEq, Repr

/-- The sequencer's turn: nothing while IDLE, else a step of the command in SEQ_CMD (R23, R69). -/
def sequencerTurn (s : State) : Turn :=
  match s.seq with
  | .idle  => .hold
  | .run _ =>
    match decodeHcmd s.seqCmd with
    | .ok i    => .instr i
    | .error _ => .illegal

/-- The turn of a lone transaction. -/
def loneTurn (f : HalfWord) : Turn :=
  match decodeSpif f with
  | .ok i    => .instr i
  | .error _ => .notEmitted

/-- Whose step is next. -/
def nextTurn (s : State) : Turn :=
  match s.lone with
  | some f => loneTurn f
  | none   =>
    match s.hostIn with
    | []         => sequencerTurn s
    | .turn :: _ => sequencerTurn s
    | a :: _     => .host a

/-- The state with the next step taken from where it stood: the lone transaction, else the host's first action. -/
def takeTurn (s : State) : State :=
  match s.lone with
  | some _ => { s with lone := none }
  | none   => { s with hostIn := s.hostIn.tail }

/-- Place a word where the next step is taken from: a command word is accepted (R67), an SPI frame stands as a lone transaction;
either way the step is the sequencer's. -/
def placeWord (w : HalfWord) (s : State) : State :=
  match decodeAny w with
  | .ok (.rd _)   => { s with lone := some w }
  | .ok (.wr _ _) => { s with lone := some w }
  | _             => { accept w s with hostIn := .turn :: s.hostIn, lone := none }

end Sys2Proof.Machine
end

