-- ==== Sys2Proof/Machine/Step.lean ====
section
/-! DEFINITION. One step of the machine. -/

namespace Sys2Proof.Machine

/-- One step (R1, R23): whoever has the turn makes one step of its own. -/
def step (s : State) : Host.Outcome State Fault Refusal :=
  match nextTurn s with
  | .instr i    => exec i (takeTurn s)
  | .illegal    => .next (raiseError .illegalCmd (takeTurn s))
  | .host a     => .next (hostAct a (takeTurn s))
  | .hold       => .next (takeTurn s)
  | .notEmitted => .fault .frameNotEmitted

/-- The state with the instruction of the word `w` placed so that the very next step runs it. -/
def State.withFetchWord (s : State) (nbits w : Nat) : State :=
  placeWord (BitVec.ofNat 16 (w % 2 ^ nbits)) s

end Sys2Proof.Machine
end

