-- ==== Sys2Proof/Safety.lean ====
section
/-! DEFINITION. The words claims are stated in: the program of a command, runs of one instruction, the invariant of the machine, and which events the NRC may record. -/

namespace Sys2Proof.Machine

/-- The pseudocode lines of an instruction; an SPI transaction has none of its own. -/
def program (i : Instr) (p : Params) : List SeqLine :=
  match i with
  | .init             => initProgram p
  | .send _           => sendProgram p
  | .receive          => receiveProgram p
  | .getPacket        => getPacketProgram
  | .changeChannel k  => changeChannelProgram k
  | .changeDatarate k => changeDatarateProgram k
  | .rd _             => []
  | .wr _ _           => []

/-- The decode checks of a decoded command (R69): which error rejects it, if any. -/
def decodeCheck (i : Instr) (initDone : Bool) : Option ErrCode :=
  match i with
  | .init             => none
  | .changeChannel k  => firstError (initGate initDone) (indexGate (legalChannel k))
  | .changeDatarate k => firstError (initGate initDone) (indexGate (legalDatarate k))
  | _                 => initGate initDone

/-- The assignments a command makes as its decode checks pass (R14, R17, R62). -/
def enter (i : Instr) (s : State) : State :=
  match i with
  | .init    => { s with initDone := false }
  | .send n  => { s with work := { s.work with len := some n } }
  | .receive => { s with outcome := .noMessage }
  | _        => s

/-- `k` steps of one instruction with nobody else acting in between, stopping at the first fault or refusal. -/
def execSteps (i : Instr) : Nat → State → Host.Outcome State Fault Refusal
  | 0, s     => .next s
  | k + 1, s =>
    match exec i s with
    | .next t    => execSteps i k t
    | .fault f   => .fault f
    | .refused r => .refused r

/-! ### The invariant -/

/-- The byte loops' index is inside the packet: T_IDX < T_LEN (R41, R120, R122). -/
def insideLoop (w : Work) : Bool :=
  match w.idx, w.len with
  | some i, some n => decide (i.toNat < n.toNat)
  | _, _           => false

/-- A line that is the second step of a byte loop's pair. -/
def SeqLine.secondOfPair : SeqLine → Bool
  | .fifoWrite | .hbWrite => true
  | _                     => false

/-- What must hold of the working registers for a line to be the next step. -/
def SeqLine.ready (again : Bool) (w : Work) : SeqLine → Bool
  | .wait _ | .waitRx       => !again || w.waitCnt.isSome
  | .hbRead | .fifoRead     => insideLoop w
  | .fifoWrite | .hbWrite   => insideLoop w && w.byte.isSome
  | _                       => true

/-- What a line leaves in the working registers once it has been performed (R24: written before read). -/
def SeqLine.leaves (w : Work) : SeqLine → Bool
  | .rd _ .ptr   => w.ptr.isSome
  | .rd _ .len   => w.len.isSome
  | .rd _ .flags => w.flags.isSome
  | .rdFlags     => w.flags.isSome
  | .wrFifoPtr   => w.idx.isSome
  | .waitRx      => w.which.isSome
  | _            => true

/-- The mode MODE_SHADOW holds once a line has been performed or passed over, where the line settles it (R20, R104). -/
def SeqLine.modeAfter : SeqLine → Option RadioMode
  | .mode m        => some m
  | .ensureStandby => some .standby
  | .rdFlags       => some .standby
  | _              => none

/-- The mode the last line that settles one leaves. -/
def lastMode : List SeqLine → Option RadioMode
  | []          => none
  | l :: ls     =>
    match lastMode ls with
    | some m => some m
    | none   => l.modeAfter

/-- MODE_SHADOW between commands: UNKNOWN or STANDBY (R104, R155). -/
def restMode (m : ModeShadow) : Prop := m = .unknown ∨ m = .requested .standby

/-- SEQ_PC at line `n` fits the command in SEQ_CMD and what its earlier lines have done. -/
structure LineInv (s : State) (n : Nat) (again : Bool) (i : Instr) (l : SeqLine) : Prop where
  command   : decodeHcmd s.seqCmd = .ok i
  legal     : i.wf = true
  position  : (program i s.params)[n]? = some l
  ready     : l.ready again s.work = true
  left      : ((program i s.params).take n).all (fun l => l.leaves s.work) = true
  /-- T_LEN is ARG all through SEND (R62, R121) -/
  sendLen   : ∀ k, i = .send k → s.work.len = some k
  gate      : s.initDone = true ↔ i ≠ .init
  shadow    : ∀ m, lastMode ((program i s.params).take n) = some m → s.mode = .requested m
  /-- a packet byte is held only between the two steps of its pair (R32) -/
  noCopy    : l.secondOfPair = true ∨ s.work.byte = none
  /-- OUTCOME is NO_MESSAGE all through RECEIVE (R17) -/
  receiving : i = .receive → s.outcome = .noMessage

/-- The invariant of the machine: it holds at reset and every step keeps it. -/
structure StateInv (s : State) : Prop where
  /-- SEQ_STATE = RUN exactly when STATUS.BUSY = 1 (R23) -/
  busyRun  : s.busy = true ↔ s.seq ≠ .idle
  /-- the command executed is the one CMD records (R11, R67) -/
  command  : s.seqCmd = s.cmd
  /-- between transactions NSS is high (R25, R82) -/
  nssHigh  : s.port.nss = true
  /-- the host buffer keeps its canonical form -/
  buffer   : s.hb.wf = true
  /-- an index raced with the running command at most once -/
  racedOnce : s.raced.Nodup
  /-- P meets R5 and R7 -/
  params   : s.params.wf = true
  /-- no transaction stands outside a command (R13) -/
  noLone   : s.lone = none
  /-- outside a command, and at the decode checks, MODE_SHADOW is UNKNOWN or STANDBY and no working register has a value (R24) -/
  resting  : s.seq = .idle ∨ s.seq = .run .check → restMode s.mode ∧ s.work = .noValue
  /-- STATUS.ERR is NONE while a command runs (R16, R67, R72) -/
  errNone  : s.seq ≠ .idle → s.err = .none
  /-- SEQ_PC is a position of the command's pseudocode (R23) -/
  lines    : ∀ n again, s.seq = .run (.line n again) → ∃ i l, LineInv s n again i l

/-! ### Events -/

/-- The transactions and buffer accesses the NRC makes: only the radio registers and accesses of R28, and never HB index 255
(R41). -/
def Event.permitted : Event → Bool
  | .wr a _   => writeAddrs.contains a
  | .rd a _   => readAddrs.contains a
  | .hbRd i _ => i != 0xFF
  | .hbWr i _ => i != 0xFF
  | _         => true

/-- The 16-bit MOSI frame of a transaction event (R56, R65, R66). -/
def Event.frame : Event → Option HalfWord
  | .wr a v => some (encode (.wr a v))
  | .rd a _ => some (encode (.rd a))
  | _       => none

/-- The events of an SPI transaction, a line sample or a host-buffer access: what the NRC does not do while BUSY = 0 (R13). -/
def Event.active : Event → Bool
  | .wr _ _ | .rd _ _ | .sample _ _ | .sampleRx _ _ | .hbRd _ _ | .hbWr _ _ => true
  | .accept _ | .drop _ | .done _ => false

end Sys2Proof.Machine
end

