-- ==== Sys2Proof/Certificates/Slice0/Obligations.lean ====
section
/-! DEFINITION. The statements for the provers, and the few words they are written in. -/

open Sys2Proof
open Sys2Proof.Machine

namespace Sys2Proof.Claims

/-! ### Words the statements share -/

/-- The decode checks as the pseudocode of 30_encoding.md R69 lists them, in its order. -/
def decodeChecks (w : HalfWord) (initDone : Bool) : Option ErrCode :=
  let op  := (w.extractLsb' 8 8).toNat
  let arg := (w.extractLsb' 0 8).toNat
  if ¬ (1 ≤ op ∧ op ≤ 6) then some .illegalCmd
  else if (op = 1 ∨ op = 3 ∨ op = 4) ∧ arg ≠ 0 then some .illegalCmd
  else if op ≠ 1 ∧ initDone = false then some .notInit
  else if op = 5 ∧ ¬ (arg ≤ 7 ∨ arg = 0x10) then some .badIndex
  else if op = 6 ∧ 6 < arg then some .badIndex
  else none

/-- The samples a wait sees: low ones, as many as the bound allows, then one that ends it (R102, R103). -/
def WaitEnds (bound : Option Nat) (ends : Levels → Bool) (lows : List Levels) (last : Levels) : Prop :=
  (∀ l ∈ lows, ends l = false) ∧ ends last = true ∧ ∀ b, bound = some b → lows.length < b

/-- The events of a `WaitHigh(l)` that saw those samples (R102). -/
def waitEvents (l : WaitLine) (lows : List Levels) : List Event :=
  lows.map (fun _ => Event.sample l false) ++ [Event.sample l true]

/-- The events of a `WaitRx()` that saw those samples (R103). -/
def waitRxEvents (lows : List Levels) (last : Levels) : List Event :=
  lows.map (fun _ => Event.sampleRx false false) ++ [Event.sampleRx last.rxDone last.rxTimeout]

/-- Both receive lines are low at a sample (R103). -/
def BothLow (l : Levels) : Prop := l.rxDone = false ∧ l.rxTimeout = false

/-- The events of SEND_PAYLOAD's loop for `n` bytes of the buffer `m` (R120). -/
def sendLoopEvents (m : Memory) (n : Nat) : List Event :=
  (List.range n).flatMap fun j => [Event.hbRd (BitVec.ofNat 8 j) (m.read j), Event.wr 0x00 (m.read j)]

/-- The events of RECEIVE_PAYLOAD's loop for the bytes the radio returned (R122). -/
def receiveLoopEvents (bytes : List Byte) : List Event :=
  (List.range bytes.length).flatMap fun j =>
    [Event.rd 0x00 (bytes.getD j 0), Event.hbWr (BitVec.ofNat 8 j) (bytes.getD j 0)]

/-- Everything but what the steps of a command may touch is the same: the accepted word, the overrun flag, P, the host's
queue, what it has seen and the bytes it has raced for. -/
def SameSurroundings (s t : State) : Prop :=
  t.cmd = s.cmd ∧ t.seqCmd = s.seqCmd ∧ t.ovr = s.ovr ∧ t.params = s.params ∧ t.hostIn = s.hostIn ∧
    t.hostSeen = s.hostSeen ∧ t.lone = s.lone ∧ t.raced = s.raced

/-- A wait has given up after `N` low samples, each recorded as `e` (R144, R146): the samples and then `Done` are recorded, ERR is
WAIT_TIMEOUT, MODE_SHADOW is UNKNOWN, the command has ended, `rest` is left of the samples, and everything else is as it was. -/
def GaveUp (e : Event) (N : Nat) (rest : List Levels) (s t : State) : Prop :=
  t.history = s.history ++ (List.replicate N e ++ [.done (statusWord false s.initDone s.ovr .waitTimeout)]) ∧
    t.err = .waitTimeout ∧ t.mode = .unknown ∧ t.initDone = s.initDone ∧ t.outcome = s.outcome ∧ t.rxLen = s.rxLen ∧
    t.hb = s.hb ∧ t.misoIn = s.misoIn ∧ t.lineIn = rest ∧ t.draws = s.draws ∧ t.port = s.port ∧
    t.busy = false ∧ t.seq = .idle ∧ t.work = .noValue ∧ SameSurroundings s t

/-- A command has ended: BUSY = 0, IDLE, no working register with a value, NSS high. -/
def Ended (t : State) : Prop :=
  t.busy = false ∧ t.seq = .idle ∧ t.work = Work.noValue ∧ t.port.nss = true

/-! ### The loopback responder (95_test_vectors.md section 1.3), test equipment in the radio's place -/

/-- The responder's state: registers and FIFO by address, and the FIFO pointer. -/
structure Responder where
  reg  : Nat → Byte
  fifo : Nat → Byte
  ptr  : Byte

/-- A function changed at one place. -/
def setAt (f : Nat → Byte) (a : Nat) (v : Byte) : Nat → Byte := fun x => if x = a then v else f x

/-- What a WR does to the responder. -/
def Responder.onWr (txValue : Byte) (r : Responder) (a : RegAddr) (v : Byte) : Responder :=
  if a = 0x00 then { r with fifo := setAt r.fifo r.ptr.toNat v, ptr := r.ptr + 1 }
  else if a = 0x12 then { r with reg := setAt r.reg 0x12 (r.reg 0x12 &&& ~~~v) }
  else
    let r1 : Responder := { r with reg := setAt r.reg a.toNat v, ptr := if a = 0x0D then v else r.ptr }
    if a = 0x01 ∧ v = txValue then
      { r1 with
        reg := setAt (setAt (setAt r1.reg 0x10 (r1.reg 0x0E)) 0x13 (r1.reg 0x22)) 0x12 (r1.reg 0x12 ||| 0x40) }
    else r1

/-- The byte the responder answers to an RD. -/
def Responder.answer (r : Responder) (a : RegAddr) : Byte := if a = 0x00 then r.fifo r.ptr.toNat else r.reg a.toNat

/-- What an RD does to the responder. -/
def Responder.onRd (r : Responder) (a : RegAddr) : Responder := if a = 0x00 then { r with ptr := r.ptr + 1 } else r

/-- The radio's answers in these events are the responder's. -/
def Responder.Answers (txValue : Byte) : Responder → List Event → Prop
  | _, []            => True
  | r, .wr a v :: es => Responder.Answers txValue (r.onWr txValue a v) es
  | r, .rd a v :: es => v = r.answer a ∧ Responder.Answers txValue (r.onRd a) es
  | r, _ :: es       => Responder.Answers txValue r es

end Sys2Proof.Claims

open Sys2Proof.Claims

/-! ### Encoding -/

/-- Decoding the word of an instruction gives it back, in its own format for every operand (30_encoding.md R60, R61, R64 to
R66), and for a well-formed one also where the word's format is not told: that reading of an untold word, the command first, is
the model's choice (assumption 13). -/
def Obligations.DecodeOfEncode : Prop :=
  (∀ i : Instr, decodeFor i (encode i) = .ok i) ∧ (∀ i : Instr, i.wf = true → decodeAny (encode i) = .ok i)

/-- No two words decode to one instruction: a decoded word is its instruction's encoding. -/
def Obligations.EncodeOfDecode : Prop :=
  ∀ (w : HalfWord) (i : Instr),
    (decodeHcmd w = .ok i → i.isCommand = true ∧ encode i = w) ∧ (decodeSpif w = .ok i → i.isCommand = false ∧ encode i = w)

/-- The command decoder refuses exactly the words R63 calls illegal; the frame decoder exactly those with bit 15 clear and a
non-zero second byte. -/
def Obligations.DecodersRefuseIllegalWords : Prop :=
  ∀ w : HalfWord,
    ((∃ r, decodeHcmd w = .error r) ↔
      ((w.extractLsb' 8 8).toNat = 0 ∨ 7 ≤ (w.extractLsb' 8 8).toNat) ∨
      (((w.extractLsb' 8 8).toNat = 1 ∨ (w.extractLsb' 8 8).toNat = 3 ∨ (w.extractLsb' 8 8).toNat = 4) ∧
        (w.extractLsb' 0 8).toNat ≠ 0)) ∧
    ((∃ r, decodeSpif w = .error r) ↔ (w.getLsbD 15 = false ∧ w.extractLsb' 0 8 ≠ 0#8))

/-- Words written out from the encoding tables decode to the instructions they stand for. -/
def Obligations.SpecWordsDecode : Prop :=
  decodeHcmd 0b0000000100000000#16 = .ok .init ∧
  decodeHcmd 0b0000001011111111#16 = .ok (.send 255) ∧
  decodeHcmd 0b0000001100000000#16 = .ok .receive ∧
  decodeHcmd 0b0000010000000000#16 = .ok .getPacket ∧
  decodeHcmd 0b0000010100010000#16 = .ok (.changeChannel 0x10) ∧
  decodeHcmd 0b0000011000000110#16 = .ok (.changeDatarate 6) ∧
  decodeSpif 0b0000111000000000#16 = .ok (.rd 0x0E) ∧
  decodeSpif 0b1001001011100000#16 = .ok (.wr 0x12 0xE0)

/-- The frames of RD and WR (R65, R66): as words, and as the two bytes each transaction shifts out. -/
def Obligations.TransactionFrames : Prop :=
  ∀ (a : RegAddr) (v : Byte) (s : State),
    encode (.rd a) = 0#1 ++ a ++ 0x00#8 ∧ encode (.rd a) &&& 0x80FF = 0x0000 ∧
    encode (.wr a v) = 1#1 ++ a ++ v ∧ encode (.wr a v) &&& 0x8000 = 0x8000 ∧
    (∃ t, exec (.rd a) s = .next t ∧ t.port.sent = [a.setWidth 8, 0x00] ∧ (a.setWidth 8 : Byte).getLsbD 7 = false) ∧
    (∃ t, exec (.wr a v) s = .next t ∧ t.port.sent = [a.setWidth 8 ||| 0x80, v])

/-! ### The Register Bus -/

/-- WR a, v (R81): always completes; it records Wr(a, v), leaves NSS high after the bytes a | 0x80 and v, and changes nothing
else. -/
def Obligations.WrCompletes : Prop :=
  ∀ (a : RegAddr) (v : Byte) (s : State),
    exec (.wr a v) s = .next
      { s with
        history := s.history ++ [.wr a v]
        port := { nss := true, sck := s.params.spiFormat.sckIdle, mosi := s.params.spiFormat.mosiIdle,
                  sent := [a.setWidth 8 ||| 0x80, v] } }

/-- RD a (R80): always completes; the value is the radio's answer (queued, or a free draw), recorded as Rd(a, v); NSS is left
high after the bytes a and 0x00, and nothing else changes. -/
def Obligations.RdCompletes : Prop :=
  ∀ (a : RegAddr) (s : State),
    (∀ v vs, s.misoIn = v :: vs →
      exec (.rd a) s = .next
        { s with
          history := s.history ++ [.rd a v]
          misoIn := vs
          port := { nss := true, sck := s.params.spiFormat.sckIdle, mosi := s.params.spiFormat.mosiIdle,
                    sent := [a.setWidth 8 &&& 0x7F, 0x00] } }) ∧
    (s.misoIn = [] →
      exec (.rd a) s = .next
        { s with
          history := s.history ++ [.rd a (Config.radioByte s.draws)]
          draws := s.draws + 1
          port := { nss := true, sck := s.params.spiFormat.sckIdle, mosi := s.params.spiFormat.mosiIdle,
                    sent := [a.setWidth 8 &&& 0x7F, 0x00] } })

/-! ### The tables -/

/-- CH_TABLE, bit-exact, and no other entry (R90); each entry is the triple that SET_CHANNEL writes to 0x06, 0x07, 0x08. -/
def Obligations.ChannelTableExact : Prop :=
  chTable 0 = some ⟨0xD9, 0x06, 0x8B⟩ ∧ chTable 1 = some ⟨0xD9, 0x13, 0x58⟩ ∧ chTable 2 = some ⟨0xD9, 0x20, 0x24⟩ ∧
  chTable 3 = some ⟨0xD8, 0xC6, 0x8B⟩ ∧ chTable 4 = some ⟨0xD8, 0xD3, 0x58⟩ ∧ chTable 5 = some ⟨0xD8, 0xE0, 0x24⟩ ∧
  chTable 6 = some ⟨0xD8, 0xEC, 0xF1⟩ ∧ chTable 7 = some ⟨0xD8, 0xF9, 0xBE⟩ ∧ chTable 16 = some ⟨0xD9, 0x61, 0xBE⟩ ∧
  (∀ k : Byte, (chTable k).isSome = true ↔ (k.toNat ≤ 7 ∨ k.toNat = 16)) ∧
  ∀ (k : Byte) (t : Triple), chTable k = some t →
    setChannel k = [.wr 0x06 (.value t.b0), .wr 0x07 (.value t.b1), .wr 0x08 (.value t.b2)]

/-- DR_TABLE, bit-exact, and no other entry (R91); each entry is the triple that SET_DATARATE writes to 0x1E, 0x1D, 0x26. -/
def Obligations.DatarateTableExact : Prop :=
  drTable 0 = some ⟨0xC4, 0x72, 0x0C⟩ ∧ drTable 1 = some ⟨0xB4, 0x72, 0x0C⟩ ∧ drTable 2 = some ⟨0xA4, 0x72, 0x04⟩ ∧
  drTable 3 = some ⟨0x94, 0x72, 0x04⟩ ∧ drTable 4 = some ⟨0x84, 0x72, 0x04⟩ ∧ drTable 5 = some ⟨0x74, 0x72, 0x04⟩ ∧
  drTable 6 = some ⟨0x74, 0x82, 0x04⟩ ∧ (∀ k : Byte, (drTable k).isSome = true ↔ k.toNat ≤ 6) ∧
  ∀ (k : Byte) (t : Triple), drTable k = some t →
    setDatarate k = [.wr 0x1E (.value t.b0), .wr 0x1D (.value t.b1), .wr 0x26 (.value t.b2)]

/-! ### The host's side -/

/-- Acceptance (R67). Two clauses say more than R67: that the working registers have no value from here on is the model's reading of
R24 (assumption 11), and that no byte of HB has raced with the new command yet is said in the model's own field (assumption 7). -/
def Obligations.IdleWriteToCmdIsAccepted : Prop :=
  ∀ (s : State) (w : HalfWord) (rest : List HostAction),
    s.lone = none → s.hostIn = .write 0 w :: rest → s.busy = false →
    step s = .next
      { s with
        cmd := w, seqCmd := w, err := .none, ovr := false, busy := true, seq := .run .check, work := .noValue
        raced := [], history := s.history ++ [.accept w], hostIn := rest }

/-- Overrun (R68): the word is dropped, recorded and flagged, and nothing else changes. -/
def Obligations.BusyWriteToCmdIsDropped : Prop :=
  ∀ (s : State) (w : HalfWord) (rest : List HostAction),
    s.lone = none → s.hostIn = .write 0 w :: rest → s.busy = true →
    step s = .next { s with ovr := true, history := s.history ++ [.drop w], hostIn := rest }

/-- Reserved indices read as 0, and a host write to any register but CMD changes no state (R21). -/
def Obligations.OtherWindowWritesAreIgnored : Prop :=
  (∀ (s : State) (i : WindowIndex), 5 ≤ i.toNat → windowRead s i = 0x0000) ∧
  (∀ (s : State) (i : WindowIndex) (w : HalfWord) (rest : List HostAction),
    s.lone = none → s.hostIn = .write i w :: rest → i ≠ 0 → step s = .next { s with hostIn := rest })

/-- A host read returns the register's whole value and has no side effect (R22): only the host's own record of what it saw
changes. -/
def Obligations.WindowReadsHaveNoSideEffect : Prop :=
  ∀ (s : State) (i : WindowIndex) (rest : List HostAction),
    s.lone = none → s.hostIn = .read i :: rest →
    step s = .next { s with hostIn := rest, hostSeen := s.hostSeen ++ [.window i (windowRead s i)] }

/-- The layout of the window's registers (R10 to R12, R16 to R19): CMD whole; STATUS bit 0 BUSY, bit 1 INIT_DONE, bit 2 OVR,
bits 5:3 the code of ERR, bits 15:6 zero; OUTCOME's code, RX_LEN and MODE's code in their low bits with zeros above, each code at
its number in the spec. STATUS is the word `statusWord` builds, the one a `Done` event carries. -/
def Obligations.WindowLayout : Prop :=
  ∀ s : State,
    windowRead s 0 = s.cmd ∧
    (windowRead s 1).getLsbD 0 = s.busy ∧ (windowRead s 1).getLsbD 1 = s.initDone ∧ (windowRead s 1).getLsbD 2 = s.ovr ∧
    (windowRead s 1).extractLsb' 3 3 =
      (match s.err with
        | .none => 0#3 | .badIndex => 1#3 | .illegalCmd => 2#3 | .notInit => 3#3 | .waitTimeout => 4#3) ∧
    (windowRead s 1).extractLsb' 6 10 = 0#10 ∧ windowRead s 1 = statusWord s.busy s.initDone s.ovr s.err ∧
    (windowRead s 2).extractLsb' 0 2 =
      (match s.outcome with | .noMessage => 0#2 | .timeout => 1#2 | .crcOk => 2#2 | .wrongMessage => 3#2) ∧
    (windowRead s 2).extractLsb' 2 14 = 0#14 ∧
    (windowRead s 3).extractLsb' 0 8 = s.rxLen ∧ (windowRead s 3).extractLsb' 8 8 = 0#8 ∧
    (windowRead s 4).extractLsb' 0 3 =
      (match s.mode with
        | .unknown => 0#3 | .requested .sleep => 1#3 | .requested .loraSleep => 2#3 | .requested .standby => 3#3
        | .requested .tx => 4#3 | .requested .rxSingle => 5#3) ∧
    (windowRead s 4).extractLsb' 3 13 = 0#13

/-- The host buffer (R41): a byte written reads back, every other byte reads as before, and the canonical form is kept. -/
def Obligations.HostBufferReadAfterWrite : Prop :=
  ∀ (m : Memory) (i b : Byte), m.wf = true →
    (m.write i.toNat b).wf = true ∧
    ∀ j : Nat, (m.write i.toNat b).read j = if j = i.toNat then b else m.read j

/-- Equal contents are equal data: two buffers in canonical form that read alike everywhere are one. -/
def Obligations.HostBufferIsCanonical : Prop :=
  ∀ m m' : Memory, m.wf = true → m'.wf = true → (∀ j, m.read j = m'.read j) → m = m'

/-- SEND or GET_PACKET is executing (R55): BUSY = 1 with one of them in SEQ_CMD. -/
def Sys2Proof.Claims.TransferRuns (s : State) : Prop :=
  s.busy = true ∧ (s.seqCmd.extractLsb' 8 8 = 0x02#8 ∨ s.seqCmd = 0x0400#16)

/-- A host store into HB (R41, R55): the byte is stored, whatever runs, and no other byte of HB and nothing else of the NRC changes.
While SEND or GET_PACKET runs its index is marked as raced, so that what the NRC reads there is a free value
(BufferAccessesInsidePacket; the mark is the model's form of that draw: assumption 7). -/
def Obligations.HostStoreIntoBuffer : Prop :=
  ∀ (s : State) (i b : Byte) (rest : List HostAction),
    s.lone = none → s.hostIn = .store i b :: rest → s.hb.wf = true →
    ∃ t, step s = .next t ∧ t = { s with hostIn := rest, hb := s.hb.write i.toNat b, raced := t.raced } ∧
      t.hb.read i.toNat = b ∧ (∀ j, j ≠ i.toNat → t.hb.read j = s.hb.read j) ∧
      (¬ TransferRuns s → t.raced = s.raced) ∧ (TransferRuns s → ∀ j, j ∈ t.raced ↔ j = i ∨ j ∈ s.raced)

/-- A host load from HB (R41, R55): it changes nothing but the host's own record, which gets the byte, or a free value while SEND or
GET_PACKET runs (assumption 7). -/
def Obligations.HostLoadFromBuffer : Prop :=
  ∀ (s : State) (i : Byte) (rest : List HostAction),
    s.lone = none → s.hostIn = .load i :: rest →
    (¬ TransferRuns s →
      step s = .next { s with hostIn := rest, hostSeen := s.hostSeen ++ [.buffer i (s.hb.read i.toNat)] }) ∧
    (TransferRuns s →
      step s = .next
        { s with
          hostIn := rest, hostSeen := s.hostSeen ++ [.buffer i (Config.racedByte s.draws)], draws := s.draws + 1 })

/-- A reset (R161, R162): from any state without a lone transaction, the NRC's registers take their reset values, HB and P keep
theirs, the history is empty and no transaction is made. -/
def Obligations.ResetTakesEffect : Prop :=
  ∀ (s : State) (rest : List HostAction),
    s.lone = none → s.hostIn = .reset :: rest →
    step s = .next
      { s with
        cmd := 0x0000, busy := false, initDone := false, ovr := false, err := .none, outcome := .noMessage, rxLen := 0x00
        mode := .unknown, seq := .idle, seqCmd := 0x0000, work := .noValue, raced := [], history := []
        port := { nss := true, sck := s.params.spiFormat.sckIdle, mosi := s.params.spiFormat.mosiIdle, sent := [] }
        hostIn := rest }

/-- The reset values of R160, as the host reads them and inside. -/
def Obligations.ResetValues : Prop :=
  windowRead State.reset 0 = 0x0000 ∧ windowRead State.reset 1 = 0x0000 ∧ windowRead State.reset 2 = 0x0000 ∧
  windowRead State.reset 3 = 0x0000 ∧ windowRead State.reset 4 = 0x0000 ∧ State.reset.seq = .idle ∧
  State.reset.seqCmd = 0x0000 ∧ State.reset.work = .noValue ∧ State.reset.port.nss = true ∧ State.reset.history = [] ∧
  State.reset.mode = .unknown ∧ State.reset.outcome = .noMessage ∧ State.reset.err = .none

/-! ### The life of a command -/

/-- A step at the sequencer's turn is a step of the decoded command: `exec` at the state with the turn taken (an empty queue of
host actions, or one that begins with `turn`). A lone transaction (the model's own entry: assumption 12) is stepped likewise. -/
def Obligations.StepRunsDecodedInstruction : Prop :=
  ∀ (s : State) (i : Instr),
    (∀ pos, s.lone = none → s.seq = .run pos → decodeHcmd s.seqCmd = .ok i →
      (s.hostIn = [] → step s = exec i s) ∧
      (∀ rest, s.hostIn = .turn :: rest → step s = exec i { s with hostIn := rest })) ∧
    (∀ f, s.lone = some f → decodeSpif f = .ok i → step s = exec i { s with lone := none })

/-- The decode checks (R69), in their order: the first that fails ends the command in one step with its error code and changes
nothing but ERR, BUSY and the sequencer's state. Where none fails the step makes the command's first assignments, INIT_DONE <- 0 of
INIT (R14), OUTCOME <- NO_MESSAGE of RECEIVE (R17) and T_LEN <- ARG of SEND (R121), and stands at the first step of the command's
rule: that of the line after ENSURE_STANDBY where MODE_SHADOW = STANDBY and the command is not INIT (R104), else that of the first
line. It makes no event and changes nothing else. That those assignments happen in this step is assumption 10. -/
def Obligations.DecodeChecksInOrder : Prop :=
  ∀ s : State, s.lone = none → s.hostIn = [] → s.seq = .run .check →
    match decodeChecks s.seqCmd s.initDone with
    | some e =>
      step s = .next
        { s with
          err := e, busy := false, seq := .idle, work := .noValue
          history := s.history ++ [.done (statusWord false s.initDone s.ovr e)] }
    | none =>
      ∃ i, decodeHcmd s.seqCmd = .ok i ∧ decodeChecks s.seqCmd s.initDone = decodeCheck i s.initDone ∧
        step s = exec i s ∧
        exec i s = .next
          { s with
            initDone := if s.seqCmd.extractLsb' 8 8 = 0x01#8 then false else s.initDone
            outcome := if s.seqCmd.extractLsb' 8 8 = 0x03#8 then .noMessage else s.outcome
            work :=
              if s.seqCmd.extractLsb' 8 8 = 0x02#8 then { s.work with len := some (s.seqCmd.extractLsb' 0 8) } else s.work
            seq := .run (.line
              (if s.seqCmd.extractLsb' 8 8 ≠ 0x01#8 ∧ s.mode = .requested .standby then 2 else 0) false) }

/-- Where each command completes (R72, R131, R106, R111, R123): at its last line `exec` answers the state with BUSY = 0, IDLE,
`Done(STATUS)` recorded with the STATUS it leaves, ERR as it was, and the command's last assignment made; nothing else changes. -/
def Obligations.LastLinesComplete : Prop :=
  ∀ (s : State) (again : Bool),
    (s.seq = .run (.line 18 again) →
      exec .init s = .next
        { s with
          initDone := true, busy := false, seq := .idle, work := .noValue
          history := s.history ++ [.done (statusWord false true s.ovr s.err)] }) ∧
    (∀ n, s.seq = .run (.line 13 again) →
      exec (.send n) s = .next
        { s with
          mode := .requested .standby, busy := false, seq := .idle, work := .noValue
          history := s.history ++ [.done (statusWord false s.initDone s.ovr s.err)] }) ∧
    (∀ x f, s.seq = .run (.line 10 again) → s.work.which = some x → s.work.flags = some f →
      exec .receive s = .next
        { s with
          outcome := mapOutcome x f, busy := false, seq := .idle, work := .noValue
          history := s.history ++ [.done (statusWord false s.initDone s.ovr s.err)] }) ∧
    (∀ n, s.seq = .run (.line 7 again) → s.work.len = some n →
      exec .getPacket s = .next
        { s with
          rxLen := n, busy := false, seq := .idle, work := .noValue
          history := s.history ++ [.done (statusWord false s.initDone s.ovr s.err)] }) ∧
    (∀ k, s.seq = .run (.line 5 again) → legalChannel k = true →
      exec (.changeChannel k) s = .next
        { s with
          busy := false, seq := .idle, work := .noValue
          history := s.history ++ [.done (statusWord false s.initDone s.ovr s.err)] }) ∧
    (∀ k, s.seq = .run (.line 5 again) → legalDatarate k = true →
      exec (.changeDatarate k) s = .next
        { s with
          busy := false, seq := .idle, work := .noValue
          history := s.history ++ [.done (statusWord false s.initDone s.ovr s.err)] })

/-- From every state that meets the invariant, a step of the command in SEQ_CMD answers a next state at every position of its
pseudocode, so no command is ever stopped. -/
def Obligations.RunningCommandAlwaysAnswers : Prop :=
  ∀ (s : State) (pos : SeqPos) (i : Instr),
    StateInv s → s.seq = .run pos → decodeHcmd s.seqCmd = .ok i → ∃ t, exec i s = .next t

/-! ### Whole commands -/

/-- INIT (R130, R131, R132, R134): from its decode checks, whatever the mode, it makes exactly the 17 writes and the one wait of
its trace, in order, and ends with INIT_DONE = 1 and MODE = STANDBY. -/
def Obligations.InitRunsToDone : Prop :=
  ∀ (s : State) (lows : List Levels) (last : Levels) (rest : List Levels),
    s.seq = .run .check → s.lineIn = lows ++ last :: rest →
    WaitEnds s.params.waitBound Levels.modeReady lows last →
    ∃ t, execSteps .init (20 + lows.length) s = .next t ∧
      t.history = s.history ++
        ([.wr 0x01 s.params.modeSleep, .wr 0x01 s.params.modeLoraSleep, .wr 0x01 s.params.modeStandby] ++
          waitEvents .modeReady lows ++
          [.wr 0x06 0xD9, .wr 0x07 0x06, .wr 0x08 0x8B, .wr 0x09 s.params.paValue, .wr 0x0C s.params.lnaBoost,
           .wr 0x1E 0xC4, .wr 0x1D 0x72, .wr 0x26 0x0C, .wr 0x1F 0x25, .wr 0x20 0x00, .wr 0x21 0x08,
           .wr 0x39 s.params.syncWord, .wr 0x0E s.params.fifoTxBase, .wr 0x0F s.params.fifoRxBase,
           .done (statusWord false true s.ovr s.err)]) ∧
      t.initDone = true ∧ t.mode = .requested .standby ∧ t.err = s.err ∧ t.outcome = s.outcome ∧ t.rxLen = s.rxLen ∧
      t.hb = s.hb ∧ t.misoIn = s.misoIn ∧ t.lineIn = rest ∧ t.draws = s.draws ∧ Ended t ∧ SameSurroundings s t

/-- SEND n (R120, R121, R45), from MODE_SHADOW = STANDBY, for every length 0 to 255 and every buffer: it makes exactly the
transactions and buffer reads of its trace, in order, with the radio's answer p to RD 0x0E written to 0x0D, and ends with
MODE = STANDBY and the buffer, OUTCOME, RX_LEN and INIT_DONE unchanged. The host keeps its duty of R55 not to store into HB while
SEND runs: no byte has raced. -/
def Obligations.SendRunsToDone : Prop :=
  ∀ (s : State) (n p : Byte) (ps : List Byte) (lows1 lows2 : List Levels) (last1 last2 : Levels) (rest : List Levels),
    s.seq = .run .check → s.initDone = true → s.mode = .requested .standby → s.raced = [] → s.misoIn = p :: ps →
    s.lineIn = lows1 ++ last1 :: (lows2 ++ last2 :: rest) →
    WaitEnds s.params.waitBound Levels.modeReady lows1 last1 → WaitEnds s.params.waitBound Levels.txDone lows2 last2 →
    ∃ t, execSteps (.send n) (11 + 2 * n.toNat + lows1.length + lows2.length) s = .next t ∧
      t.history = s.history ++
        ([.wr 0x33 s.params.iqTx33, .wr 0x3B s.params.iqTx3B, .wr 0x22 n, .rd 0x0E p, .wr 0x0D p] ++
          sendLoopEvents s.hb n.toNat ++ [.wr 0x40 s.params.dioMapTx, .wr 0x01 s.params.modeTx] ++
          waitEvents .modeReady lows1 ++ waitEvents .txDone lows2 ++ [.done (statusWord false true s.ovr s.err)]) ∧
      t.mode = .requested .standby ∧ t.initDone = true ∧ t.err = s.err ∧ t.outcome = s.outcome ∧ t.rxLen = s.rxLen ∧
      t.hb = s.hb ∧ t.misoIn = ps ∧ t.lineIn = rest ∧ t.draws = s.draws ∧ Ended t ∧ SameSurroundings s t

/-- RECEIVE (R103, R108 to R112), from MODE_SHADOW = STANDBY: exactly the trace of R111, the flags read once and cleared in every
case; OUTCOME is WRONG_MESSAGE or CRC_OK by bit 5 where RX_DONE ended the wait (a tie included), TIMEOUT where RX_TIMEOUT
alone did. -/
def Obligations.ReceiveRunsToDone : Prop :=
  ∀ (s : State) (f : Byte) (fs : List Byte) (lows1 lows2 : List Levels) (last1 last2 : Levels) (rest : List Levels),
    s.seq = .run .check → s.initDone = true → s.mode = .requested .standby → s.misoIn = f :: fs →
    s.lineIn = lows1 ++ last1 :: (lows2 ++ last2 :: rest) →
    WaitEnds s.params.waitBound Levels.modeReady lows1 last1 →
    WaitEnds s.params.waitBound (fun l => l.rxDone || l.rxTimeout) lows2 last2 →
    ∃ t, execSteps .receive (10 + lows1.length + lows2.length) s = .next t ∧
      t.history = s.history ++
        ([.wr 0x33 s.params.iqRx33, .wr 0x3B s.params.iqRx3B, .wr 0x40 s.params.dioMapRx,
          .wr 0x01 s.params.modeRxSingle] ++
          waitEvents .modeReady lows1 ++ waitRxEvents lows2 last2 ++
          [.rd 0x12 f, .wr 0x12 0xE0, .done (statusWord false true s.ovr s.err)]) ∧
      t.outcome = (if last2.rxDone then (if f.getLsbD 5 then .wrongMessage else .crcOk) else .timeout) ∧
      t.mode = .requested .standby ∧ t.initDone = true ∧ t.err = s.err ∧ t.rxLen = s.rxLen ∧ t.hb = s.hb ∧
      t.misoIn = fs ∧ t.lineIn = rest ∧ t.draws = s.draws ∧ Ended t ∧ SameSurroundings s t

/-- GET_PACKET (R122, R123, R45), from MODE_SHADOW = STANDBY, for every offset and length the radio reports: exactly the trace of
R123; HB[0 .. n − 1] are the bytes the radio returned, in order, every other byte of HB is unchanged, and RX_LEN is n. -/
def Obligations.GetPacketRunsToDone : Prop :=
  ∀ (s : State) (o n : Byte) (bytes ps : List Byte),
    s.seq = .run .check → s.initDone = true → s.mode = .requested .standby → s.hb.wf = true →
    s.misoIn = o :: n :: (bytes ++ ps) → bytes.length = n.toNat →
    ∃ t, execSteps .getPacket (5 + 2 * n.toNat) s = .next t ∧
      t.history = s.history ++
        ([.rd 0x10 o, .rd 0x13 n, .wr 0x0D o] ++ receiveLoopEvents bytes ++
          [.done (statusWord false true s.ovr s.err)]) ∧
      (∀ j, t.hb.read j = if j < n.toNat then bytes.getD j 0 else s.hb.read j) ∧ t.rxLen = n ∧
      t.mode = .requested .standby ∧ t.initDone = true ∧ t.err = s.err ∧ t.outcome = s.outcome ∧ t.misoIn = ps ∧
      t.lineIn = s.lineIn ∧ t.draws = s.draws ∧ Ended t ∧ SameSurroundings s t

/-- CHANGE_CHANNEL k (R93, R95), from MODE_SHADOW = STANDBY, for every index with an entry: exactly its three writes, in order, and
nothing else of the NRC changes. -/
def Obligations.ChangeChannelRunsToDone : Prop :=
  ∀ (s : State) (k : Byte) (f : Triple),
    s.seq = .run .check → s.initDone = true → s.mode = .requested .standby → chTable k = some f →
    ∃ t, execSteps (.changeChannel k) 5 s = .next t ∧
      t.history = s.history ++
        [.wr 0x06 f.b0, .wr 0x07 f.b1, .wr 0x08 f.b2, .done (statusWord false true s.ovr s.err)] ∧
      t.mode = s.mode ∧ t.initDone = true ∧ t.err = s.err ∧ t.outcome = s.outcome ∧ t.rxLen = s.rxLen ∧ t.hb = s.hb ∧
      t.misoIn = s.misoIn ∧ t.lineIn = s.lineIn ∧ t.draws = s.draws ∧ Ended t ∧ SameSurroundings s t

/-- CHANGE_DATARATE k (R94, R96), from MODE_SHADOW = STANDBY, for every index with an entry: the modulation, bandwidth and AGC
writes, in that order, and nothing else of the NRC changes. -/
def Obligations.ChangeDatarateRunsToDone : Prop :=
  ∀ (s : State) (k : Byte) (m : Triple),
    s.seq = .run .check → s.initDone = true → s.mode = .requested .standby → drTable k = some m →
    ∃ t, execSteps (.changeDatarate k) 5 s = .next t ∧
      t.history = s.history ++
        [.wr 0x1E m.b0, .wr 0x1D m.b1, .wr 0x26 m.b2, .done (statusWord false true s.ovr s.err)] ∧
      t.mode = s.mode ∧ t.initDone = true ∧ t.err = s.err ∧ t.outcome = s.outcome ∧ t.rxLen = s.rxLen ∧ t.hb = s.hb ∧
      t.misoIn = s.misoIn ∧ t.lineIn = s.lineIn ∧ t.draws = s.draws ∧ Ended t ∧ SameSurroundings s t

/-- ENSURE_STANDBY (R104), the prologue of every command but INIT. Where MODE_SHADOW is STANDBY it makes no event: the decode step
leads to the line after it. Where MODE_SHADOW is anything else the command writes Standby to register 0x01 and waits for
MODE_READY, and then stands at that same line, in the state it would have been in at once had it started with MODE_SHADOW =
STANDBY after those events. -/
def Obligations.EnsureStandbyActsOnlyWhenNeeded : Prop :=
  ∀ (s : State) (i : Instr), i.isCommand = true → i ≠ .init → i.wf = true → s.seq = .run .check → s.initDone = true →
    (s.mode = .requested .standby → exec i s = .next { enter i s with seq := .run (.line 2 false) }) ∧
    (s.mode ≠ .requested .standby → ∀ (lows : List Levels) (last : Levels) (rest : List Levels),
      s.lineIn = lows ++ last :: rest → WaitEnds s.params.waitBound Levels.modeReady lows last →
      ∃ t : State, execSteps i (3 + lows.length) s = .next t ∧
        t = { enter i s with
          mode := .requested .standby, seq := .run (.line 2 false), lineIn := rest
          work := { (enter i s).work with waitCnt := some lows.length }
          history := s.history ++ ([.wr 0x01 s.params.modeStandby] ++ waitEvents .modeReady lows)
          port := { nss := true, sck := s.params.spiFormat.sckIdle, mosi := s.params.spiFormat.mosiIdle,
                    sent := [0x81, s.params.modeStandby] } } ∧
        exec i { t with seq := .run .check } = .next t)

/-- The same CHANGE_CHANNEL or CHANGE_DATARATE from MODE_SHADOW = STANDBY records the same three `Wr` events whatever else the two
states hold (R97). -/
def Obligations.ChangesAreIdempotent : Prop :=
  ∀ (i : Instr) (s s' : State),
    ((∃ k, i = .changeChannel k) ∨ (∃ k, i = .changeDatarate k)) → i.wf = true →
    s.seq = .run .check → s.initDone = true → s.mode = .requested .standby →
    s'.seq = .run .check → s'.initDone = true → s'.mode = .requested .standby →
    ∃ (t t' : State) (a1 a2 a3 : RegAddr) (v1 v2 v3 : Byte) (d d' : HalfWord),
      execSteps i 5 s = .next t ∧ execSteps i 5 s' = .next t' ∧
      t.history = s.history ++ [.wr a1 v1, .wr a2 v2, .wr a3 v3, .done d] ∧
      t'.history = s'.history ++ [.wr a1 v1, .wr a2 v2, .wr a3 v3, .done d']

/-- Round trip (R125): with the radio answering as the loopback responder does, SEND L followed by GET_PACKET gives RX_LEN = L and
HB[0 .. L − 1] as they were when SEND began, for every L and every responder state. Between the two commands HB may be
overwritten; while SEND runs the host keeps its duty of R55 not to store into it. -/
def Obligations.LoopbackRoundTrip : Prop :=
  ∀ (s t u v : State) (L p o n : Byte) (ps bytes qs : List Byte) (lows1 lows2 : List Levels) (last1 last2 : Levels)
    (rest : List Levels) (r : Responder) (sent got : List Event),
    s.seq = .run .check → s.initDone = true → s.mode = .requested .standby → s.raced = [] → s.misoIn = p :: ps →
    s.lineIn = lows1 ++ last1 :: (lows2 ++ last2 :: rest) →
    WaitEnds s.params.waitBound Levels.modeReady lows1 last1 → WaitEnds s.params.waitBound Levels.txDone lows2 last2 →
    execSteps (.send L) (11 + 2 * L.toNat + lows1.length + lows2.length) s = .next t → t.history = s.history ++ sent →
    u.seq = .run .check → u.initDone = true → u.mode = .requested .standby → u.params = s.params → u.hb.wf = true →
    u.misoIn = o :: n :: (bytes ++ qs) → bytes.length = n.toNat →
    execSteps .getPacket (5 + 2 * n.toNat) u = .next v → v.history = u.history ++ got →
    Responder.Answers s.params.modeTx r (sent ++ got) →
    v.rxLen = L ∧ ∀ j, j < L.toNat → v.hb.read j = s.hb.read j

/-! ### Waits and aborts -/

/-- One sample of WaitHigh(L) (R102), at any such line of any command, with T_WAITCNT = c (0 at the first sample): a high level ends
the wait at once, leaves T_WAITCNT at c and goes on at the next line; a low one is counted and the wait goes on, or ends the
command with WAIT_TIMEOUT when the count reaches a natural P_WAIT_BOUND. The sample is recorded in every case, and nothing else
changes. Two readings of the model stand in this: the abort happens in the sample's own step (assumption 27), and the TX_DONE wait's
last sample leaves MODE_SHADOW at TX, which becomes STANDBY with the step that follows (assumption 9; 00_scope.md section 5). -/
def Obligations.WaitHighSample : Prop :=
  ∀ (s : State) (i : Instr) (n c : Nat) (again : Bool) (L : WaitLine) (l : Levels) (rest : List Levels),
    s.seq = .run (.line n again) → (program i s.params)[n]? = some (.wait L) → s.lineIn = l :: rest →
    (if again then s.work.waitCnt else some 0) = some c →
    exec i s = .next
      (if l.of L = true then
        { s with
          lineIn := rest, history := s.history ++ [.sample L true], seq := .run (.line (n + 1) false)
          work := { s.work with waitCnt := some c } }
      else if s.params.waitBound = some (c + 1) then
        { s with
          err := .waitTimeout, mode := .unknown, busy := false, seq := .idle, work := .noValue, lineIn := rest
          history := s.history ++ [.sample L false, .done (statusWord false s.initDone s.ovr .waitTimeout)] }
      else
        { s with
          lineIn := rest, history := s.history ++ [.sample L false], seq := .run (.line n true)
          work := { s.work with waitCnt := some (c + 1) } })

/-- One sample of WaitRx() (R103), with T_WAITCNT = c (0 at the first sample): RX_DONE ends the wait with DONE, a tie included,
RX_TIMEOUT alone with TIMEOUT, and T_WAITCNT stays at c; with both low the sample is counted as in WaitHigh. Nothing else changes.
Two readings of the model stand in this: the abort happens in the sample's own step (assumption 27), and the last sample leaves
MODE_SHADOW at RX_SINGLE, which becomes STANDBY with the step that follows (assumption 9; 00_scope.md section 5). -/
def Obligations.WaitRxSample : Prop :=
  ∀ (s : State) (n c : Nat) (again : Bool) (l : Levels) (rest : List Levels),
    s.seq = .run (.line n again) → (program .receive s.params)[n]? = some .waitRx → s.lineIn = l :: rest →
    (if again then s.work.waitCnt else some 0) = some c →
    exec .receive s = .next
      (if l.rxDone = true then
        { s with
          lineIn := rest, history := s.history ++ [.sampleRx true l.rxTimeout], seq := .run (.line (n + 1) false)
          work := { s.work with waitCnt := some c, which := some .done } }
      else if l.rxTimeout = true then
        { s with
          lineIn := rest, history := s.history ++ [.sampleRx false true], seq := .run (.line (n + 1) false)
          work := { s.work with waitCnt := some c, which := some .timeout } }
      else if s.params.waitBound = some (c + 1) then
        { s with
          err := .waitTimeout, mode := .unknown, busy := false, seq := .idle, work := .noValue, lineIn := rest
          history := s.history ++ [.sampleRx false false, .done (statusWord false s.initDone s.ovr .waitTimeout)] }
      else
        { s with
          lineIn := rest, history := s.history ++ [.sampleRx false false], seq := .run (.line n true)
          work := { s.work with waitCnt := some (c + 1) } })

/-- With a natural bound N a wait ends with WAIT_TIMEOUT after exactly N low samples (R102, R103, R144, R146), WaitHigh in any command
and WaitRx in RECEIVE: N samples are recorded, then `Done`; MODE_SHADOW is UNKNOWN, and OUTCOME, RX_LEN, INIT_DONE, the host buffer
and the port are what they were. That the abort is no step beside the last sample's is assumption 27. -/
def Obligations.BoundedWaitGivesUp : Prop :=
  (∀ (s : State) (i : Instr) (n N : Nat) (L : WaitLine) (lows rest : List Levels),
    s.seq = .run (.line n false) → (program i s.params)[n]? = some (.wait L) → s.params.waitBound = some N → 1 ≤ N →
    lows.length = N → (∀ l ∈ lows, l.of L = false) → s.lineIn = lows ++ rest →
    ∃ t, execSteps i N s = .next t ∧ GaveUp (.sample L false) N rest s t) ∧
  (∀ (s : State) (n N : Nat) (lows rest : List Levels),
    s.seq = .run (.line n false) → (program .receive s.params)[n]? = some .waitRx → s.params.waitBound = some N → 1 ≤ N →
    lows.length = N → (∀ l ∈ lows, BothLow l) → s.lineIn = lows ++ rest →
    ∃ t, execSteps .receive N s = .next t ∧ GaveUp (.sampleRx false false) N rest s t)

/-- With P_WAIT_BOUND = UNBOUNDED a line that stays low keeps the command running, however long (R149), and so do RX_DONE and
RX_TIMEOUT both staying low (R103): after any number of low samples the wait stands at the same line, BUSY is what it was, and
nothing but samples has been recorded. -/
def Obligations.UnboundedWaitHolds : Prop :=
  (∀ (s : State) (i : Instr) (n : Nat) (L : WaitLine) (lows rest : List Levels),
    s.seq = .run (.line n false) → (program i s.params)[n]? = some (.wait L) → s.params.waitBound = none →
    lows ≠ [] → (∀ l ∈ lows, l.of L = false) → s.lineIn = lows ++ rest →
    execSteps i lows.length s = .next
      { s with
        seq := .run (.line n true), lineIn := rest
        work := { s.work with waitCnt := some lows.length }
        history := s.history ++ List.replicate lows.length (.sample L false) }) ∧
  (∀ (s : State) (n : Nat) (lows rest : List Levels),
    s.seq = .run (.line n false) → (program .receive s.params)[n]? = some .waitRx → s.params.waitBound = none →
    lows ≠ [] → (∀ l ∈ lows, BothLow l) → s.lineIn = lows ++ rest →
    execSteps .receive lows.length s = .next
      { s with
        seq := .run (.line n true), lineIn := rest
        work := { s.work with waitCnt := some lows.length }
        history := s.history ++ List.replicate lows.length (.sampleRx false false) })

/-! ### Invariants -/

/-- The machine meets its invariant right after reset. -/
def Obligations.ResetMeetsInvariant : Prop := StateInv State.reset

/-- Every step keeps the invariant: BUSY = 1 exactly while SEQ_STATE = RUN (R23), NSS high between steps (R25), the buffer
canonical, MODE_SHADOW UNKNOWN or STANDBY between commands (R104), ERR NONE while a command runs (R16), INIT_DONE = 1 under
every running command but INIT (R131), OUTCOME NO_MESSAGE all through RECEIVE (R17), SEQ_PC a position of the running command's
pseudocode whose working registers are written (R24), and no packet byte held but between the two steps of its pair (R32). -/
def Obligations.StepKeepsInvariant : Prop := ∀ s t : State, StateInv s → step s = .next t → StateInv t

/-- No step from a state that meets the invariant stops the machine, whatever the host, the radio and the lines do. -/
def Obligations.StepNeverStops : Prop := ∀ s : State, StateInv s → ∃ t, step s = .next t

/-- The NRC makes no transaction outside R28's map and its access column, and never touches HB index 255 (R41, R57): of every event
a step adds, this holds. -/
def Obligations.OnlyMappedAccesses : Prop :=
  ∀ s t : State, StateInv s → step s = .next t → ∀ e ∈ t.history, e ∈ s.history ∨ e.permitted = true

/-- Every buffer access is inside the packet (R41): an `HbRd` or `HbWr` that a step adds has an index below T_LEN, and is made by
SEND or by GET_PACKET respectively. What an `HbRd` carries is the byte of HB, or a free value where the host stored into that byte
while the command ran (R55; the form of the draw is assumption 7). -/
def Obligations.BufferAccessesInsidePacket : Prop :=
  ∀ s t : State, StateInv s → step s = .next t →
    (∀ i b, t.history = s.history ++ [.hbRd i b] →
      (∃ k, decodeHcmd s.seqCmd = .ok (.send k) ∧ i.toNat < k.toNat) ∧
      (i ∉ s.raced → b = s.hb.read i.toNat ∧ t.draws = s.draws) ∧
      (i ∈ s.raced → b = Config.racedByte s.draws ∧ t.draws = s.draws + 1)) ∧
    (∀ i b, t.history = s.history ++ [.hbWr i b] →
      decodeHcmd s.seqCmd = .ok .getPacket ∧ (∃ n, s.work.len = some n ∧ i.toNat < n.toNat) ∧ t.hb.read i.toNat = b)

/-- The history only grows, by at most two events a step, until a reset empties it (R56, R160). -/
def Obligations.HistoryOnlyGrows : Prop :=
  ∀ s t : State, step s = .next t →
    (∃ es, t.history = s.history ++ es ∧ es.length ≤ 2) ∨ (nextTurn s = .host .reset ∧ t.history = [])

/-- While BUSY = 0 the NRC makes no SPI transaction, no line sample and no host-buffer access (R13), and while IDLE the sequencer's
turn changes nothing at all (R72: no step until the host's next accepted command), but that a queued `turn` is taken (the queue is
the model's own: assumption 1). -/
def Obligations.NoActivityWhileIdle : Prop :=
  (∀ s t : State, StateInv s → s.busy = false → step s = .next t → ∀ e ∈ t.history, e ∈ s.history ∨ e.active = false) ∧
  (∀ s : State, s.lone = none → s.seq = .idle → s.hostIn = [] → step s = .next s) ∧
  (∀ (s : State) (rest : List HostAction),
    s.lone = none → s.seq = .idle → s.hostIn = .turn :: rest → step s = .next { s with hostIn := rest })

/-- BUSY returns to 0 only with `Done` carrying the STATUS the host then reads (R51, R72), or by reset (R161). -/
def Obligations.BusyFallsOnlyWithDone : Prop :=
  ∀ s t : State, StateInv s → s.busy = true → step s = .next t → t.busy = false →
    (∃ es, t.history = s.history ++ es ++ [.done (windowRead t 1)]) ∨ nextTurn s = .host .reset

/-- MODE_SHADOW is written only in the cases of R20: by a mode write in the step of its WR to 0x01; to STANDBY after the TX_DONE wait
of SEND and after the receive wait of RECEIVE (with the step that follows: assumption 9); to UNKNOWN by WAIT_TIMEOUT and by
reset. -/
def Obligations.ModeShadowWrites : Prop :=
  ∀ s t : State, StateInv s → step s = .next t →
    t.mode = s.mode ∨
    (∃ m, t.mode = .requested m ∧ t.history = s.history ++ [.wr 0x01 (modeValue s.params m)]) ∨
    (t.mode = .requested .standby ∧ s.mode = .requested .tx ∧ (∃ n, decodeHcmd s.seqCmd = .ok (.send n)) ∧
      t.busy = false) ∨
    (t.mode = .requested .standby ∧ s.mode = .requested .rxSingle ∧ decodeHcmd s.seqCmd = .ok .receive ∧
      ∃ v, t.history = s.history ++ [.rd 0x12 v]) ∨
    (t.mode = .unknown ∧ t.err = .waitTimeout ∧ s.busy = true ∧ t.busy = false) ∨
    (t.mode = .unknown ∧ nextTurn s = .host .reset)

/-- INIT_DONE is written only as INIT passes its decode checks (0), as INIT completes (1), and by reset (R14, R131). -/
def Obligations.InitDoneWrites : Prop :=
  ∀ s t : State, StateInv s → step s = .next t →
    t.initDone = s.initDone ∨
    (t.initDone = false ∧ decodeHcmd s.seqCmd = .ok .init ∧ s.seq = .run .check) ∨
    (t.initDone = true ∧ decodeHcmd s.seqCmd = .ok .init ∧ s.busy = true ∧ t.busy = false ∧ t.err = .none) ∨
    (t.initDone = false ∧ nextTurn s = .host .reset)

/-- OUTCOME is written only by RECEIVE, to NO_MESSAGE as it passes its decode checks and to TIMEOUT, CRC_OK or WRONG_MESSAGE as it
completes, and by reset; an aborted RECEIVE leaves NO_MESSAGE (R17). -/
def Obligations.OutcomeWrites : Prop :=
  ∀ s t : State, StateInv s → step s = .next t →
    (t.outcome = s.outcome ∨
     (t.outcome = .noMessage ∧ decodeHcmd s.seqCmd = .ok .receive ∧ s.seq = .run .check) ∨
     (t.outcome ≠ .noMessage ∧ decodeHcmd s.seqCmd = .ok .receive ∧ s.busy = true ∧ t.busy = false ∧ t.err = .none) ∨
     (t.outcome = .noMessage ∧ nextTurn s = .host .reset)) ∧
    (decodeHcmd s.seqCmd = .ok .receive → s.busy = true → t.busy = false → t.err = .waitTimeout →
      t.outcome = .noMessage)

/-- RX_LEN is written only as GET_PACKET completes, and by reset (R18). -/
def Obligations.RxLenWrites : Prop :=
  ∀ s t : State, StateInv s → step s = .next t →
    t.rxLen = s.rxLen ∨
    (s.work.len = some t.rxLen ∧ decodeHcmd s.seqCmd = .ok .getPacket ∧ s.busy = true ∧ t.busy = false) ∨
    (t.rxLen = 0x00 ∧ nextTurn s = .host .reset)

/-- OVR is set only by a host write to CMD while BUSY = 1 and cleared only by acceptance or reset (R15). -/
def Obligations.OverrunWrites : Prop :=
  ∀ s t : State, step s = .next t →
    t.ovr = s.ovr ∨
    (t.ovr = true ∧ s.busy = true ∧ ∃ w, nextTurn s = .host (.write 0 w)) ∨
    (t.ovr = false ∧ s.busy = false ∧ ∃ w, nextTurn s = .host (.write 0 w)) ∨
    (t.ovr = false ∧ nextTurn s = .host .reset)

/-- ERR is cleared only by acceptance or reset and written only in the step that ends a command with that error (R16). -/
def Obligations.ErrorWrites : Prop :=
  ∀ s t : State, StateInv s → step s = .next t →
    t.err = s.err ∨
    (t.err = .none ∧ s.busy = false ∧ ∃ w, nextTurn s = .host (.write 0 w)) ∨
    (t.err ≠ .none ∧ s.busy = true ∧ t.busy = false ∧ ∃ es, t.history = s.history ++ es ++ [.done (windowRead t 1)]) ∨
    (t.err = .none ∧ nextTurn s = .host .reset)

/-- No command, reset or host access changes P (R4). -/
def Obligations.ParametersNeverChange : Prop := ∀ s t : State, step s = .next t → t.params = s.params

/-- After a mode write to Standby, Transmit or Receive-Single the next line is the MODE_READY wait; after Sleep and LoRa-Sleep it is the
next mode write of INIT (R105, R166). -/
def Obligations.ModeReadyFollowsModeWrites : Prop :=
  ∀ (s t : State) (m : RadioMode), StateInv s → step s = .next t →
    t.history = s.history ++ [.wr 0x01 (modeValue s.params m)] → t.mode = .requested m →
    ∃ i n, decodeHcmd t.seqCmd = .ok i ∧ t.seq = .run (.line n false) ∧
      (((m = .standby ∨ m = .tx ∨ m = .rxSingle) ∧ (program i t.params)[n]? = some (.wait .modeReady)) ∨
       (m = .sleep ∧ (program i t.params)[n]? = some (.mode .loraSleep)) ∨
       (m = .loraSleep ∧ (program i t.params)[n]? = some (.mode .standby)))

/-- The LoRa mode is selected only out of Sleep (R164): a step that makes MODE_SHADOW LORA_SLEEP starts from SLEEP, in INIT. -/
def Obligations.LoraModeOnlyFromSleep : Prop :=
  ∀ s t : State, StateInv s → step s = .next t → t.mode = .requested .loraSleep → s.mode ≠ .requested .loraSleep →
    s.mode = .requested .sleep ∧ decodeHcmd s.seqCmd = .ok .init

/-- Configuration and FIFO writes are made only in Standby (R165): every WR to a register other than 0x01 starts from
MODE_SHADOW = STANDBY. -/
def Obligations.ConfigurationOnlyInStandby : Prop :=
  ∀ (s t : State) (a : RegAddr) (v : Byte), StateInv s → step s = .next t →
    t.history = s.history ++ [.wr a v] → a ≠ 0x01 → s.mode = .requested .standby

/-! ### Frames -/

/-- INIT's frame: whatever its position, a step of INIT leaves OUTCOME, RX_LEN, the accepted word, OVR, P, the host's side, the radio's
queued answers and every byte of HB unchanged. -/
def Obligations.InitFrame : Prop :=
  ∀ s t : State, exec .init s = .next t →
    t.outcome = s.outcome ∧ t.rxLen = s.rxLen ∧ t.misoIn = s.misoIn ∧ SameSurroundings s t ∧
      ∀ a, t.hb.read a = s.hb.read a

/-- SEND's frame: a step of SEND leaves OUTCOME, RX_LEN, INIT_DONE, the accepted word, OVR, P, the host's side and every byte of HB
unchanged. -/
def Obligations.SendFrame : Prop :=
  ∀ (n : Byte) (s t : State), exec (.send n) s = .next t →
    t.outcome = s.outcome ∧ t.rxLen = s.rxLen ∧ t.initDone = s.initDone ∧ SameSurroundings s t ∧
      ∀ a, t.hb.read a = s.hb.read a

/-- RECEIVE's frame: a step of RECEIVE leaves RX_LEN, INIT_DONE, the accepted word, OVR, P, the host's side and every byte of HB
unchanged. -/
def Obligations.ReceiveFrame : Prop :=
  ∀ s t : State, exec .receive s = .next t →
    t.rxLen = s.rxLen ∧ t.initDone = s.initDone ∧ SameSurroundings s t ∧ ∀ a, t.hb.read a = s.hb.read a

/-- GET_PACKET's frame: a step leaves OUTCOME, INIT_DONE, the accepted word, OVR, P and the host's side unchanged, and every byte of HB
but the one at the index `bufferIndex` gives where the step is the MemWrite of R122. -/
def Obligations.GetPacketFrame : Prop :=
  ∀ s t : State, exec .getPacket s = .next t →
    t.outcome = s.outcome ∧ t.initDone = s.initDone ∧ SameSurroundings s t ∧
      (∀ i, s.seq = .run (.line 6 false) ∨ s.seq = .run (.line 6 true) → bufferIndex s.work = some i →
        ∀ a, a ≠ i.toNat → t.hb.read a = s.hb.read a) ∧
      (s.seq ≠ .run (.line 6 false) → s.seq ≠ .run (.line 6 true) → ∀ a, t.hb.read a = s.hb.read a)

/-- The frame of CHANGE_CHANNEL and CHANGE_DATARATE: a step leaves OUTCOME, RX_LEN, INIT_DONE, the accepted word, OVR, P, the host's
side, the radio's queued answers and every byte of HB unchanged. -/
def Obligations.ChangeFrame : Prop :=
  ∀ (k : Byte) (s t : State), exec (.changeChannel k) s = .next t ∨ exec (.changeDatarate k) s = .next t →
    t.outcome = s.outcome ∧ t.rxLen = s.rxLen ∧ t.initDone = s.initDone ∧ t.misoIn = s.misoIn ∧ SameSurroundings s t ∧
      ∀ a, t.hb.read a = s.hb.read a
end

