-- ==== Sys2Proof/Laws/State.lean ====
section
/-! SUPPORT. One lemma per field per update of the state, each true by `rfl`, so that no later proof unfolds a record update. -/

namespace Sys2Proof.Machine

variable (s : State)

/-! ### State.record -/

@[simp] theorem record_cmd (e : Event) : (s.record e).cmd = s.cmd := rfl
@[simp] theorem record_busy (e : Event) : (s.record e).busy = s.busy := rfl
@[simp] theorem record_initDone (e : Event) : (s.record e).initDone = s.initDone := rfl
@[simp] theorem record_ovr (e : Event) : (s.record e).ovr = s.ovr := rfl
@[simp] theorem record_err (e : Event) : (s.record e).err = s.err := rfl
@[simp] theorem record_outcome (e : Event) : (s.record e).outcome = s.outcome := rfl
@[simp] theorem record_rxLen (e : Event) : (s.record e).rxLen = s.rxLen := rfl
@[simp] theorem record_mode (e : Event) : (s.record e).mode = s.mode := rfl
@[simp] theorem record_seq (e : Event) : (s.record e).seq = s.seq := rfl
@[simp] theorem record_seqCmd (e : Event) : (s.record e).seqCmd = s.seqCmd := rfl
@[simp] theorem record_work (e : Event) : (s.record e).work = s.work := rfl
@[simp] theorem record_port (e : Event) : (s.record e).port = s.port := rfl
@[simp] theorem record_hb (e : Event) : (s.record e).hb = s.hb := rfl
@[simp] theorem record_raced (e : Event) : (s.record e).raced = s.raced := rfl
@[simp] theorem record_history (e : Event) : (s.record e).history = s.history ++ [e] := rfl
@[simp] theorem record_params (e : Event) : (s.record e).params = s.params := rfl
@[simp] theorem record_misoIn (e : Event) : (s.record e).misoIn = s.misoIn := rfl
@[simp] theorem record_lineIn (e : Event) : (s.record e).lineIn = s.lineIn := rfl
@[simp] theorem record_hostIn (e : Event) : (s.record e).hostIn = s.hostIn := rfl
@[simp] theorem record_hostSeen (e : Event) : (s.record e).hostSeen = s.hostSeen := rfl
@[simp] theorem record_draws (e : Event) : (s.record e).draws = s.draws := rfl
@[simp] theorem record_lone (e : Event) : (s.record e).lone = s.lone := rfl

/-! ### State.setMode -/

@[simp] theorem setMode_cmd (m : ModeShadow) : (s.setMode m).cmd = s.cmd := rfl
@[simp] theorem setMode_busy (m : ModeShadow) : (s.setMode m).busy = s.busy := rfl
@[simp] theorem setMode_initDone (m : ModeShadow) : (s.setMode m).initDone = s.initDone := rfl
@[simp] theorem setMode_ovr (m : ModeShadow) : (s.setMode m).ovr = s.ovr := rfl
@[simp] theorem setMode_err (m : ModeShadow) : (s.setMode m).err = s.err := rfl
@[simp] theorem setMode_outcome (m : ModeShadow) : (s.setMode m).outcome = s.outcome := rfl
@[simp] theorem setMode_rxLen (m : ModeShadow) : (s.setMode m).rxLen = s.rxLen := rfl
@[simp] theorem setMode_mode (m : ModeShadow) : (s.setMode m).mode = m := rfl
@[simp] theorem setMode_seq (m : ModeShadow) : (s.setMode m).seq = s.seq := rfl
@[simp] theorem setMode_seqCmd (m : ModeShadow) : (s.setMode m).seqCmd = s.seqCmd := rfl
@[simp] theorem setMode_work (m : ModeShadow) : (s.setMode m).work = s.work := rfl
@[simp] theorem setMode_port (m : ModeShadow) : (s.setMode m).port = s.port := rfl
@[simp] theorem setMode_hb (m : ModeShadow) : (s.setMode m).hb = s.hb := rfl
@[simp] theorem setMode_raced (m : ModeShadow) : (s.setMode m).raced = s.raced := rfl
@[simp] theorem setMode_history (m : ModeShadow) : (s.setMode m).history = s.history := rfl
@[simp] theorem setMode_params (m : ModeShadow) : (s.setMode m).params = s.params := rfl
@[simp] theorem setMode_misoIn (m : ModeShadow) : (s.setMode m).misoIn = s.misoIn := rfl
@[simp] theorem setMode_lineIn (m : ModeShadow) : (s.setMode m).lineIn = s.lineIn := rfl
@[simp] theorem setMode_hostIn (m : ModeShadow) : (s.setMode m).hostIn = s.hostIn := rfl
@[simp] theorem setMode_hostSeen (m : ModeShadow) : (s.setMode m).hostSeen = s.hostSeen := rfl
@[simp] theorem setMode_draws (m : ModeShadow) : (s.setMode m).draws = s.draws := rfl
@[simp] theorem setMode_lone (m : ModeShadow) : (s.setMode m).lone = s.lone := rfl

/-! ### State.takeAnswer -/

@[simp] theorem takeAnswer_cmd : (s.takeAnswer).cmd = s.cmd := rfl
@[simp] theorem takeAnswer_busy : (s.takeAnswer).busy = s.busy := rfl
@[simp] theorem takeAnswer_initDone : (s.takeAnswer).initDone = s.initDone := rfl
@[simp] theorem takeAnswer_ovr : (s.takeAnswer).ovr = s.ovr := rfl
@[simp] theorem takeAnswer_err : (s.takeAnswer).err = s.err := rfl
@[simp] theorem takeAnswer_outcome : (s.takeAnswer).outcome = s.outcome := rfl
@[simp] theorem takeAnswer_rxLen : (s.takeAnswer).rxLen = s.rxLen := rfl
@[simp] theorem takeAnswer_mode : (s.takeAnswer).mode = s.mode := rfl
@[simp] theorem takeAnswer_seq : (s.takeAnswer).seq = s.seq := rfl
@[simp] theorem takeAnswer_seqCmd : (s.takeAnswer).seqCmd = s.seqCmd := rfl
@[simp] theorem takeAnswer_work : (s.takeAnswer).work = s.work := rfl
@[simp] theorem takeAnswer_port : (s.takeAnswer).port = s.port := rfl
@[simp] theorem takeAnswer_hb : (s.takeAnswer).hb = s.hb := rfl
@[simp] theorem takeAnswer_raced : (s.takeAnswer).raced = s.raced := rfl
@[simp] theorem takeAnswer_history : (s.takeAnswer).history = s.history := rfl
@[simp] theorem takeAnswer_params : (s.takeAnswer).params = s.params := rfl
@[simp] theorem takeAnswer_misoIn : (s.takeAnswer).misoIn = s.misoIn.tail := rfl
@[simp] theorem takeAnswer_lineIn : (s.takeAnswer).lineIn = s.lineIn := rfl
@[simp] theorem takeAnswer_hostIn : (s.takeAnswer).hostIn = s.hostIn := rfl
@[simp] theorem takeAnswer_hostSeen : (s.takeAnswer).hostSeen = s.hostSeen := rfl
@[simp] theorem takeAnswer_draws : (s.takeAnswer).draws = if s.misoIn.isEmpty then s.draws + 1 else s.draws := rfl
@[simp] theorem takeAnswer_lone : (s.takeAnswer).lone = s.lone := rfl

/-! ### State.takeLevels -/

@[simp] theorem takeLevels_cmd : (s.takeLevels).cmd = s.cmd := rfl
@[simp] theorem takeLevels_busy : (s.takeLevels).busy = s.busy := rfl
@[simp] theorem takeLevels_initDone : (s.takeLevels).initDone = s.initDone := rfl
@[simp] theorem takeLevels_ovr : (s.takeLevels).ovr = s.ovr := rfl
@[simp] theorem takeLevels_err : (s.takeLevels).err = s.err := rfl
@[simp] theorem takeLevels_outcome : (s.takeLevels).outcome = s.outcome := rfl
@[simp] theorem takeLevels_rxLen : (s.takeLevels).rxLen = s.rxLen := rfl
@[simp] theorem takeLevels_mode : (s.takeLevels).mode = s.mode := rfl
@[simp] theorem takeLevels_seq : (s.takeLevels).seq = s.seq := rfl
@[simp] theorem takeLevels_seqCmd : (s.takeLevels).seqCmd = s.seqCmd := rfl
@[simp] theorem takeLevels_work : (s.takeLevels).work = s.work := rfl
@[simp] theorem takeLevels_port : (s.takeLevels).port = s.port := rfl
@[simp] theorem takeLevels_hb : (s.takeLevels).hb = s.hb := rfl
@[simp] theorem takeLevels_raced : (s.takeLevels).raced = s.raced := rfl
@[simp] theorem takeLevels_history : (s.takeLevels).history = s.history := rfl
@[simp] theorem takeLevels_params : (s.takeLevels).params = s.params := rfl
@[simp] theorem takeLevels_misoIn : (s.takeLevels).misoIn = s.misoIn := rfl
@[simp] theorem takeLevels_lineIn : (s.takeLevels).lineIn = s.lineIn.tail := rfl
@[simp] theorem takeLevels_hostIn : (s.takeLevels).hostIn = s.hostIn := rfl
@[simp] theorem takeLevels_hostSeen : (s.takeLevels).hostSeen = s.hostSeen := rfl
@[simp] theorem takeLevels_draws : (s.takeLevels).draws = if s.lineIn.isEmpty then s.draws + 1 else s.draws := rfl
@[simp] theorem takeLevels_lone : (s.takeLevels).lone = s.lone := rfl

/-! ### State.takeByte -/

@[simp] theorem takeByte_cmd (i : Byte) : (s.takeByte i).cmd = s.cmd := rfl
@[simp] theorem takeByte_busy (i : Byte) : (s.takeByte i).busy = s.busy := rfl
@[simp] theorem takeByte_initDone (i : Byte) : (s.takeByte i).initDone = s.initDone := rfl
@[simp] theorem takeByte_ovr (i : Byte) : (s.takeByte i).ovr = s.ovr := rfl
@[simp] theorem takeByte_err (i : Byte) : (s.takeByte i).err = s.err := rfl
@[simp] theorem takeByte_outcome (i : Byte) : (s.takeByte i).outcome = s.outcome := rfl
@[simp] theorem takeByte_rxLen (i : Byte) : (s.takeByte i).rxLen = s.rxLen := rfl
@[simp] theorem takeByte_mode (i : Byte) : (s.takeByte i).mode = s.mode := rfl
@[simp] theorem takeByte_seq (i : Byte) : (s.takeByte i).seq = s.seq := rfl
@[simp] theorem takeByte_seqCmd (i : Byte) : (s.takeByte i).seqCmd = s.seqCmd := rfl
@[simp] theorem takeByte_work (i : Byte) : (s.takeByte i).work = s.work := rfl
@[simp] theorem takeByte_port (i : Byte) : (s.takeByte i).port = s.port := rfl
@[simp] theorem takeByte_hb (i : Byte) : (s.takeByte i).hb = s.hb := rfl
@[simp] theorem takeByte_raced (i : Byte) : (s.takeByte i).raced = s.raced := rfl
@[simp] theorem takeByte_history (i : Byte) : (s.takeByte i).history = s.history := rfl
@[simp] theorem takeByte_params (i : Byte) : (s.takeByte i).params = s.params := rfl
@[simp] theorem takeByte_misoIn (i : Byte) : (s.takeByte i).misoIn = s.misoIn := rfl
@[simp] theorem takeByte_lineIn (i : Byte) : (s.takeByte i).lineIn = s.lineIn := rfl
@[simp] theorem takeByte_hostIn (i : Byte) : (s.takeByte i).hostIn = s.hostIn := rfl
@[simp] theorem takeByte_hostSeen (i : Byte) : (s.takeByte i).hostSeen = s.hostSeen := rfl
@[simp] theorem takeByte_draws (i : Byte) : (s.takeByte i).draws = if s.raced.contains i then s.draws + 1 else s.draws := rfl
@[simp] theorem takeByte_lone (i : Byte) : (s.takeByte i).lone = s.lone := rfl

/-! ### spiWrite -/

@[simp] theorem spiWrite_cmd (a : RegAddr) (v : Byte) : (spiWrite a v s).cmd = s.cmd := rfl
@[simp] theorem spiWrite_busy (a : RegAddr) (v : Byte) : (spiWrite a v s).busy = s.busy := rfl
@[simp] theorem spiWrite_initDone (a : RegAddr) (v : Byte) : (spiWrite a v s).initDone = s.initDone := rfl
@[simp] theorem spiWrite_ovr (a : RegAddr) (v : Byte) : (spiWrite a v s).ovr = s.ovr := rfl
@[simp] theorem spiWrite_err (a : RegAddr) (v : Byte) : (spiWrite a v s).err = s.err := rfl
@[simp] theorem spiWrite_outcome (a : RegAddr) (v : Byte) : (spiWrite a v s).outcome = s.outcome := rfl
@[simp] theorem spiWrite_rxLen (a : RegAddr) (v : Byte) : (spiWrite a v s).rxLen = s.rxLen := rfl
@[simp] theorem spiWrite_mode (a : RegAddr) (v : Byte) : (spiWrite a v s).mode = s.mode := rfl
@[simp] theorem spiWrite_seq (a : RegAddr) (v : Byte) : (spiWrite a v s).seq = s.seq := rfl
@[simp] theorem spiWrite_seqCmd (a : RegAddr) (v : Byte) : (spiWrite a v s).seqCmd = s.seqCmd := rfl
@[simp] theorem spiWrite_work (a : RegAddr) (v : Byte) : (spiWrite a v s).work = s.work := rfl
@[simp] theorem spiWrite_port (a : RegAddr) (v : Byte) : (spiWrite a v s).port = s.port.transfer s.params.spiFormat (wrFirstByte a) v := rfl
@[simp] theorem spiWrite_hb (a : RegAddr) (v : Byte) : (spiWrite a v s).hb = s.hb := rfl
@[simp] theorem spiWrite_raced (a : RegAddr) (v : Byte) : (spiWrite a v s).raced = s.raced := rfl
@[simp] theorem spiWrite_history (a : RegAddr) (v : Byte) : (spiWrite a v s).history = s.history ++ [.wr a v] := rfl
@[simp] theorem spiWrite_params (a : RegAddr) (v : Byte) : (spiWrite a v s).params = s.params := rfl
@[simp] theorem spiWrite_misoIn (a : RegAddr) (v : Byte) : (spiWrite a v s).misoIn = s.misoIn := rfl
@[simp] theorem spiWrite_lineIn (a : RegAddr) (v : Byte) : (spiWrite a v s).lineIn = s.lineIn := rfl
@[simp] theorem spiWrite_hostIn (a : RegAddr) (v : Byte) : (spiWrite a v s).hostIn = s.hostIn := rfl
@[simp] theorem spiWrite_hostSeen (a : RegAddr) (v : Byte) : (spiWrite a v s).hostSeen = s.hostSeen := rfl
@[simp] theorem spiWrite_draws (a : RegAddr) (v : Byte) : (spiWrite a v s).draws = s.draws := rfl
@[simp] theorem spiWrite_lone (a : RegAddr) (v : Byte) : (spiWrite a v s).lone = s.lone := rfl

/-! ### spiRead -/

@[simp] theorem spiRead_cmd (a : RegAddr) : (spiRead a s).cmd = s.cmd := rfl
@[simp] theorem spiRead_busy (a : RegAddr) : (spiRead a s).busy = s.busy := rfl
@[simp] theorem spiRead_initDone (a : RegAddr) : (spiRead a s).initDone = s.initDone := rfl
@[simp] theorem spiRead_ovr (a : RegAddr) : (spiRead a s).ovr = s.ovr := rfl
@[simp] theorem spiRead_err (a : RegAddr) : (spiRead a s).err = s.err := rfl
@[simp] theorem spiRead_outcome (a : RegAddr) : (spiRead a s).outcome = s.outcome := rfl
@[simp] theorem spiRead_rxLen (a : RegAddr) : (spiRead a s).rxLen = s.rxLen := rfl
@[simp] theorem spiRead_mode (a : RegAddr) : (spiRead a s).mode = s.mode := rfl
@[simp] theorem spiRead_seq (a : RegAddr) : (spiRead a s).seq = s.seq := rfl
@[simp] theorem spiRead_seqCmd (a : RegAddr) : (spiRead a s).seqCmd = s.seqCmd := rfl
@[simp] theorem spiRead_work (a : RegAddr) : (spiRead a s).work = s.work := rfl
@[simp] theorem spiRead_port (a : RegAddr) : (spiRead a s).port = s.port.transfer s.params.spiFormat (rdFirstByte a) dummyByte := rfl
@[simp] theorem spiRead_hb (a : RegAddr) : (spiRead a s).hb = s.hb := rfl
@[simp] theorem spiRead_raced (a : RegAddr) : (spiRead a s).raced = s.raced := rfl
@[simp] theorem spiRead_history (a : RegAddr) : (spiRead a s).history = s.history ++ [.rd a (radioAnswer s)] := rfl
@[simp] theorem spiRead_params (a : RegAddr) : (spiRead a s).params = s.params := rfl
@[simp] theorem spiRead_misoIn (a : RegAddr) : (spiRead a s).misoIn = s.misoIn.tail := rfl
@[simp] theorem spiRead_lineIn (a : RegAddr) : (spiRead a s).lineIn = s.lineIn := rfl
@[simp] theorem spiRead_hostIn (a : RegAddr) : (spiRead a s).hostIn = s.hostIn := rfl
@[simp] theorem spiRead_hostSeen (a : RegAddr) : (spiRead a s).hostSeen = s.hostSeen := rfl
@[simp] theorem spiRead_draws (a : RegAddr) : (spiRead a s).draws = if s.misoIn.isEmpty then s.draws + 1 else s.draws := rfl
@[simp] theorem spiRead_lone (a : RegAddr) : (spiRead a s).lone = s.lone := rfl

/-! ### requestMode -/

@[simp] theorem requestMode_cmd (m : RadioMode) : (requestMode m s).cmd = s.cmd := rfl
@[simp] theorem requestMode_busy (m : RadioMode) : (requestMode m s).busy = s.busy := rfl
@[simp] theorem requestMode_initDone (m : RadioMode) : (requestMode m s).initDone = s.initDone := rfl
@[simp] theorem requestMode_ovr (m : RadioMode) : (requestMode m s).ovr = s.ovr := rfl
@[simp] theorem requestMode_err (m : RadioMode) : (requestMode m s).err = s.err := rfl
@[simp] theorem requestMode_outcome (m : RadioMode) : (requestMode m s).outcome = s.outcome := rfl
@[simp] theorem requestMode_rxLen (m : RadioMode) : (requestMode m s).rxLen = s.rxLen := rfl
@[simp] theorem requestMode_mode (m : RadioMode) : (requestMode m s).mode = .requested m := rfl
@[simp] theorem requestMode_seq (m : RadioMode) : (requestMode m s).seq = s.seq := rfl
@[simp] theorem requestMode_seqCmd (m : RadioMode) : (requestMode m s).seqCmd = s.seqCmd := rfl
@[simp] theorem requestMode_work (m : RadioMode) : (requestMode m s).work = s.work := rfl
@[simp] theorem requestMode_port (m : RadioMode) : (requestMode m s).port = s.port.transfer s.params.spiFormat (wrFirstByte 0x01) (modeValue s.params m) := rfl
@[simp] theorem requestMode_hb (m : RadioMode) : (requestMode m s).hb = s.hb := rfl
@[simp] theorem requestMode_raced (m : RadioMode) : (requestMode m s).raced = s.raced := rfl
@[simp] theorem requestMode_history (m : RadioMode) : (requestMode m s).history = s.history ++ [.wr 0x01 (modeValue s.params m)] := rfl
@[simp] theorem requestMode_params (m : RadioMode) : (requestMode m s).params = s.params := rfl
@[simp] theorem requestMode_misoIn (m : RadioMode) : (requestMode m s).misoIn = s.misoIn := rfl
@[simp] theorem requestMode_lineIn (m : RadioMode) : (requestMode m s).lineIn = s.lineIn := rfl
@[simp] theorem requestMode_hostIn (m : RadioMode) : (requestMode m s).hostIn = s.hostIn := rfl
@[simp] theorem requestMode_hostSeen (m : RadioMode) : (requestMode m s).hostSeen = s.hostSeen := rfl
@[simp] theorem requestMode_draws (m : RadioMode) : (requestMode m s).draws = s.draws := rfl
@[simp] theorem requestMode_lone (m : RadioMode) : (requestMode m s).lone = s.lone := rfl

/-! ### State.atLine -/

@[simp] theorem atLine_cmd (n : Nat) : (s.atLine n).cmd = s.cmd := rfl
@[simp] theorem atLine_busy (n : Nat) : (s.atLine n).busy = s.busy := rfl
@[simp] theorem atLine_initDone (n : Nat) : (s.atLine n).initDone = s.initDone := rfl
@[simp] theorem atLine_ovr (n : Nat) : (s.atLine n).ovr = s.ovr := rfl
@[simp] theorem atLine_err (n : Nat) : (s.atLine n).err = s.err := rfl
@[simp] theorem atLine_outcome (n : Nat) : (s.atLine n).outcome = s.outcome := rfl
@[simp] theorem atLine_rxLen (n : Nat) : (s.atLine n).rxLen = s.rxLen := rfl
@[simp] theorem atLine_mode (n : Nat) : (s.atLine n).mode = s.mode := rfl
@[simp] theorem atLine_seq (n : Nat) : (s.atLine n).seq = .run (.line n false) := rfl
@[simp] theorem atLine_seqCmd (n : Nat) : (s.atLine n).seqCmd = s.seqCmd := rfl
@[simp] theorem atLine_work (n : Nat) : (s.atLine n).work = s.work := rfl
@[simp] theorem atLine_port (n : Nat) : (s.atLine n).port = s.port := rfl
@[simp] theorem atLine_hb (n : Nat) : (s.atLine n).hb = s.hb := rfl
@[simp] theorem atLine_raced (n : Nat) : (s.atLine n).raced = s.raced := rfl
@[simp] theorem atLine_history (n : Nat) : (s.atLine n).history = s.history := rfl
@[simp] theorem atLine_params (n : Nat) : (s.atLine n).params = s.params := rfl
@[simp] theorem atLine_misoIn (n : Nat) : (s.atLine n).misoIn = s.misoIn := rfl
@[simp] theorem atLine_lineIn (n : Nat) : (s.atLine n).lineIn = s.lineIn := rfl
@[simp] theorem atLine_hostIn (n : Nat) : (s.atLine n).hostIn = s.hostIn := rfl
@[simp] theorem atLine_hostSeen (n : Nat) : (s.atLine n).hostSeen = s.hostSeen := rfl
@[simp] theorem atLine_draws (n : Nat) : (s.atLine n).draws = s.draws := rfl
@[simp] theorem atLine_lone (n : Nat) : (s.atLine n).lone = s.lone := rfl

/-! ### accept -/

@[simp] theorem accept_cmd (w : HalfWord) : (accept w s).cmd = w := rfl
@[simp] theorem accept_busy (w : HalfWord) : (accept w s).busy = true := rfl
@[simp] theorem accept_initDone (w : HalfWord) : (accept w s).initDone = s.initDone := rfl
@[simp] theorem accept_ovr (w : HalfWord) : (accept w s).ovr = false := rfl
@[simp] theorem accept_err (w : HalfWord) : (accept w s).err = .none := rfl
@[simp] theorem accept_outcome (w : HalfWord) : (accept w s).outcome = s.outcome := rfl
@[simp] theorem accept_rxLen (w : HalfWord) : (accept w s).rxLen = s.rxLen := rfl
@[simp] theorem accept_mode (w : HalfWord) : (accept w s).mode = s.mode := rfl
@[simp] theorem accept_seq (w : HalfWord) : (accept w s).seq = .run .check := rfl
@[simp] theorem accept_seqCmd (w : HalfWord) : (accept w s).seqCmd = w := rfl
@[simp] theorem accept_work (w : HalfWord) : (accept w s).work = .noValue := rfl
@[simp] theorem accept_port (w : HalfWord) : (accept w s).port = s.port := rfl
@[simp] theorem accept_hb (w : HalfWord) : (accept w s).hb = s.hb := rfl
@[simp] theorem accept_raced (w : HalfWord) : (accept w s).raced = [] := rfl
@[simp] theorem accept_history (w : HalfWord) : (accept w s).history = s.history ++ [.accept w] := rfl
@[simp] theorem accept_params (w : HalfWord) : (accept w s).params = s.params := rfl
@[simp] theorem accept_misoIn (w : HalfWord) : (accept w s).misoIn = s.misoIn := rfl
@[simp] theorem accept_lineIn (w : HalfWord) : (accept w s).lineIn = s.lineIn := rfl
@[simp] theorem accept_hostIn (w : HalfWord) : (accept w s).hostIn = s.hostIn := rfl
@[simp] theorem accept_hostSeen (w : HalfWord) : (accept w s).hostSeen = s.hostSeen := rfl
@[simp] theorem accept_draws (w : HalfWord) : (accept w s).draws = s.draws := rfl
@[simp] theorem accept_lone (w : HalfWord) : (accept w s).lone = s.lone := rfl

/-! ### dropWord -/

@[simp] theorem dropWord_cmd (w : HalfWord) : (dropWord w s).cmd = s.cmd := rfl
@[simp] theorem dropWord_busy (w : HalfWord) : (dropWord w s).busy = s.busy := rfl
@[simp] theorem dropWord_initDone (w : HalfWord) : (dropWord w s).initDone = s.initDone := rfl
@[simp] theorem dropWord_ovr (w : HalfWord) : (dropWord w s).ovr = true := rfl
@[simp] theorem dropWord_err (w : HalfWord) : (dropWord w s).err = s.err := rfl
@[simp] theorem dropWord_outcome (w : HalfWord) : (dropWord w s).outcome = s.outcome := rfl
@[simp] theorem dropWord_rxLen (w : HalfWord) : (dropWord w s).rxLen = s.rxLen := rfl
@[simp] theorem dropWord_mode (w : HalfWord) : (dropWord w s).mode = s.mode := rfl
@[simp] theorem dropWord_seq (w : HalfWord) : (dropWord w s).seq = s.seq := rfl
@[simp] theorem dropWord_seqCmd (w : HalfWord) : (dropWord w s).seqCmd = s.seqCmd := rfl
@[simp] theorem dropWord_work (w : HalfWord) : (dropWord w s).work = s.work := rfl
@[simp] theorem dropWord_port (w : HalfWord) : (dropWord w s).port = s.port := rfl
@[simp] theorem dropWord_hb (w : HalfWord) : (dropWord w s).hb = s.hb := rfl
@[simp] theorem dropWord_raced (w : HalfWord) : (dropWord w s).raced = s.raced := rfl
@[simp] theorem dropWord_history (w : HalfWord) : (dropWord w s).history = s.history ++ [.drop w] := rfl
@[simp] theorem dropWord_params (w : HalfWord) : (dropWord w s).params = s.params := rfl
@[simp] theorem dropWord_misoIn (w : HalfWord) : (dropWord w s).misoIn = s.misoIn := rfl
@[simp] theorem dropWord_lineIn (w : HalfWord) : (dropWord w s).lineIn = s.lineIn := rfl
@[simp] theorem dropWord_hostIn (w : HalfWord) : (dropWord w s).hostIn = s.hostIn := rfl
@[simp] theorem dropWord_hostSeen (w : HalfWord) : (dropWord w s).hostSeen = s.hostSeen := rfl
@[simp] theorem dropWord_draws (w : HalfWord) : (dropWord w s).draws = s.draws := rfl
@[simp] theorem dropWord_lone (w : HalfWord) : (dropWord w s).lone = s.lone := rfl

/-! ### complete -/

@[simp] theorem complete_cmd : (complete s).cmd = s.cmd := rfl
@[simp] theorem complete_busy : (complete s).busy = false := rfl
@[simp] theorem complete_initDone : (complete s).initDone = s.initDone := rfl
@[simp] theorem complete_ovr : (complete s).ovr = s.ovr := rfl
@[simp] theorem complete_err : (complete s).err = s.err := rfl
@[simp] theorem complete_outcome : (complete s).outcome = s.outcome := rfl
@[simp] theorem complete_rxLen : (complete s).rxLen = s.rxLen := rfl
@[simp] theorem complete_mode : (complete s).mode = s.mode := rfl
@[simp] theorem complete_seq : (complete s).seq = .idle := rfl
@[simp] theorem complete_seqCmd : (complete s).seqCmd = s.seqCmd := rfl
@[simp] theorem complete_work : (complete s).work = .noValue := rfl
@[simp] theorem complete_port : (complete s).port = s.port := rfl
@[simp] theorem complete_hb : (complete s).hb = s.hb := rfl
@[simp] theorem complete_raced : (complete s).raced = s.raced := rfl
@[simp] theorem complete_history : (complete s).history = s.history ++ [.done (statusWord false s.initDone s.ovr s.err)] := rfl
@[simp] theorem complete_params : (complete s).params = s.params := rfl
@[simp] theorem complete_misoIn : (complete s).misoIn = s.misoIn := rfl
@[simp] theorem complete_lineIn : (complete s).lineIn = s.lineIn := rfl
@[simp] theorem complete_hostIn : (complete s).hostIn = s.hostIn := rfl
@[simp] theorem complete_hostSeen : (complete s).hostSeen = s.hostSeen := rfl
@[simp] theorem complete_draws : (complete s).draws = s.draws := rfl
@[simp] theorem complete_lone : (complete s).lone = s.lone := rfl

/-! ### raiseError -/

@[simp] theorem raiseError_cmd (e : ErrCode) : (raiseError e s).cmd = s.cmd := rfl
@[simp] theorem raiseError_busy (e : ErrCode) : (raiseError e s).busy = false := rfl
@[simp] theorem raiseError_initDone (e : ErrCode) : (raiseError e s).initDone = s.initDone := rfl
@[simp] theorem raiseError_ovr (e : ErrCode) : (raiseError e s).ovr = s.ovr := rfl
@[simp] theorem raiseError_err (e : ErrCode) : (raiseError e s).err = e := rfl
@[simp] theorem raiseError_outcome (e : ErrCode) : (raiseError e s).outcome = s.outcome := rfl
@[simp] theorem raiseError_rxLen (e : ErrCode) : (raiseError e s).rxLen = s.rxLen := rfl
@[simp] theorem raiseError_mode (e : ErrCode) : (raiseError e s).mode = if e = .waitTimeout then .unknown else s.mode := rfl
@[simp] theorem raiseError_seq (e : ErrCode) : (raiseError e s).seq = .idle := rfl
@[simp] theorem raiseError_seqCmd (e : ErrCode) : (raiseError e s).seqCmd = s.seqCmd := rfl
@[simp] theorem raiseError_work (e : ErrCode) : (raiseError e s).work = .noValue := rfl
@[simp] theorem raiseError_port (e : ErrCode) : (raiseError e s).port = s.port := rfl
@[simp] theorem raiseError_hb (e : ErrCode) : (raiseError e s).hb = s.hb := rfl
@[simp] theorem raiseError_raced (e : ErrCode) : (raiseError e s).raced = s.raced := rfl
@[simp] theorem raiseError_history (e : ErrCode) : (raiseError e s).history = s.history ++ [.done (statusWord false s.initDone s.ovr e)] := rfl
@[simp] theorem raiseError_params (e : ErrCode) : (raiseError e s).params = s.params := rfl
@[simp] theorem raiseError_misoIn (e : ErrCode) : (raiseError e s).misoIn = s.misoIn := rfl
@[simp] theorem raiseError_lineIn (e : ErrCode) : (raiseError e s).lineIn = s.lineIn := rfl
@[simp] theorem raiseError_hostIn (e : ErrCode) : (raiseError e s).hostIn = s.hostIn := rfl
@[simp] theorem raiseError_hostSeen (e : ErrCode) : (raiseError e s).hostSeen = s.hostSeen := rfl
@[simp] theorem raiseError_draws (e : ErrCode) : (raiseError e s).draws = s.draws := rfl
@[simp] theorem raiseError_lone (e : ErrCode) : (raiseError e s).lone = s.lone := rfl

/-! ### resetNrc -/

@[simp] theorem resetNrc_cmd : (resetNrc s).cmd = 0x0000 := rfl
@[simp] theorem resetNrc_busy : (resetNrc s).busy = false := rfl
@[simp] theorem resetNrc_initDone : (resetNrc s).initDone = false := rfl
@[simp] theorem resetNrc_ovr : (resetNrc s).ovr = false := rfl
@[simp] theorem resetNrc_err : (resetNrc s).err = .none := rfl
@[simp] theorem resetNrc_outcome : (resetNrc s).outcome = .noMessage := rfl
@[simp] theorem resetNrc_rxLen : (resetNrc s).rxLen = 0x00 := rfl
@[simp] theorem resetNrc_mode : (resetNrc s).mode = .unknown := rfl
@[simp] theorem resetNrc_seq : (resetNrc s).seq = .idle := rfl
@[simp] theorem resetNrc_seqCmd : (resetNrc s).seqCmd = 0x0000 := rfl
@[simp] theorem resetNrc_work : (resetNrc s).work = .noValue := rfl
@[simp] theorem resetNrc_port : (resetNrc s).port = { nss := true, sck := s.params.spiFormat.sckIdle, mosi := s.params.spiFormat.mosiIdle, sent := [] } := rfl
@[simp] theorem resetNrc_hb : (resetNrc s).hb = s.hb := rfl
@[simp] theorem resetNrc_raced : (resetNrc s).raced = [] := rfl
@[simp] theorem resetNrc_history : (resetNrc s).history = [] := rfl
@[simp] theorem resetNrc_params : (resetNrc s).params = s.params := rfl
@[simp] theorem resetNrc_misoIn : (resetNrc s).misoIn = s.misoIn := rfl
@[simp] theorem resetNrc_lineIn : (resetNrc s).lineIn = s.lineIn := rfl
@[simp] theorem resetNrc_hostIn : (resetNrc s).hostIn = s.hostIn := rfl
@[simp] theorem resetNrc_hostSeen : (resetNrc s).hostSeen = s.hostSeen := rfl
@[simp] theorem resetNrc_draws : (resetNrc s).draws = s.draws := rfl
@[simp] theorem resetNrc_lone : (resetNrc s).lone = none := rfl

end Sys2Proof.Machine
end

