-- ==== Sys2Proof/Laws/Sequencer.lean ====
section
/-! SUPPORT. What the shared operations of the sequencer can do: an equation per line of pseudocode, the ways a line can end, and how runs of one instruction chain. -/

namespace Sys2Proof.Machine

/-! ### Small operations -/

@[simp] theorem need_some {α : Type} (v : α) (k : α → Host.Outcome State Fault Refusal) : need (some v) k = k v := rfl

@[simp] theorem need_none {α : Type} (k : α → Host.Outcome State Fault Refusal) :
    need none k = .fault .workingRegisterUnset := rfl

/-- A `need` that goes on had a value to go on with. -/
theorem need_next {α : Type} {o : Option α} {k : α → Host.Outcome State Fault Refusal} {t : State}
    (h : need o k = .next t) : ∃ v, o = some v ∧ k v = .next t := by
  cases o with
  | none => simp [need] at h
  | some v => exact ⟨v, rfl, h⟩

@[simp] theorem radioAnswer_cons {s : State} {v : Byte} {vs : List Byte} (h : s.misoIn = v :: vs) :
    radioAnswer s = v := by simp [radioAnswer, h]

@[simp] theorem levelsNow_cons {s : State} {l : Levels} {ls : List Levels} (h : s.lineIn = l :: ls) :
    levelsNow s = l := by simp [levelsNow, h]

@[simp] theorem radioAnswer_with_work (s : State) (w : Work) : radioAnswer { s with work := w } = radioAnswer s := rfl

/-- A byte that did not race is read as it stands, without a draw. -/
theorem bufferByte_of_not_raced {s : State} {i : Byte} (h : i ∉ s.raced) : bufferByte i s = s.hb.read i.toNat := by
  simp [bufferByte, h]

theorem takeByte_of_not_raced {s : State} {i : Byte} (h : i ∉ s.raced) : s.takeByte i = s := by
  simp [State.takeByte, h]

@[simp] theorem transfer_nss (p : SpiPort) (f : SpiFormat) (b0 b1 : Byte) : (p.transfer f b0 b1).nss = true := rfl

@[simp] theorem transfer_sent (p : SpiPort) (f : SpiFormat) (b0 b1 : Byte) : (p.transfer f b0 b1).sent = [b0, b1] := rfl

@[simp] theorem waitExpired_unbounded (n : Nat) : waitExpired none n = false := rfl

@[simp] theorem waitExpired_bound (b n : Nat) : waitExpired (some b) n = (n == b) := rfl

/-! ### Going on at a line -/

/-- `t` is `s` gone on at line `n`: at the step that is next there. -/
def Arrives (prog : List SeqLine) (n : Nat) (s t : State) : Prop := ∃ m, arrive prog n s = some m ∧ t = s.atLine m

/-- Where `goto` answers a next state it has gone on. -/
theorem goto_next {prog : List SeqLine} {n : Nat} {s t : State} (h : goto prog n s = .next t) : Arrives prog n s t := by
  obtain ⟨m, hm, h⟩ := need_next h
  exact ⟨m, hm, (Host.Outcome.next.inj h).symm⟩

/-- Where the step next at line `n` is line `m`, `goto` goes there. -/
theorem goto_of_arrive {prog : List SeqLine} {n m : Nat} {s : State} (h : arrive prog n s = some m) :
    goto prog n s = .next (s.atLine m) := by
  simp [goto, h]

/-- Reaching line `m` passes nothing over: it is neither an ENSURE_STANDBY nor the test of a byte loop. -/
def landsAt (prog : List SeqLine) (m : Nat) : Bool :=
  match prog[m]? with
  | some .ensureStandby | some .hbRead | some .fifoRead => false
  | _ => true

theorem arrive_of_lands {prog : List SeqLine} {m : Nat} (h : landsAt prog m = true) (s : State) :
    arrive prog m s = some m := by
  unfold landsAt at h
  unfold arrive
  split <;> simp_all

theorem goto_of_lands {prog : List SeqLine} {m : Nat} (h : landsAt prog m = true) (s : State) :
    goto prog m s = .next (s.atLine m) := goto_of_arrive (arrive_of_lands h s)

/-! ### One step of a command -/

theorem runCommand_rejects {check : Option ErrCode} {enter : State → State} {prog : List SeqLine} {s : State} {e : ErrCode}
    (hs : s.seq = .run .check) (hc : check = some e) : runCommand check enter prog s = .next (raiseError e s) := by
  simp [runCommand, hs, hc]

theorem runCommand_enters {check : Option ErrCode} {enter : State → State} {prog : List SeqLine} {s : State}
    (hs : s.seq = .run .check) (hc : check = none) : runCommand check enter prog s = goto prog 0 (enter s) := by
  simp [runCommand, hs, hc]

theorem runCommand_line {check : Option ErrCode} {enter : State → State} {prog : List SeqLine} {s : State} {n : Nat}
    {again : Bool} {l : SeqLine} (hs : s.seq = .run (.line n again)) (hl : prog[n]? = some l) :
    runCommand check enter prog s = runLine prog n again l s := by
  simp [runCommand, hs, hl]

/-- The three ways a command's step can answer a next state. -/
theorem runCommand_cases {check : Option ErrCode} {enter : State → State} {prog : List SeqLine} {s t : State}
    (h : runCommand check enter prog s = .next t) :
    (∃ e, s.seq = .run .check ∧ check = some e ∧ t = raiseError e s) ∨
    (s.seq = .run .check ∧ check = none ∧ Arrives prog 0 (enter s) t) ∨
    (∃ n again l, s.seq = .run (.line n again) ∧ prog[n]? = some l ∧ runLine prog n again l s = .next t) := by
  unfold runCommand at h
  split at h
  · cases h
  · cases hc : check with
    | some e => rw [hc] at h; cases h; exact .inl ⟨e, ‹_›, rfl, rfl⟩
    | none => rw [hc] at h; exact .inr (.inl ⟨‹_›, rfl, goto_next h⟩)
  next n again hs =>
    cases hl : prog[n]? with
    | none => rw [hl] at h; cases h
    | some l => rw [hl] at h; exact .inr (.inr ⟨n, again, l, hs, hl, h⟩)

/-- Every command runs the same way, over its own checks, entry and program. -/
theorem exec_command {i : Instr} (hi : i.isCommand = true) (s : State) :
    exec i s = runCommand (decodeCheck i s.initDone) (enter i) (program i s.params) s := by
  cases i with
  | rd a => simp [Instr.isCommand] at hi
  | wr a v => simp [Instr.isCommand] at hi
  | _ => rfl

/-- At a line of its program, a command performs that line. -/
theorem exec_line {i : Instr} {s : State} {n : Nat} {again : Bool} {l : SeqLine}
    (hs : s.seq = .run (.line n again)) (hl : (program i s.params)[n]? = some l) :
    exec i s = runLine (program i s.params) n again l s := by
  cases i with
  | rd a => simp [program] at hl
  | wr a v => simp [program] at hl
  | _ => rw [exec_command rfl]; exact runCommand_line hs hl

/-- A low sample either gives up or goes on waiting. -/
theorem lowSample_cases (n c : Nat) (s : State) :
    (waitExpired s.params.waitBound (c + 1) = true ∧ lowSample n c s = raiseError .waitTimeout s) ∨
    (waitExpired s.params.waitBound (c + 1) = false ∧
      lowSample n c s = { s with work := { s.work with waitCnt := some (c + 1) }, seq := .run (.line n true) }) := by
  unfold lowSample
  cases h : waitExpired s.params.waitBound (c + 1) <;> simp

/-! ### Runs of one instruction -/

@[simp] theorem execSteps_zero (i : Instr) (s : State) : execSteps i 0 s = .next s := rfl

theorem execSteps_succ {i : Instr} {k : Nat} {s t : State} (h : exec i s = .next t) :
    execSteps i (k + 1) s = execSteps i k t := by
  simp [execSteps, h]

/-- A run of one step. -/
theorem execSteps_one (i : Instr) (s : State) : execSteps i 1 s = exec i s := by
  simp only [execSteps]
  cases exec i s <;> rfl

/-- Runs chain. -/
theorem execSteps_add {i : Instr} {j k : Nat} {s t : State} (h : execSteps i j s = .next t) :
    execSteps i (j + k) s = execSteps i k t := by
  induction j generalizing s with
  | zero => cases h; simp
  | succ j ih =>
    rw [show j + 1 + k = (j + k) + 1 by omega]
    cases he : exec i s with
    | next u => rw [execSteps_succ he] at h ⊢; exact ih h
    | fault f => simp [execSteps, he] at h
    | refused r => simp [execSteps, he] at h

end Sys2Proof.Machine
end

