-- ==== Sys2Proof/Laws/Step.lean ====
section
/-! SUPPORT. What one step of the machine can be. -/

namespace Sys2Proof.Machine

/-- The ways a step can answer a next state. -/
theorem step_cases {s t : State} (h : step s = .next t) :
    (∃ i, nextTurn s = .instr i ∧ exec i (takeTurn s) = .next t) ∨
    (nextTurn s = .illegal ∧ t = raiseError .illegalCmd (takeTurn s)) ∨
    (∃ a, nextTurn s = .host a ∧ t = hostAct a (takeTurn s)) ∨
    (nextTurn s = .hold ∧ t = takeTurn s) := by
  unfold step at h
  split at h
  · exact .inl ⟨_, ‹_›, h⟩
  · cases h; exact .inr (.inl ⟨‹_›, rfl⟩)
  · cases h; exact .inr (.inr (.inl ⟨_, ‹_›, rfl⟩))
  · cases h; exact .inr (.inr (.inr ⟨‹_›, rfl⟩))
  · cases h

/-- With no lone transaction, the sequencer's turn comes when the host's queue is empty or begins with `turn`. -/
theorem nextTurn_sequencer {s : State} (hl : s.lone = none) (hq : s.hostIn = [] ∨ s.hostIn.head? = some .turn) :
    nextTurn s = sequencerTurn s := by
  unfold nextTurn
  rw [hl]
  rcases hq with hq | hq
  · simp [hq]
  · cases hh : s.hostIn with
    | nil => rfl
    | cons a as => rw [hh] at hq; simp at hq; subst hq; rfl

/-- The turns of a state without a lone transaction. -/
theorem nextTurn_cases {s : State} (hl : s.lone = none) :
    nextTurn s = sequencerTurn s ∨ ∃ a as, s.hostIn = a :: as ∧ nextTurn s = .host a := by
  unfold nextTurn
  rw [hl]
  cases hq : s.hostIn with
  | nil => exact .inl rfl
  | cons a as =>
    cases a with
    | turn => exact .inl rfl
    | _ => exact .inr ⟨_, _, rfl, rfl⟩

theorem sequencerTurn_run {s : State} {pos : SeqPos} {i : Instr} (hs : s.seq = .run pos)
    (hd : decodeHcmd s.seqCmd = .ok i) : sequencerTurn s = .instr i := by
  simp [sequencerTurn, hs, hd]

theorem sequencerTurn_instr {s : State} {i : Instr} (h : sequencerTurn s = .instr i) :
    (∃ pos, s.seq = .run pos) ∧ decodeHcmd s.seqCmd = .ok i := by
  unfold sequencerTurn at h
  split at h
  · cases h
  next pos hs =>
    split at h
    · cases h; exact ⟨⟨pos, hs⟩, ‹_›⟩
    · cases h

theorem takeTurn_of_no_lone {s : State} (hl : s.lone = none) : takeTurn s = { s with hostIn := s.hostIn.tail } := by
  simp [takeTurn, hl]

end Sys2Proof.Machine
end

