-- ==== Sys2Proof/Laws/Lines.lean ====
section
/-! SUPPORT. What one step can do, said once: the state each line of pseudocode leaves, and the ways a step of the machine can go. -/

namespace Sys2Proof.Machine

/-- The state a line leaves when it answers one, line by line; a wait's is one of `sampleLine_next` or `sampleRxLines_next`. -/
def LeavesState (prog : List SeqLine) (n : Nat) (again : Bool) (s t : State) : SeqLine → Prop
  | .wr a src           => ∃ v, src.get s.work = some v ∧ Arrives prog (n + 1) (spiWrite a v s) t
  | .wrFifoPtr          =>
    ∃ p, s.work.ptr = some p ∧
      Arrives prog (n + 1) { spiWrite 0x0D p s with work := { s.work with idx := some 0 } } t
  | .rd a d             => Arrives prog (n + 1) { spiRead a s with work := d.put (radioAnswer s) s.work } t
  | .rdFlags            =>
    Arrives prog (n + 1)
      { spiRead 0x12 (s.setMode (.requested .standby)) with work := { s.work with flags := some (radioAnswer s) } } t
  | .mode m             => Arrives prog (n + 1) (requestMode m s) t
  | .ensureStandby      => Arrives prog (n + 1) (requestMode .standby s) t
  | .wait l             => ∃ c, waitCount again s.work = some c ∧ sampleLine prog n l c s = .next t
  | .waitRx             => ∃ c, waitCount again s.work = some c ∧ sampleRxLines prog n c s = .next t
  | .hbRead             =>
    ∃ i, bufferIndex s.work = some i ∧
      Arrives prog (n + 1)
        { (s.takeByte i).record (.hbRd i (bufferByte i s)) with work := { s.work with byte := some (bufferByte i s) } } t
  | .fifoWrite          =>
    ∃ b j, s.work.byte = some b ∧ s.work.idx = some j ∧
      Arrives prog (n - 1) { spiWrite 0x00 b s with work := nextIndex j s.work } t
  | .fifoRead           =>
    Arrives prog (n + 1) { spiRead 0x00 s with work := { s.work with byte := some (radioAnswer s) } } t
  | .hbWrite            =>
    ∃ i b j, bufferIndex s.work = some i ∧ s.work.byte = some b ∧ s.work.idx = some j ∧
      Arrives prog (n - 1) { s.record (.hbWr i b) with hb := s.hb.write i.toNat b, work := nextIndex j s.work } t
  | .complete .plain    => t = complete s
  | .complete .initDone => t = complete { s with initDone := true }
  | .complete .standby  => t = complete (s.setMode (.requested .standby))
  | .complete .outcome  =>
    ∃ x f, s.work.which = some x ∧ s.work.flags = some f ∧ t = complete { s with outcome := mapOutcome x f }
  | .complete .rxLen    => ∃ k, s.work.len = some k ∧ t = complete { s with rxLen := k }

/-- What a line that answers a next state has done. -/
theorem runLine_leaves {prog : List SeqLine} {n : Nat} {again : Bool} {l : SeqLine} {s t : State}
    (h : runLine prog n again l s = .next t) : LeavesState prog n again s t l := by
  cases l with
  | complete e =>
    cases e with
    | outcome =>
      obtain ⟨x, hx, h⟩ := need_next h
      obtain ⟨f, hf, h⟩ := need_next h
      exact ⟨x, f, hx, hf, (Host.Outcome.next.inj h).symm⟩
    | rxLen =>
      obtain ⟨k, hk, h⟩ := need_next h
      exact ⟨k, hk, (Host.Outcome.next.inj h).symm⟩
    | _ => exact (Host.Outcome.next.inj h).symm
  | hbWrite =>
    obtain ⟨i, hi, h⟩ := need_next h
    obtain ⟨b, hb, h⟩ := need_next h
    obtain ⟨j, hj, h⟩ := need_next h
    exact ⟨i, b, j, hi, hb, hj, goto_next h⟩
  | wr a src => obtain ⟨v, hv, h⟩ := need_next h; exact ⟨v, hv, goto_next h⟩
  | wrFifoPtr => obtain ⟨v, hv, h⟩ := need_next h; exact ⟨v, hv, goto_next h⟩
  | wait L => obtain ⟨c, hc, h⟩ := need_next h; exact ⟨c, hc, h⟩
  | waitRx => obtain ⟨c, hc, h⟩ := need_next h; exact ⟨c, hc, h⟩
  | hbRead => obtain ⟨i, hi, h⟩ := need_next h; exact ⟨i, hi, goto_next h⟩
  | fifoWrite =>
    obtain ⟨b, hb, h⟩ := need_next h
    obtain ⟨j, hj, h⟩ := need_next h
    exact ⟨b, j, hb, hj, goto_next h⟩
  | _ => exact goto_next h

/-- The ways a `WaitHigh` sample that answers a next state has gone (R102). -/
theorem sampleLine_next {prog : List SeqLine} {n : Nat} {l : WaitLine} {c : Nat} {s t : State}
    (h : sampleLine prog n l c s = .next t) :
    ((levelsNow s).of l = true ∧
      Arrives prog (n + 1)
        { s.takeLevels.record (.sample l true) with work := { s.work with waitCnt := some c } } t) ∨
    ((levelsNow s).of l = false ∧ waitExpired s.params.waitBound (c + 1) = true ∧
      t = raiseError .waitTimeout (s.takeLevels.record (.sample l false))) ∨
    ((levelsNow s).of l = false ∧ waitExpired s.params.waitBound (c + 1) = false ∧
      t = { s.takeLevels.record (.sample l false) with
          work := { s.work with waitCnt := some (c + 1) }, seq := .run (.line n true) }) := by
  unfold sampleLine at h
  cases hl : (levelsNow s).of l
  · simp only [hl] at h
    obtain rfl := Host.Outcome.next.inj h
    rcases lowSample_cases n c (s.takeLevels.record (.sample l false)) with ⟨he, e⟩ | ⟨he, e⟩
    · exact .inr (.inl ⟨rfl, he, e⟩)
    · exact .inr (.inr ⟨rfl, he, e⟩)
  · simp only [hl] at h
    exact .inl ⟨rfl, goto_next h⟩

/-- The ways a `WaitRx` sample that answers a next state has gone (R103). -/
theorem sampleRxLines_next {prog : List SeqLine} {n c : Nat} {s t : State} (h : sampleRxLines prog n c s = .next t) :
    (∃ x, rxWinner (levelsNow s).rxDone (levelsNow s).rxTimeout = some x ∧
      Arrives prog (n + 1)
        { s.takeLevels.record (.sampleRx (levelsNow s).rxDone (levelsNow s).rxTimeout) with
          work := { s.work with waitCnt := some c, which := some x } } t) ∨
    (rxWinner (levelsNow s).rxDone (levelsNow s).rxTimeout = none ∧
      waitExpired s.params.waitBound (c + 1) = true ∧
      t = raiseError .waitTimeout
          (s.takeLevels.record (.sampleRx (levelsNow s).rxDone (levelsNow s).rxTimeout))) ∨
    (rxWinner (levelsNow s).rxDone (levelsNow s).rxTimeout = none ∧
      waitExpired s.params.waitBound (c + 1) = false ∧
      t = { s.takeLevels.record (.sampleRx (levelsNow s).rxDone (levelsNow s).rxTimeout) with
          work := { s.work with waitCnt := some (c + 1) }, seq := .run (.line n true) }) := by
  unfold sampleRxLines at h
  cases hx : rxWinner (levelsNow s).rxDone (levelsNow s).rxTimeout
  · simp only [hx] at h
    obtain rfl := Host.Outcome.next.inj h
    rcases lowSample_cases n c (s.takeLevels.record (.sampleRx (levelsNow s).rxDone (levelsNow s).rxTimeout)) with
      ⟨he, e⟩ | ⟨he, e⟩
    · exact .inr (.inl ⟨rfl, he, e⟩)
    · exact .inr (.inr ⟨rfl, he, e⟩)
  · simp only [hx] at h
    exact .inl ⟨_, rfl, goto_next h⟩

/-- The codes the decode checks of a decoded command raise (R142, R143). -/
theorem decodeCheck_codes {i : Instr} {initDone : Bool} {e : ErrCode} (h : decodeCheck i initDone = some e) :
    e = .notInit ∨ e = .badIndex := by
  have gate : ∀ {o : Option ErrCode}, firstError (initGate initDone) o = some e → (o = some e → e = .badIndex) →
      e = .notInit ∨ e = .badIndex := by
    intro o h ho
    cases initDone with
    | false => cases h; exact .inl rfl
    | true => exact .inr (ho h)
  cases i with
  | init => cases h
  | changeChannel k => exact gate h (by unfold indexGate; split <;> rintro ⟨⟩; rfl)
  | changeDatarate k => exact gate h (by unfold indexGate; split <;> rintro ⟨⟩; rfl)
  | _ => exact gate (o := none) (by cases initDone <;> exact h) (by rintro ⟨⟩)

/-- The ways a step goes from a state that meets the invariant, with `s'` the state with the turn taken. -/
theorem step_ways {s t : State} (hi : StateInv s) (h : step s = .next t) :
    ∃ s', s' = { s with hostIn := s.hostIn.tail } ∧
    ((∃ e, s.seq = .run .check ∧ t = raiseError e s' ∧ (e = .illegalCmd ∨ e = .notInit ∨ e = .badIndex)) ∨
     (∃ i, s.seq = .run .check ∧ decodeHcmd s.seqCmd = .ok i ∧ decodeCheck i s.initDone = none ∧
       Arrives (program i s.params) 0 (enter i s') t) ∨
     (∃ i n again l, s.seq = .run (.line n again) ∧ LineInv s n again i l ∧
       LeavesState (program i s.params) n again s' t l) ∨
     (∃ a, a ≠ .turn ∧ nextTurn s = .host a ∧ t = hostAct a s') ∨
     (s.seq = .idle ∧ t = s')) := by
  refine ⟨_, rfl, ?_⟩
  rw [← takeTurn_of_no_lone hi.noLone]
  have seqTurn : ∀ u, nextTurn s = u → (∀ a, u ≠ .host a) → sequencerTurn s = u := by
    rintro u rfl hu
    rcases nextTurn_cases hi.noLone with e | ⟨a, as, -, e⟩
    · exact e.symm
    · exact absurd e (hu a)
  rcases step_cases h with ⟨i, ht, he⟩ | ⟨ht, he⟩ | ⟨a, ht, he⟩ | ⟨ht, he⟩
  · obtain ⟨⟨pos, hs⟩, hd⟩ := sequencerTurn_instr (seqTurn _ ht (by simp))
    cases pos with
    | check =>
      have hcmd : i.isCommand = true := by
        cases i with
        | rd a => simp only [decodeHcmd, noOperand] at hd; split at hd <;> (try split at hd) <;> cases hd
        | wr a v => simp only [decodeHcmd, noOperand] at hd; split at hd <;> (try split at hd) <;> cases hd
        | _ => rfl
      rw [exec_command hcmd, takeTurn_of_no_lone hi.noLone] at he
      rcases runCommand_cases he with ⟨e, -, hc, rfl⟩ | ⟨-, hc, ha⟩ | ⟨n, again, l, hs', -⟩
      · refine .inl ⟨e, hs, by rw [takeTurn_of_no_lone hi.noLone], ?_⟩
        exact .inr (decodeCheck_codes hc)
      · exact .inr (.inl ⟨i, hs, hd, hc, by rwa [takeTurn_of_no_lone hi.noLone]⟩)
      · exact absurd (hs'.symm.trans hs) (by simp)
    | line n again =>
      obtain ⟨i', l, hl⟩ := hi.lines n again hs
      obtain rfl : i' = i := by have := hl.command; rw [hd] at this; cases this; rfl
      have hs' : (takeTurn s).seq = .run (.line n again) := by rw [takeTurn_of_no_lone hi.noLone]; exact hs
      have hp' : (program i' (takeTurn s).params)[n]? = some l := by
        rw [takeTurn_of_no_lone hi.noLone]; exact hl.position
      rw [exec_line hs' hp'] at he
      refine .inr (.inr (.inl ⟨i', n, again, l, hs, hl, ?_⟩))
      have := runLine_leaves he
      rwa [show (takeTurn s).params = s.params by rw [takeTurn_of_no_lone hi.noLone]] at this
  · left
    have hq := seqTurn _ ht (by simp)
    unfold sequencerTurn at hq
    split at hq
    · cases hq
    next pos hs =>
      cases pos with
      | check => exact ⟨_, hs, he, .inl rfl⟩
      | line n again =>
        obtain ⟨i', l, hl⟩ := hi.lines n again hs
        rw [hl.command] at hq; cases hq
  · refine .inr (.inr (.inr (.inl ⟨a, ?_, ht, he⟩)))
    rintro rfl
    rcases nextTurn_cases hi.noLone with e | ⟨b, bs, hb, e⟩
    · rw [e] at ht; unfold sequencerTurn at ht
      split at ht
      · cases ht
      · split at ht <;> cases ht
    · rw [e] at ht; cases ht
      unfold nextTurn at e; rw [hi.noLone, hb] at e
      simp only [sequencerTurn] at e
      split at e
      · cases e
      · split at e <;> cases e
  · refine .inr (.inr (.inr (.inr ⟨?_, he⟩)))
    have hq := seqTurn _ ht (by simp)
    unfold sequencerTurn at hq
    split at hq
    · assumption
    · split at hq <;> cases hq

end Sys2Proof.Machine
end

