-- ==== Sys2Proof/Laws/Effects.lean ====
section
/-! SUPPORT. What each line and each action of the host does to one field of the state. -/

namespace Sys2Proof.Machine

/-- Only INIT ends by setting INIT_DONE. -/
theorem initDone_line {i : Instr} {p} {n : Nat} (h : (program i p)[n]? = some (SeqLine.complete .initDone)) : i = .init := by
  have := List.mem_of_getElem? h
  cases i <;> simp [program, sendProgram, receiveProgram, getPacketProgram, changeChannelProgram, changeDatarateProgram, ensureStandby, iqTx, iqRx, sendPayload, receivePayload, txPhase, rxPhase] at this ⊢
  · unfold setChannel at this; split at this <;> simp at this
  · unfold setDatarate at this; split at this <;> simp at this

/-- Only RECEIVE ends by writing OUTCOME. -/
theorem outcome_line {i : Instr} {p} {n : Nat} (h : (program i p)[n]? = some (SeqLine.complete .outcome)) : i = .receive := by
  have := List.mem_of_getElem? h
  cases i <;> simp [program, initProgram, sendProgram, receiveProgram, getPacketProgram, changeChannelProgram, changeDatarateProgram, ensureStandby, iqTx, iqRx, sendPayload, receivePayload, txPhase, rxPhase] at this ⊢
  · unfold setChannel at this; unfold setDatarate at this; simp [chTable, drTable] at this
  · unfold setChannel at this; split at this <;> simp at this
  · unfold setDatarate at this; split at this <;> simp at this

/-- Only GET_PACKET ends by writing RX_LEN. -/
theorem rxLen_line {i : Instr} {p} {n : Nat} (h : (program i p)[n]? = some (SeqLine.complete .rxLen)) : i = .getPacket := by
  have := List.mem_of_getElem? h
  cases i <;> simp [program, initProgram, sendProgram, receiveProgram, getPacketProgram, changeChannelProgram, changeDatarateProgram, ensureStandby, iqTx, iqRx, sendPayload, receivePayload, txPhase, rxPhase] at this ⊢
  · unfold setChannel at this; unfold setDatarate at this; simp [chTable, drTable] at this
  · unfold setChannel at this; split at this <;> simp at this
  · unfold setDatarate at this; split at this <;> simp at this

/-- RUN means BUSY = 1 (R23). -/
theorem StateInv.busy_of_run {s} (hi : StateInv s) {pos} (h : s.seq = .run pos) : s.busy = true := hi.busyRun.2 (by simp [h])

/-- BUSY = 0 means IDLE (R23). -/
theorem StateInv.idle_of_not_busy {s} (hi : StateInv s) (h : s.busy = false) : s.seq = .idle := by
  by_contra hh; have := hi.busyRun.2 hh; simp [h] at this

/-- No line touches the accepted word, OVR, P or the host's side. -/
theorem line_surroundings {prog n again s t l} (h : LeavesState prog n again s t l) :
    t.cmd = s.cmd ∧ t.seqCmd = s.seqCmd ∧ t.ovr = s.ovr ∧ t.params = s.params ∧ t.hostIn = s.hostIn ∧
      t.hostSeen = s.hostSeen ∧ t.lone = s.lone ∧ t.raced = s.raced := by
  cases l with
  | complete e => cases e <;> simp only [LeavesState] at h <;> (repeat obtain ⟨_, h⟩ := h) <;> (try subst h) <;> exact ⟨rfl, rfl, rfl, rfl, rfl, rfl, rfl, rfl⟩
  | wait L =>
    obtain ⟨c, -, h⟩ := h
    rcases sampleLine_next h with ⟨-, m, -, rfl⟩ | ⟨-, -, rfl⟩ | ⟨-, -, rfl⟩ <;> exact ⟨rfl, rfl, rfl, rfl, rfl, rfl, rfl, rfl⟩
  | waitRx =>
    obtain ⟨c, -, h⟩ := h
    rcases sampleRxLines_next h with ⟨x, -, m, -, rfl⟩ | ⟨-, -, rfl⟩ | ⟨-, -, rfl⟩ <;> exact ⟨rfl, rfl, rfl, rfl, rfl, rfl, rfl, rfl⟩
  | _ => simp only [LeavesState] at h <;> (repeat obtain ⟨_, h⟩ := h) <;> simp

/-- Only the MemWrite line changes HB. -/
theorem line_hb {prog n again s t l} (h : LeavesState prog n again s t l) (hl : l ≠ .hbWrite) : t.hb = s.hb := by
  cases l with
  | complete e => cases e <;> simp only [LeavesState] at h <;> (repeat obtain ⟨_, h⟩ := h) <;> (try subst h) <;> rfl
  | wait L =>
    obtain ⟨c, -, h⟩ := h
    rcases sampleLine_next h with ⟨-, m, -, rfl⟩ | ⟨-, -, rfl⟩ | ⟨-, -, rfl⟩ <;> rfl
  | waitRx =>
    obtain ⟨c, -, h⟩ := h
    rcases sampleRxLines_next h with ⟨x, -, m, -, rfl⟩ | ⟨-, -, rfl⟩ | ⟨-, -, rfl⟩ <;> rfl
  | hbWrite => exact absurd rfl hl
  | _ => simp only [LeavesState] at h <;> (repeat obtain ⟨_, h⟩ := h) <;> (try subst h) <;> rfl

/-- Only a read uses up an answer. -/
theorem line_miso {prog n again s t l} (h : LeavesState prog n again s t l) (hl : (∀ a d, l ≠ .rd a d) ∧ l ≠ .rdFlags ∧ l ≠ .fifoRead) : t.misoIn = s.misoIn := by
  cases l with
  | complete e => cases e <;> simp only [LeavesState] at h <;> (repeat obtain ⟨_, h⟩ := h) <;> (try subst h) <;> rfl
  | wait L =>
    obtain ⟨c, -, h⟩ := h
    rcases sampleLine_next h with ⟨-, m, -, rfl⟩ | ⟨-, -, rfl⟩ | ⟨-, -, rfl⟩ <;> rfl
  | waitRx =>
    obtain ⟨c, -, h⟩ := h
    rcases sampleRxLines_next h with ⟨x, -, m, -, rfl⟩ | ⟨-, -, rfl⟩ | ⟨-, -, rfl⟩ <;> rfl
  | rd a d => exact absurd rfl (hl.1 a d)
  | rdFlags => exact absurd rfl (hl.2.1)
  | fifoRead => exact absurd rfl (hl.2.2)
  | _ => simp only [LeavesState] at h <;> (repeat obtain ⟨_, h⟩ := h) <;> (try subst h) <;> rfl

/-- Only the last line of INIT writes INIT_DONE. -/
theorem line_initDone {prog n again s t l} (h : LeavesState prog n again s t l) : t.initDone = s.initDone ∨ (l = .complete .initDone ∧ t = complete { s with initDone := true }) := by
  cases l with
  | complete e => cases e <;> simp only [LeavesState] at h <;> (repeat obtain ⟨_, h⟩ := h) <;> (try subst h) <;> first | exact .inl rfl | exact .inr ⟨rfl, rfl⟩
  | wait L =>
    obtain ⟨c, -, h⟩ := h
    rcases sampleLine_next h with ⟨-, m, -, rfl⟩ | ⟨-, -, rfl⟩ | ⟨-, -, rfl⟩ <;> exact .inl rfl
  | waitRx =>
    obtain ⟨c, -, h⟩ := h
    rcases sampleRxLines_next h with ⟨x, -, m, -, rfl⟩ | ⟨-, -, rfl⟩ | ⟨-, -, rfl⟩ <;> exact .inl rfl
  | _ => simp only [LeavesState] at h <;> (repeat obtain ⟨_, h⟩ := h) <;> (try subst h) <;> exact .inl rfl

/-- Only the last line of RECEIVE writes OUTCOME. -/
theorem line_outcome {prog n again s t l} (h : LeavesState prog n again s t l) : t.outcome = s.outcome ∨ (l = .complete .outcome ∧ ∃ x f, t = complete { s with outcome := mapOutcome x f }) := by
  cases l with
  | complete e => cases e <;> simp only [LeavesState] at h <;> (repeat obtain ⟨_, h⟩ := h) <;> (try subst h) <;> first | exact .inl rfl | exact .inr ⟨rfl, _, _, rfl⟩
  | wait L =>
    obtain ⟨c, -, h⟩ := h
    rcases sampleLine_next h with ⟨-, m, -, rfl⟩ | ⟨-, -, rfl⟩ | ⟨-, -, rfl⟩ <;> exact .inl rfl
  | waitRx =>
    obtain ⟨c, -, h⟩ := h
    rcases sampleRxLines_next h with ⟨x, -, m, -, rfl⟩ | ⟨-, -, rfl⟩ | ⟨-, -, rfl⟩ <;> exact .inl rfl
  | _ => simp only [LeavesState] at h <;> (repeat obtain ⟨_, h⟩ := h) <;> (try subst h) <;> exact .inl rfl

/-- Only the last line of GET_PACKET writes RX_LEN. -/
theorem line_rxLen {prog n again s t l} (h : LeavesState prog n again s t l) : t.rxLen = s.rxLen ∨ (l = .complete .rxLen ∧ s.work.len = some t.rxLen ∧ t.busy = false) := by
  cases l with
  | complete e => cases e <;> simp only [LeavesState] at h <;> (try obtain ⟨k, hk, h⟩ := h) <;> (repeat obtain ⟨_, h⟩ := h) <;> (try subst h) <;> first | exact .inl rfl | exact .inr ⟨rfl, hk, rfl⟩
  | wait L =>
    obtain ⟨c, -, h⟩ := h
    rcases sampleLine_next h with ⟨-, m, -, rfl⟩ | ⟨-, -, rfl⟩ | ⟨-, -, rfl⟩ <;> exact .inl rfl
  | waitRx =>
    obtain ⟨c, -, h⟩ := h
    rcases sampleRxLines_next h with ⟨x, -, m, -, rfl⟩ | ⟨-, -, rfl⟩ | ⟨-, -, rfl⟩ <;> exact .inl rfl
  | _ => simp only [LeavesState] at h <;> (repeat obtain ⟨_, h⟩ := h) <;> (try subst h) <;> exact .inl rfl

/-- A line either keeps BUSY and ERR, or ends the command with `Done`. -/
theorem line_busy {prog n again s t l} (h : LeavesState prog n again s t l) : (t.busy = s.busy ∧ t.err = s.err) ∨ (t.busy = false ∧ (t.err = s.err ∨ t.err = .waitTimeout) ∧ ∃ es, t.history = s.history ++ es ++ [.done (windowRead t 1)]) := by
  cases l with
  | complete e => cases e <;> simp only [LeavesState] at h <;> (repeat obtain ⟨_, h⟩ := h) <;> (try subst h) <;> exact .inr ⟨rfl, .inl rfl, [], by simp [complete, endCommand, State.record]; rfl⟩
  | wait L =>
    obtain ⟨c, -, h⟩ := h
    rcases sampleLine_next h with ⟨-, m, -, rfl⟩ | ⟨-, -, rfl⟩ | ⟨-, -, rfl⟩ <;> first | exact .inl ⟨rfl, rfl⟩ | exact .inr ⟨rfl, .inr rfl, [.sample L false], rfl⟩
  | waitRx =>
    obtain ⟨c, -, h⟩ := h
    rcases sampleRxLines_next h with ⟨x, -, m, -, rfl⟩ | ⟨-, -, rfl⟩ | ⟨-, -, rfl⟩ <;> first | exact .inl ⟨rfl, rfl⟩ | exact .inr ⟨rfl, .inr rfl, [.sampleRx _ _], rfl⟩
  | _ => simp only [LeavesState] at h <;> (repeat obtain ⟨_, h⟩ := h) <;> (try subst h) <;> exact .inl ⟨rfl, rfl⟩

/-- Entering a command records nothing. -/
theorem enter_history (i s) : (enter i s).history = s.history := by cases i <;> rfl

/-- Of the host's actions only reset writes INIT_DONE. -/
theorem hostAct_initDone (a s) : (hostAct a s).initDone = s.initDone ∨ (a = .reset ∧ (hostAct a s).initDone = false) := by
  cases a with
  | write i w => left; simp only [hostAct, windowWrite]; split <;> (try split) <;> rfl
  | store i b => exact .inl rfl
  | load i => left; simp only [hostAct, hostLoad]; split <;> rfl
  | reset => exact .inr ⟨rfl, rfl⟩
  | _ => exact .inl rfl

/-- Of the host's actions only reset writes OUTCOME. -/
theorem hostAct_outcome (a s) : (hostAct a s).outcome = s.outcome ∨ (a = .reset ∧ (hostAct a s).outcome = .noMessage) := by
  cases a with
  | write i w => left; simp only [hostAct, windowWrite]; split <;> (try split) <;> rfl
  | store i b => exact .inl rfl
  | load i => left; simp only [hostAct, hostLoad]; split <;> rfl
  | reset => exact .inr ⟨rfl, rfl⟩
  | _ => exact .inl rfl

/-- Of the host's actions only reset writes RX_LEN. -/
theorem hostAct_rxLen (a s) : (hostAct a s).rxLen = s.rxLen ∨ (a = .reset ∧ (hostAct a s).rxLen = 0) := by
  cases a with
  | write i w => left; simp only [hostAct, windowWrite]; split <;> (try split) <;> rfl
  | store i b => exact .inl rfl
  | load i => left; simp only [hostAct, hostLoad]; split <;> rfl
  | reset => exact .inr ⟨rfl, rfl⟩
  | _ => exact .inl rfl

/-- Of the host's actions only reset writes MODE_SHADOW. -/
theorem hostAct_mode (a s) : (hostAct a s).mode = s.mode ∨ (a = .reset ∧ (hostAct a s).mode = .unknown) := by
  cases a with
  | write i w => left; simp only [hostAct, windowWrite]; split <;> (try split) <;> rfl
  | store i b => exact .inl rfl
  | load i => left; simp only [hostAct, hostLoad]; split <;> rfl
  | reset => exact .inr ⟨rfl, rfl⟩
  | _ => exact .inl rfl

/-- No action of the host changes P. -/
theorem hostAct_params (a s) : (hostAct a s).params = s.params := by
  cases a with
  | write i w => simp only [hostAct, windowWrite]; split <;> (try split) <;> rfl
  | store i b => rfl
  | load i => simp only [hostAct, hostLoad]; split <;> rfl
  | _ => rfl

end Sys2Proof.Machine
end

