-- ==== Sys2Proof/Laws/Fields.lean ====
section
/-! SUPPORT. The fields of the two word formats: cutting a word into its fields and putting it together again. -/

namespace Sys2Proof

theorem bit_append (o a : Byte) (i : Nat) : (o ++ a).getLsbD i = if i < 8 then a.getLsbD i else o.getLsbD (i - 8) := by
  rw [BitVec.getLsbD_append]

theorem bit_frame (b : BitVec 1) (a : RegAddr) (d : Byte) (i : Nat) :
    (b ++ a ++ d).getLsbD i =
      if i < 8 then d.getLsbD i else if i - 8 < 7 then a.getLsbD (i - 8) else b.getLsbD (i - 8 - 7) := by
  rw [BitVec.getLsbD_append, BitVec.getLsbD_append]

@[simp] theorem opField_append (o a : Byte) : opField (o ++ a) = o := by
  apply BitVec.eq_of_getLsbD_eq
  intro i hi
  rw [opField, BitVec.getLsbD_extractLsb', bit_append]
  simp [hi]

@[simp] theorem argField_append (o a : Byte) : argField (o ++ a) = a := by
  apply BitVec.eq_of_getLsbD_eq
  intro i hi
  rw [argField, BitVec.getLsbD_extractLsb', bit_append]
  simp [hi]

/-- A command word is its two fields (R60). -/
theorem opField_argField (w : HalfWord) : opField w ++ argField w = w := by
  apply BitVec.eq_of_getLsbD_eq
  intro i hi
  rw [bit_append, opField, argField, BitVec.getLsbD_extractLsb', BitVec.getLsbD_extractLsb']
  by_cases h : i < 8
  · simp [h]
  · simp [h, show 8 + (i - 8) = i by omega, show i - 8 < 8 by omega]

@[simp] theorem frameWrite_append (b : BitVec 1) (a : RegAddr) (d : Byte) :
    frameWrite (b ++ a ++ d) = b.getLsbD 0 := by
  rw [frameWrite, bit_frame]
  simp

@[simp] theorem frameAddr_append (b : BitVec 1) (a : RegAddr) (d : Byte) : frameAddr (b ++ a ++ d) = a := by
  apply BitVec.eq_of_getLsbD_eq
  intro i hi
  rw [frameAddr, BitVec.getLsbD_extractLsb', bit_frame]
  simp [hi]

@[simp] theorem frameData_append (b : BitVec 1) (a : RegAddr) (d : Byte) : frameData (b ++ a ++ d) = d := by
  apply BitVec.eq_of_getLsbD_eq
  intro i hi
  rw [frameData, BitVec.getLsbD_extractLsb', bit_frame]
  simp [hi]

/-- A frame is its three fields (R64). -/
theorem frame_fields (f : HalfWord) : BitVec.ofBool (frameWrite f) ++ frameAddr f ++ frameData f = f := by
  apply BitVec.eq_of_getLsbD_eq
  intro i hi
  rw [bit_frame, frameData, frameAddr, frameWrite, BitVec.getLsbD_extractLsb', BitVec.getLsbD_extractLsb']
  by_cases h : i < 8
  · simp [h]
  · by_cases h' : i < 15
    · simp [h, show 8 + (i - 8) = i by omega, show i - 8 < 7 by omega]
    · obtain rfl : i = 15 := by omega
      simp

/-- A byte is the number it reads as. -/
theorem byte_of_toNat {b : Byte} {n : Nat} (h : b.toNat = n) : b = BitVec.ofNat 8 n := by
  subst h
  simp

end Sys2Proof
end

