-- ==== Sys2Proof/Laws/Memory.lean ====
section
/-! SUPPORT. The host buffer: reading after writing, and the canonical form every operation keeps. -/

namespace Sys2Proof.Machine

@[simp] theorem Memory.read_nil (a : Nat) : Memory.read [] a = unlistedByte := rfl

theorem Memory.read_cons (k : Nat) (b : Byte) (m : Memory) (a : Nat) :
    Memory.read ((k, b) :: m) a = if k = a then b else Memory.read m a := rfl

/-- Below the lowest listed address every byte is unlisted. -/
theorem Memory.read_below {lo a : Nat} {m : Memory} (h : Memory.wfFrom lo m = true) (ha : a < lo) :
    Memory.read m a = unlistedByte := by
  induction m generalizing lo with
  | nil => rfl
  | cons e m ih =>
    obtain ⟨k, b⟩ := e
    simp only [Memory.wfFrom, Bool.and_eq_true, decide_eq_true_eq] at h
    rw [Memory.read_cons, if_neg (by omega)]
    exact ih h.2 (by omega)

theorem Memory.wfFrom_mono {lo lo' : Nat} {m : Memory} (h : Memory.wfFrom lo m = true) (hl : lo' ≤ lo) :
    Memory.wfFrom lo' m = true := by
  cases m with
  | nil => rfl
  | cons e m =>
    simp only [Memory.wfFrom, Bool.and_eq_true, decide_eq_true_eq] at h ⊢
    exact ⟨⟨⟨by omega, h.1.1.2⟩, h.1.2⟩, h.2⟩

theorem Memory.read_entry {lo a : Nat} {m : Memory} (h : Memory.wfFrom lo m = true) (ha : a < lo) (b : Byte) (x : Nat) :
    Memory.read (Memory.entry a b m) x = if a = x then b else Memory.read m x := by
  unfold Memory.entry
  split
  · subst_vars
    by_cases hx : a = x
    · subst hx; simp [Memory.read_below h ha]
    · simp [hx]
  · rfl

theorem Memory.wf_entry {lo a : Nat} {m : Memory} (h : Memory.wfFrom (a + 1) m = true) (hl : lo ≤ a) (ha : a < 256)
    (b : Byte) : Memory.wfFrom lo (Memory.entry a b m) = true := by
  unfold Memory.entry
  split
  · exact Memory.wfFrom_mono h (by omega)
  · simp [Memory.wfFrom, *]

theorem Memory.wfFrom_write {lo a : Nat} {m : Memory} (h : Memory.wfFrom lo m = true) (hl : lo ≤ a) (ha : a < 256)
    (b : Byte) : Memory.wfFrom lo (Memory.write m a b) = true := by
  induction m generalizing lo with
  | nil => exact Memory.wf_entry rfl hl ha b
  | cons e m ih =>
    obtain ⟨k, c⟩ := e
    have h' := h
    simp only [Memory.wfFrom, Bool.and_eq_true, decide_eq_true_eq] at h
    unfold Memory.write
    split
    · refine Memory.wf_entry ?_ hl ha b
      simp only [Memory.wfFrom, Bool.and_eq_true, decide_eq_true_eq]
      exact ⟨⟨⟨by omega, h.1.1.2⟩, h.1.2⟩, h.2⟩
    · split
      · subst_vars; exact Memory.wf_entry h.2 hl ha b
      · simp only [Memory.wfFrom, Bool.and_eq_true, decide_eq_true_eq]
        exact ⟨h.1, ih h.2 (by omega)⟩

theorem Memory.read_writeFrom {lo : Nat} {m : Memory} (h : Memory.wfFrom lo m = true) (a : Nat) (b : Byte) (x : Nat) :
    Memory.read (Memory.write m a b) x = if a = x then b else Memory.read m x := by
  induction m generalizing lo with
  | nil => exact Memory.read_entry (lo := a + 1) rfl (by omega) b x
  | cons e m ih =>
    obtain ⟨k, c⟩ := e
    have hk : Memory.wfFrom k ((k, c) :: m) = true := by
      simp only [Memory.wfFrom, Bool.and_eq_true, decide_eq_true_eq] at h ⊢
      exact ⟨⟨⟨Nat.le_refl _, h.1.1.2⟩, h.1.2⟩, h.2⟩
    have ht : Memory.wfFrom (k + 1) m = true := by
      simp only [Memory.wfFrom, Bool.and_eq_true] at h
      exact h.2
    unfold Memory.write
    split
    next hlt => exact Memory.read_entry hk hlt b x
    next hge =>
      split
      · subst_vars
        rw [Memory.read_entry ht (by omega), Memory.read_cons]
        by_cases hx : k = x <;> simp [hx]
      · rw [Memory.read_cons, ih ht, Memory.read_cons]
        by_cases hx : k = x
        · subst hx; simp; omega
        · simp [hx]

/-- Every write keeps the canonical form. -/
theorem Memory.wf_write {m : Memory} (h : m.wf = true) (i : Byte) (b : Byte) : (Memory.write m i.toNat b).wf = true :=
  Memory.wfFrom_write h (Nat.zero_le _) i.isLt b

/-- What a byte reads as after a write. -/
theorem Memory.read_write {m : Memory} (h : m.wf = true) (a : Nat) (b : Byte) (x : Nat) :
    Memory.read (Memory.write m a b) x = if a = x then b else Memory.read m x :=
  Memory.read_writeFrom h a b x

/-- Without the canonical form too, a write changes no other byte's reading. -/
theorem Memory.read_write_ne (m : Memory) {a x : Nat} (b : Byte) (hx : a ≠ x) :
    Memory.read (Memory.write m a b) x = Memory.read m x := by
  induction m with
  | nil =>
    unfold Memory.write Memory.entry
    split <;> simp [Memory.read_cons, hx]
  | cons e m ih =>
    obtain ⟨k, c⟩ := e
    unfold Memory.write Memory.entry
    split
    · split <;> simp [Memory.read_cons, hx]
    · split
      · subst_vars
        split <;> simp [Memory.read_cons, hx]
      · rw [Memory.read_cons, ih, Memory.read_cons]

end Sys2Proof.Machine
end

