-- ==== Sys2Proof/Laws/Layout.lean ====
section
/-! SUPPORT. How the lines of the commands' programs are laid out, and what reaching a line needs. -/

namespace Sys2Proof.Machine

/-! ### The layout of a program -/

/-- A line that is no part of a byte loop. -/
def SeqLine.outsideLoop : SeqLine → Bool
  | .hbRead | .fifoRead | .fifoWrite | .hbWrite => false
  | _ => true

/-- A line that is the first step of a byte loop's pair. -/
def SeqLine.firstOfPair : SeqLine → Bool
  | .hbRead | .fifoRead => true
  | _ => false

/-- Whether a list of lines leaves T_LEN, T_PTR, T_IDX, T_FLAGS, T_WHICH with a value. -/
def setsLen (ls : List SeqLine) : Bool := ls.any fun | .rd _ .len => true | _ => false
def setsPtr (ls : List SeqLine) : Bool := ls.any fun | .rd _ .ptr => true | _ => false
def setsIdx (ls : List SeqLine) : Bool := ls.any fun | .wrFifoPtr => true | _ => false
def setsFlags (ls : List SeqLine) : Bool := ls.any fun | .rd _ .flags => true | .rdFlags => true | _ => false
def setsWhich (ls : List SeqLine) : Bool := ls.any fun | .waitRx => true | _ => false

/-- The line at `n`, if any, is outside the byte loops. -/
def outsideAt (prog : List SeqLine) (n : Nat) : Bool :=
  match prog[n]? with
  | some l => l.outsideLoop && (match l with | .ensureStandby => false | _ => true)
  | none   => false

/-- Line `n` of the program of `i` stands where it may: what it reads has been written, what follows it exists. -/
def laidOut (isInit isSend : Bool) (prog : List SeqLine) (n : Nat) (l : SeqLine) : Bool :=
  match l with
  | .wr _ .len     => (isSend || setsLen (prog.take n)) && outsideAt prog (n + 1)
  | .wr _ .ptr     => setsPtr (prog.take n) && outsideAt prog (n + 1)
  | .wr _ _        => outsideAt prog (n + 1)
  | .rd _ .len     => !isSend && outsideAt prog (n + 1)
  | .rd _ _        => outsideAt prog (n + 1)
  | .rdFlags       => outsideAt prog (n + 1)
  | .mode _        => outsideAt prog (n + 1)
  | .wait _        => outsideAt prog (n + 1)
  | .waitRx        => outsideAt prog (n + 1)
  | .ensureStandby => outsideAt prog (n + 1) && outsideAt prog (n + 2)
  | .wrFifoPtr     =>
    setsPtr (prog.take n) && (isSend || setsLen (prog.take n)) &&
      (match prog[n + 1]? with | some l => l.firstOfPair | none => false)
  | .hbRead        => (isSend || setsLen (prog.take n)) && setsIdx (prog.take n) &&
      decide (prog[n + 1]? = some .fifoWrite) && outsideAt prog (n + 2)
  | .fifoRead      => (isSend || setsLen (prog.take n)) && setsIdx (prog.take n) &&
      decide (prog[n + 1]? = some .hbWrite) && outsideAt prog (n + 2)
  | .fifoWrite     => decide (0 < n) && decide (prog[n - 1]? = some .hbRead)
  | .hbWrite       => decide (0 < n) && decide (prog[n - 1]? = some .fifoRead)
  | .complete .plain    => !isInit && decide (lastMode (prog.take n) = some .standby)
  | .complete .initDone => isInit && decide (lastMode (prog.take n) = some .standby)
  | .complete .standby  => !isInit
  | .complete .outcome  =>
    !isInit && setsWhich (prog.take n) && setsFlags (prog.take n) && decide (lastMode (prog.take n) = some .standby)
  | .complete .rxLen    => !isInit && setsLen (prog.take n) && decide (lastMode (prog.take n) = some .standby)

/-- Every line of a program stands where it may. -/
def wellLaid (isInit isSend : Bool) (prog : List SeqLine) : Bool :=
  (List.range prog.length).all fun n =>
    match prog[n]? with
    | some l => laidOut isInit isSend prog n l
    | none   => true

theorem wellLaid_line {isInit isSend : Bool} {prog : List SeqLine} (h : wellLaid isInit isSend prog = true) {n : Nat}
    {l : SeqLine} (hl : prog[n]? = some l) : laidOut isInit isSend prog n l = true := by
  have hn := (List.getElem?_eq_some_iff.1 hl).1
  have := List.all_eq_true.1 h n (List.mem_range.2 hn)
  rwa [hl] at this

/-- Whether the instruction is INIT, or SEND. -/
def isInitInstr : Instr → Bool
  | .init => true
  | _ => false
def isSendInstr : Instr → Bool
  | .send _ => true
  | _ => false

/-- The program of every legal command is well laid out. -/
theorem program_wellLaid {i : Instr} (hc : i.isCommand = true) (hw : i.wf = true) (p : Params) :
    wellLaid (isInitInstr i) (isSendInstr i) (program i p) = true := by
  cases i with
  | init => rfl
  | send n => rfl
  | receive => rfl
  | getPacket => rfl
  | changeChannel k =>
    have h : ∀ k, legalChannel k = true → wellLaid false false (changeChannelProgram k) = true := by decide
    exact h k hw
  | changeDatarate k =>
    have h : ∀ k, legalDatarate k = true → wellLaid false false (changeDatarateProgram k) = true := by decide
    exact h k hw
  | rd a => cases hc
  | wr a v => cases hc

/-! ### What earlier lines leave behind -/

theorem setsLen_isSome {w : Work} {ls : List SeqLine} (h : setsLen ls = true) (hl : ls.all (fun l => l.leaves w) = true) :
    w.len.isSome = true := by
  obtain ⟨l, hm, hp⟩ := List.any_eq_true.1 h
  have hx := List.all_eq_true.1 hl l hm
  cases l with
  | rd a d => cases d <;> simp_all [SeqLine.leaves]
  | _ => simp at hp

theorem setsPtr_isSome {w : Work} {ls : List SeqLine} (h : setsPtr ls = true) (hl : ls.all (fun l => l.leaves w) = true) :
    w.ptr.isSome = true := by
  obtain ⟨l, hm, hp⟩ := List.any_eq_true.1 h
  have hx := List.all_eq_true.1 hl l hm
  cases l with
  | rd a d => cases d <;> simp_all [SeqLine.leaves]
  | _ => simp at hp

theorem setsIdx_isSome {w : Work} {ls : List SeqLine} (h : setsIdx ls = true) (hl : ls.all (fun l => l.leaves w) = true) :
    w.idx.isSome = true := by
  obtain ⟨l, hm, hp⟩ := List.any_eq_true.1 h
  have hx := List.all_eq_true.1 hl l hm
  cases l <;> simp_all [SeqLine.leaves]

theorem setsFlags_isSome {w : Work} {ls : List SeqLine} (h : setsFlags ls = true)
    (hl : ls.all (fun l => l.leaves w) = true) : w.flags.isSome = true := by
  obtain ⟨l, hm, hp⟩ := List.any_eq_true.1 h
  have hx := List.all_eq_true.1 hl l hm
  cases l with
  | rd a d => cases d <;> simp_all [SeqLine.leaves]
  | rdFlags => exact hx
  | _ => simp at hp

theorem setsWhich_isSome {w : Work} {ls : List SeqLine} (h : setsWhich ls = true)
    (hl : ls.all (fun l => l.leaves w) = true) : w.which.isSome = true := by
  obtain ⟨l, hm, hp⟩ := List.any_eq_true.1 h
  have hx := List.all_eq_true.1 hl l hm
  cases l <;> simp_all [SeqLine.leaves]

theorem lastMode_append (as : List SeqLine) (l : SeqLine) :
    lastMode (as ++ [l]) = match l.modeAfter with
      | some m => some m
      | none   => lastMode as := by
  induction as with
  | nil => cases h : l.modeAfter <;> simp [lastMode, h]
  | cons a as ih =>
    rw [List.cons_append, lastMode, ih]
    cases h : l.modeAfter <;> simp [lastMode]

theorem take_succ {prog : List SeqLine} {n : Nat} {l : SeqLine} (h : prog[n]? = some l) :
    prog.take (n + 1) = prog.take n ++ [l] := by
  rw [List.take_add_one, h]; rfl

/-! ### Facts about reaching a line -/

/-- What holds of a command's state when line `m` of its program is reached, before passed-over lines are passed over. -/
structure Reaches (s : State) (i : Instr) (m : Nat) : Prop where
  command : decodeHcmd s.seqCmd = .ok i
  legal   : i.wf = true
  left    : ((program i s.params).take m).all (fun l => l.leaves s.work) = true
  sendLen : ∀ k, i = .send k → s.work.len = some k
  gate    : s.initDone = true ↔ i ≠ .init
  shadow  : ∀ r, lastMode ((program i s.params).take m) = some r → s.mode = .requested r
  receiving : i = .receive → s.outcome = .noMessage

theorem LineInv.reaches {s : State} {n : Nat} {again : Bool} {i : Instr} {l : SeqLine} (h : LineInv s n again i l) :
    Reaches s i n := ⟨h.command, h.legal, h.left, h.sendLen, h.gate, h.shadow, h.receiving⟩

theorem Reaches.lineInv {s : State} {i : Instr} {m : Nat} {l : SeqLine} {again : Bool} (h : Reaches s i m)
    (hp : (program i s.params)[m]? = some l) (hr : l.ready again s.work = true)
    (hb : l.secondOfPair = true ∨ s.work.byte = none) : LineInv s m again i l where
  command := h.command
  legal := h.legal
  position := hp
  ready := hr
  left := h.left
  sendLen := h.sendLen
  gate := h.gate
  shadow := h.shadow
  noCopy := hb
  receiving := h.receiving

/-- A state that holds the same in the fields a line's invariant speaks of is at that line too. -/
theorem LineInv.of_same {s t : State} {n : Nat} {again : Bool} {i : Instr} {l : SeqLine} (h : LineInv s n again i l)
    (hcmd : t.seqCmd = s.seqCmd) (hpar : t.params = s.params) (hwork : t.work = s.work) (hinit : t.initDone = s.initDone)
    (hmode : t.mode = s.mode) (hout : t.outcome = s.outcome) : LineInv t n again i l where
  command := hcmd ▸ h.command
  legal := h.legal
  position := hpar ▸ h.position
  ready := hwork ▸ h.ready
  left := by rw [hpar, hwork]; exact h.left
  sendLen := hwork ▸ h.sendLen
  gate := hinit ▸ h.gate
  shadow := by rw [hpar, hmode]; exact h.shadow
  noCopy := hwork ▸ h.noCopy
  receiving := hout ▸ h.receiving

theorem isCommand_of_decodeHcmd {w : HalfWord} {i : Instr} (h : decodeHcmd w = .ok i) : i.isCommand = true := by
  simp only [decodeHcmd, noOperand] at h
  split at h <;> (try split at h) <;> first | (cases h; rfl) | cases h

theorem Reaches.wellLaid {s : State} {i : Instr} {m : Nat} (h : Reaches s i m) :
    wellLaid (isInitInstr i) (isSendInstr i) (program i s.params) = true :=
  program_wellLaid (isCommand_of_decodeHcmd h.command) h.legal s.params

theorem Reaches.len_isSome {s : State} {i : Instr} {m : Nat} (h : Reaches s i m)
    (hl : (isSendInstr i || setsLen ((program i s.params).take m)) = true) : s.work.len.isSome = true := by
  cases i with
  | send k => simp [h.sendLen k rfl]
  | _ => exact setsLen_isSome (by simpa [isSendInstr] using hl) h.left

/-- The next line is reached when a line that leaves `l.leaves` and settles the mode it should has been performed. -/
theorem Reaches.succ {s t : State} {i : Instr} {n : Nat} {l : SeqLine} (h : Reaches s i n)
    (hp : (program i s.params)[n]? = some l) (hpar : t.params = s.params) (hcmd : t.seqCmd = s.seqCmd)
    (hinit : t.initDone = s.initDone) (hout : t.outcome = s.outcome) (hkeep : ∀ l : SeqLine, l.leaves s.work = true → l.leaves t.work = true)
    (hlen : s.work.len = t.work.len ∨ isSendInstr i = false) (hleft : l.leaves t.work = true)
    (hmode : match l.modeAfter with
      | some m => t.mode = .requested m
      | none   => t.mode = s.mode) : Reaches t i (n + 1) := by
  refine ⟨hcmd ▸ h.command, h.legal, ?_, ?_, hinit ▸ h.gate, ?_, hout ▸ h.receiving⟩
  · rw [hpar, take_succ hp, List.all_append]
    simp only [List.all_cons, List.all_nil, Bool.and_true, Bool.and_eq_true]
    refine ⟨?_, hleft⟩
    rw [List.all_eq_true] at *
    exact fun x hx => hkeep x (List.all_eq_true.1 h.left x hx)
  · rintro k rfl
    rcases hlen with hlen | hlen
    · rw [← hlen]; exact h.sendLen k rfl
    · cases hlen
  · intro r hr
    rw [hpar, take_succ hp, lastMode_append] at hr
    cases hm : l.modeAfter with
    | some m => rw [hm] at hr hmode; cases hr; exact hmode
    | none => rw [hm] at hr hmode; rw [hmode]; exact h.shadow r hr

theorem ready_of_outside {prog : List SeqLine} {n : Nat} (h : outsideAt prog n = true) :
    ∃ l, prog[n]? = some l ∧ (∀ w, l.ready false w = true) ∧ landsAt prog n = true := by
  unfold outsideAt at h
  split at h
  next l hl =>
    refine ⟨l, hl, ?_, ?_⟩ <;> cases l <;> simp_all [SeqLine.outsideLoop, SeqLine.ready, landsAt]
  · cases h

/-- The command of `s`, having reached line `m` of its program, goes on at a line that fits it. -/
def GoesOn (s : State) (i : Instr) (m : Nat) : Prop :=
  ∃ k l, arrive (program i s.params) m s = some k ∧ LineInv s k false i l

/-- Reaching a line outside the byte loops. -/
theorem Reaches.atOutside {s : State} {i : Instr} {m : Nat} (h : Reaches s i m) (hb : s.work.byte = none)
    (ho : outsideAt (program i s.params) m = true) : GoesOn s i m := by
  obtain ⟨l, hl, hr, ha⟩ := ready_of_outside ho
  exact ⟨m, l, arrive_of_lands ha s, h.lineInv hl (hr _) (.inr hb)⟩

/-- A line that leaves everything as it is, passed over. -/
theorem Reaches.pass {s : State} {i : Instr} {n : Nat} {l : SeqLine} (h : Reaches s i n)
    (hp : (program i s.params)[n]? = some l) (hl : l.leaves s.work = true)
    (hm : ∀ m, l.modeAfter = some m → s.mode = .requested m) : Reaches s i (n + 1) := by
  refine h.succ hp rfl rfl rfl rfl (fun _ h => h) (.inl rfl) hl ?_
  cases h' : l.modeAfter with
  | none => rfl
  | some m => exact hm m h'

/-- Reaching the second step of a byte loop's pair. -/
theorem Reaches.atSecond {s : State} {i : Instr} {m : Nat} {l : SeqLine} (h : Reaches s i m)
    (hp : (program i s.params)[m]? = some l) (hl : l.secondOfPair = true) (hr : l.ready false s.work = true) :
    GoesOn s i m := by
  refine ⟨m, l, arrive_of_lands ?_ s, h.lineInv hp hr (.inl hl)⟩
  unfold landsAt
  rw [hp]
  cases l <;> simp_all [SeqLine.secondOfPair]

/-- Working registers that keep their values keep what lines left in them. -/
theorem leaves_mono {w w' : Work} (hp : w.ptr.isSome = true → w'.ptr.isSome = true)
    (hn : w.len.isSome = true → w'.len.isSome = true) (hi : w.idx.isSome = true → w'.idx.isSome = true)
    (hf : w.flags.isSome = true → w'.flags.isSome = true) (hx : w.which.isSome = true → w'.which.isSome = true)
    (l : SeqLine) (h : l.leaves w = true) : l.leaves w' = true := by
  cases l with
  | rd a d => cases d <;> simp_all [SeqLine.leaves]
  | _ => simp_all [SeqLine.leaves]

/-- Inside a loop T_IDX has a value. -/
theorem idx_of_insideLoop {w : Work} (h : insideLoop w = true) : ∃ j, w.idx = some j := by
  unfold insideLoop at h
  split at h
  · exact ⟨_, ‹_›⟩
  · cases h

/-- With both registers written the test of a byte loop has an answer; where it goes on, the index is inside the packet. -/
theorem loopDone_decided {w : Work} (hi : w.idx.isSome = true) (hl : w.len.isSome = true) :
    ∃ d, loopDone w = some d ∧ (d = false → insideLoop w = true) := by
  obtain ⟨j, hj⟩ := Option.isSome_iff_exists.1 hi
  obtain ⟨n, hn⟩ := Option.isSome_iff_exists.1 hl
  refine ⟨decide (n.toNat ≤ j.toNat), by simp [loopDone, hj, hn], fun h => ?_⟩
  simp only [insideLoop, hj, hn, decide_eq_false_iff_not, decide_eq_true_eq] at h ⊢
  omega

/-- Reaching the test of a byte loop, with its pair of lines and the line after it as they should be. -/
theorem Reaches.atTest {s : State} {i : Instr} {m : Nat} {l l' : SeqLine} (h : Reaches s i m) (hb : s.work.byte = none)
    (hp : (program i s.params)[m]? = some l) (hp' : (program i s.params)[m + 1]? = some l')
    (ha : arrive (program i s.params) m s = loopTest m s.work)
    (hl : ∀ w, l.leaves w = true ∧ l'.leaves w = true ∧ l.ready false w = insideLoop w)
    (hm : l.modeAfter = none ∧ l'.modeAfter = none) (hi : s.work.idx.isSome = true) (hn : s.work.len.isSome = true)
    (ho : outsideAt (program i s.params) (m + 2) = true) : GoesOn s i m := by
  obtain ⟨d, hd, hin⟩ := loopDone_decided hi hn
  unfold GoesOn
  rw [ha]
  cases d with
  | true =>
    obtain ⟨x, hx, hr, -⟩ := ready_of_outside ho
    refine ⟨m + 2, x, by simp [loopTest, hd], ?_⟩
    exact ((h.pass hp (hl _).1 (by simp [hm.1])).pass hp' (hl _).2.1 (by simp [hm.2])).lineInv hx (hr _) (.inr hb)
  | false => exact ⟨m, l, by simp [loopTest, hd], h.lineInv hp ((hl _).2.2.trans (hin rfl)) (.inr hb)⟩

/-- Reaching the test of a byte loop. -/
theorem Reaches.atLoop {s : State} {i : Instr} {m : Nat} {l : SeqLine} (h : Reaches s i m) (hb : s.work.byte = none)
    (hp : (program i s.params)[m]? = some l) (hf : l.firstOfPair = true) : GoesOn s i m := by
  have hlaid := wellLaid_line h.wellLaid hp
  cases l with
  | hbRead =>
    simp only [laidOut, Bool.and_eq_true, decide_eq_true_eq] at hlaid
    obtain ⟨⟨⟨h1, h2⟩, h3⟩, h4⟩ := hlaid
    exact h.atTest hb hp h3 (by simp [arrive, hp]) (fun _ => ⟨rfl, rfl, rfl⟩) ⟨rfl, rfl⟩ (setsIdx_isSome h2 h.left)
      (h.len_isSome h1) h4
  | fifoRead =>
    simp only [laidOut, Bool.and_eq_true, decide_eq_true_eq] at hlaid
    obtain ⟨⟨⟨h1, h2⟩, h3⟩, h4⟩ := hlaid
    exact h.atTest hb hp h3 (by simp [arrive, hp]) (fun _ => ⟨rfl, rfl, rfl⟩) ⟨rfl, rfl⟩ (setsIdx_isSome h2 h.left)
      (h.len_isSome h1) h4
  | _ => cases hf

/-- Reaching the first line of a program. -/
theorem Reaches.atStart {s : State} {i : Instr} (h : Reaches s i 0) (hb : s.work.byte = none) : GoesOn s i 0 := by
  have hc := isCommand_of_decodeHcmd h.command
  have start : ∀ l rest, program i s.params = l :: .wait .modeReady :: rest → l = .ensureStandby → GoesOn s i 0 := by
    rintro _ rest hprog rfl
    have hp : (program i s.params)[0]? = some .ensureStandby := by rw [hprog]; rfl
    have hp1 : (program i s.params)[1]? = some (.wait .modeReady) := by rw [hprog]; rfl
    have hlaid := wellLaid_line h.wellLaid hp
    simp only [laidOut, Bool.and_eq_true] at hlaid
    by_cases hm : s.mode = .requested .standby
    · obtain ⟨l, hl, hr, -⟩ := ready_of_outside hlaid.2
      refine ⟨2, l, by simp [arrive, hp, hm], ?_⟩
      refine ((h.pass hp rfl ?_).pass hp1 rfl (by simp [SeqLine.modeAfter])).lineInv hl (hr _) (.inr hb)
      rintro m ⟨⟩
      exact hm
    · exact ⟨0, _, by simp [arrive, hp, hm], h.lineInv hp rfl (.inr hb)⟩
  cases i with
  | init => exact ⟨0, .mode .sleep, rfl, h.lineInv rfl rfl (.inr hb)⟩
  | rd a => cases hc
  | wr a v => cases hc
  | changeChannel k => exact start _ _ rfl rfl
  | changeDatarate k => exact start _ _ rfl rfl
  | _ => exact start _ _ rfl rfl

/-! ### After a wait -/

/-- The line after every wait is reached without passing anything over. -/
def waitsLand (prog : List SeqLine) : Bool :=
  (List.range prog.length).all fun n =>
    match prog[n]? with
    | some (.wait _) | some .waitRx => landsAt prog (n + 1)
    | _                             => true

/-- So it is in the program of every instruction, legal or not. -/
theorem program_waitsLand (i : Instr) (p : Params) : waitsLand (program i p) = true := by
  cases i with
  | changeChannel k =>
    have h : ∀ k, waitsLand (changeChannelProgram k) = true := by decide
    exact h k
  | changeDatarate k =>
    have h : ∀ k, waitsLand (changeDatarateProgram k) = true := by decide
    exact h k
  | _ => rfl

/-- The line after a wait. -/
theorem lands_after_wait {i : Instr} {p : Params} {n : Nat} {l : SeqLine} (hl : (program i p)[n]? = some l)
    (h : (∃ L, l = .wait L) ∨ l = .waitRx) : landsAt (program i p) (n + 1) = true := by
  have hn := (List.getElem?_eq_some_iff.1 hl).1
  have := List.all_eq_true.1 (program_waitsLand i p) n (List.mem_range.2 hn)
  rw [hl] at this
  rcases h with ⟨L, rfl⟩ | rfl <;> exact this

end Sys2Proof.Machine
end

