-- ==== Sys2Proof/Laws/Invariant.lean ====
section
/-! SUPPORT. The parts of a step each keep the machine's invariant: a line, the decode checks, an action of the host, taking the turn. -/

namespace Sys2Proof.Machine

/-- The part of `StateInv` that no step of the sequencer touches. -/
structure InvCore (s : State) : Prop where
  command   : s.seqCmd = s.cmd
  nssHigh   : s.port.nss = true
  buffer    : s.hb.wf = true
  racedOnce : s.raced.Nodup
  params    : s.params.wf = true
  noLone    : s.lone = none

/-- The invariant has that part. -/
theorem InvCore.of_inv {s} (h : StateInv s) : InvCore s :=
  ⟨h.command, h.nssHigh, h.buffer, h.racedOnce, h.params, h.noLone⟩

/-- IDLE, at rest: the invariant holds. -/
theorem stateInv_idle {s : State} (h : InvCore s) (hb : s.busy = false) (hs : s.seq = .idle) (hm : restMode s.mode)
    (hw : s.work = .noValue) : StateInv s where
  busyRun := by simp [hb, hs]
  command := h.command
  nssHigh := h.nssHigh
  buffer := h.buffer
  racedOnce := h.racedOnce
  params := h.params
  noLone := h.noLone
  resting := fun _ => ⟨hm, hw⟩
  errNone := by simp [hs]
  lines := by simp [hs]

/-- At a line that fits the command the invariant holds. -/
theorem stateInv_line {s : State} {n again i l} (h : InvCore s) (hb : s.busy = true) (he : s.err = .none)
    (hs : s.seq = .run (.line n again)) (hl : LineInv s n again i l) : StateInv s where
  busyRun := by simp [hb, hs]
  command := h.command
  nssHigh := h.nssHigh
  buffer := h.buffer
  racedOnce := h.racedOnce
  params := h.params
  noLone := h.noLone
  resting := by simp [hs]
  errNone := by simp [he]
  lines := by
    intro n' a' hh; rw [hs] at hh; cases hh; exact ⟨i, l, hl⟩

/-- An abort keeps the invariant (R146). -/
theorem stateInv_raiseError {s : State} {e} (h : InvCore s) (hm : e = .waitTimeout ∨ restMode s.mode) :
    StateInv (raiseError e s) := by
  refine stateInv_idle ⟨h.1, h.2, h.3, h.4, h.5, h.6⟩ rfl rfl ?_ rfl
  rcases hm with rfl | hm
  · exact .inl rfl
  · simp only [raiseError_mode]; split
    · exact .inl rfl
    · exact hm

/-- Completion keeps the invariant (R72). -/
theorem stateInv_complete {s : State} (h : InvCore s) (hm : restMode s.mode) : StateInv (complete s) :=
  stateInv_idle ⟨h.1, h.2, h.3, h.4, h.5, h.6⟩ rfl rfl hm rfl

/-- Going on at a line answers a state that meets the invariant, where that line fits the command. -/
theorem goto_keeps {s : State} {i : Instr} {m : Nat} {prog : List SeqLine} (h : InvCore s) (hb : s.busy = true)
    (he : s.err = .none) (hp : prog = program i s.params) (hl : GoesOn s i m) :
    ∃ t, goto prog m s = .next t ∧ StateInv t := by
  subst hp
  obtain ⟨k, l, ha, hl⟩ := hl
  exact ⟨_, goto_of_arrive ha, stateInv_line (s := s.atLine k) ⟨h.1, h.2, h.3, h.4, h.5, h.6⟩ hb he rfl
    (hl.of_same rfl rfl rfl rfl rfl rfl)⟩

/-- A low sample keeps it: the same line again, or WAIT_TIMEOUT. -/
theorem stateInv_lowSample {s : State} {i : Instr} {n c l} (h : InvCore s) (hb : s.busy = true) (he : s.err = .none)
    (hl : LineInv s n false i l) (hr : ∀ w : Work, w.waitCnt.isSome → l.ready true w = true) :
    StateInv (lowSample n c s) := by
  rcases lowSample_cases n c s with ⟨-, e⟩ | ⟨-, e⟩ <;> rw [e]
  · exact stateInv_raiseError h (.inl rfl)
  · exact stateInv_line (i := i) (l := l) (n := n) (again := true) ⟨h.1, h.2, h.3, h.4, h.5, h.6⟩ hb he rfl
      { command := hl.command, legal := hl.legal, position := hl.position, ready := hr _ rfl, left := hl.left
        sendLen := hl.sendLen, gate := hl.gate, shadow := hl.shadow, noCopy := hl.noCopy, receiving := hl.receiving }

/-- The line SEQ_PC stands at is laid out as its kind needs. -/
theorem LineInv.laidOut_line {s : State} {n again i l} (h : LineInv s n again i l) :
    laidOut (isInitInstr i) (isSendInstr i) (program i s.params) n l = true :=
  wellLaid_line h.reaches.wellLaid h.position

/-- At a wait the count of low samples has a value (R24, R102, R103). -/
theorem waitCount_of_ready {again : Bool} {w : Work} (h : (!again || w.waitCnt.isSome) = true) :
    ∃ c, waitCount again w = some c := by
  cases again with
  | false => exact ⟨0, rfl⟩
  | true => exact Option.isSome_iff_exists.1 h

/-- The end of a byte loop's pair leads back to the loop's test. -/
theorem Reaches.nextPair {s u : State} {i : Instr} {n : Nat} {j : BitVec 9} {l : SeqLine} (h : Reaches s i (n + 1))
    (hp : (program i s.params)[n]? = some l) (hf : l.firstOfPair = true) (hcmd : u.seqCmd = s.seqCmd)
    (hpar : u.params = s.params) (hinit : u.initDone = s.initDone) (hmode : u.mode = s.mode) (hout : u.outcome = s.outcome)
    (hw : u.work = nextIndex j s.work) : GoesOn u i n := by
  have hm : l.modeAfter = none := by cases l <;> first | rfl | cases hf
  have hpre := take_succ hp
  have hleft := h.left
  have hshadow := h.shadow
  rw [hpre, List.all_append, Bool.and_eq_true] at hleft
  simp only [hpre, lastMode_append, hm] at hshadow
  refine Reaches.atLoop (l := l) ⟨hcmd ▸ h.command, h.legal, ?_, ?_, hinit ▸ h.gate, ?_, hout ▸ h.receiving⟩ (by rw [hw]; rfl)
    (hpar ▸ hp) hf
  · rw [hpar, hw]
    exact List.all_eq_true.2 fun x hx =>
      leaves_mono (w := s.work) (w' := nextIndex j s.work) id id (fun _ => rfl) id id x (List.all_eq_true.1 hleft.1 x hx)
  · rw [hw]; exact h.sendLen
  · rw [hpar, hmode]; exact hshadow

/-- A step at a line of the running command answers a state that meets the invariant. -/
theorem line_keeps {s : State} {n again i l} (hi : StateInv s) (hs : s.seq = .run (.line n again))
    (hl : LineInv s n again i l) : ∃ t, exec i s = .next t ∧ StateInv t := by
  have hb : s.busy = true := hi.busyRun.2 (by simp [hs])
  have he : s.err = .none := hi.errNone (by simp [hs])
  have hc := InvCore.of_inv hi
  have hlaid := LineInv.laidOut_line hl
  have hR := hl.reaches
  have hp := hl.position
  have hready := hl.ready
  have noByte : l.secondOfPair = false → s.work.byte = none := fun h =>
    hl.noCopy.resolve_left (by rw [h]; exact Bool.false_ne_true)
  have write : ∀ a v, InvCore (spiWrite a v s) := fun _ _ => ⟨hc.1, rfl, hc.3, hc.4, hc.5, hc.6⟩
  rw [exec_line hs hp]
  cases l with
  | wr a src =>
    have goes : outsideAt (program i s.params) (n + 1) = true → ∀ v,
        ∃ t, goto (program i s.params) (n + 1) (spiWrite a v s) = .next t ∧ StateInv t := fun h v =>
      goto_keeps (write a v) hb he rfl
        (Reaches.atOutside (hR.succ hp rfl rfl rfl rfl (fun _ h => h) (.inl rfl) rfl rfl) (noByte rfl) h)
    cases src with
    | value v => exact goes hlaid v
    | len =>
      simp only [laidOut, Bool.and_eq_true] at hlaid
      obtain ⟨v, hv⟩ := Option.isSome_iff_exists.1 (hR.len_isSome hlaid.1)
      simp only [runLine, WrSource.get, hv, need_some]
      exact goes hlaid.2 v
    | ptr =>
      simp only [laidOut, Bool.and_eq_true] at hlaid
      obtain ⟨v, hv⟩ := Option.isSome_iff_exists.1 (setsPtr_isSome hlaid.1 hR.left)
      simp only [runLine, WrSource.get, hv, need_some]
      exact goes hlaid.2 v
  | wrFifoPtr =>
    simp only [laidOut, Bool.and_eq_true] at hlaid
    obtain ⟨⟨h1, -⟩, h3⟩ := hlaid
    obtain ⟨v, hv⟩ := Option.isSome_iff_exists.1 (setsPtr_isSome h1 hR.left)
    simp only [runLine, hv, need_some]
    cases hq : (program i s.params)[n + 1]? with
    | none => simp [hq] at h3
    | some l' =>
      rw [hq] at h3
      refine goto_keeps ⟨hc.1, rfl, hc.3, hc.4, hc.5, hc.6⟩ hb he rfl (Reaches.atLoop (l := l') ?_ (noByte rfl) hq h3)
      exact hR.succ hp rfl rfl rfl rfl (leaves_mono (fun _ => rfl) id (fun _ => rfl) id id) (.inl rfl) rfl rfl
  | rd a d =>
    have hlaid' : outsideAt (program i s.params) (n + 1) = true ∧ (d = .len → isSendInstr i = false) := by
      cases d <;> simp_all [laidOut]
    refine goto_keeps (s := { spiRead a s with work := d.put (radioAnswer s) s.work })
      ⟨hc.1, rfl, hc.3, hc.4, hc.5, hc.6⟩ hb he rfl
      (Reaches.atOutside ?_ (by cases d <;> exact noByte rfl) hlaid'.1)
    refine hR.succ hp rfl rfl rfl rfl ?_ ?_ ?_ rfl
    · refine leaves_mono ?_ ?_ ?_ ?_ ?_ <;> cases d <;> simp [RdTarget.put]
    · cases d with
      | len => exact .inr (hlaid'.2 rfl)
      | _ => left; rfl
    · cases d <;> rfl
  | rdFlags =>
    refine goto_keeps
      (s := { spiRead 0x12 (s.setMode (.requested .standby)) with work := { s.work with flags := some (radioAnswer s) } })
      ⟨hc.1, rfl, hc.3, hc.4, hc.5, hc.6⟩ hb he rfl (Reaches.atOutside ?_ (noByte rfl) hlaid)
    exact hR.succ hp rfl rfl rfl rfl (leaves_mono id id id (fun _ => rfl) id) (.inl rfl) rfl rfl
  | mode m =>
    exact goto_keeps (s := requestMode m s) ⟨hc.1, rfl, hc.3, hc.4, hc.5, hc.6⟩ hb he rfl
      (Reaches.atOutside (hR.succ hp rfl rfl rfl rfl (fun _ h => h) (.inl rfl) rfl rfl) (noByte rfl) hlaid)
  | ensureStandby =>
    simp only [laidOut, Bool.and_eq_true] at hlaid
    exact goto_keeps (s := requestMode .standby s) ⟨hc.1, rfl, hc.3, hc.4, hc.5, hc.6⟩ hb he rfl
      (Reaches.atOutside (hR.succ hp rfl rfl rfl rfl (fun _ h => h) (.inl rfl) rfl rfl) (noByte rfl) hlaid.1)
  | wait L =>
    obtain ⟨c, hcnt⟩ := waitCount_of_ready hready
    simp only [runLine, hcnt, need_some]
    unfold sampleLine
    simp only []
    split
    · refine goto_keeps (by exact ⟨hc.1, hc.2, hc.3, hc.4, hc.5, hc.6⟩) hb he rfl
        (Reaches.atOutside ?_ (noByte rfl) hlaid)
      exact hR.succ hp rfl rfl rfl rfl (leaves_mono id id id id id) (.inl rfl) rfl rfl
    · refine ⟨_, rfl, stateInv_lowSample (i := i) (l := .wait L) (by exact ⟨hc.1, hc.2, hc.3, hc.4, hc.5, hc.6⟩) hb he
        (hR.lineInv hp rfl (.inr (noByte rfl)) |>.of_same rfl rfl rfl rfl rfl rfl) (by simp [SeqLine.ready])⟩
  | waitRx =>
    obtain ⟨c, hcnt⟩ := waitCount_of_ready hready
    simp only [runLine, hcnt, need_some]
    unfold sampleRxLines
    simp only []
    split
    · refine goto_keeps (by exact ⟨hc.1, hc.2, hc.3, hc.4, hc.5, hc.6⟩) hb he rfl
        (Reaches.atOutside ?_ (noByte rfl) hlaid)
      exact hR.succ hp rfl rfl rfl rfl (leaves_mono id id id id (fun _ => rfl)) (.inl rfl) rfl rfl
    · refine ⟨_, rfl, stateInv_lowSample (i := i) (l := .waitRx) (by exact ⟨hc.1, hc.2, hc.3, hc.4, hc.5, hc.6⟩) hb he
        (hR.lineInv hp rfl (.inr (noByte rfl)) |>.of_same rfl rfl rfl rfl rfl rfl) (by simp [SeqLine.ready])⟩
  | hbRead =>
    simp only [laidOut, Bool.and_eq_true, decide_eq_true_eq] at hlaid
    obtain ⟨⟨⟨h1, h2⟩, h3⟩, h4⟩ := hlaid
    have hr : insideLoop s.work = true := hready
    obtain ⟨x, hx⟩ := Option.isSome_iff_exists.1 (setsIdx_isSome h2 hR.left)
    simp only [runLine, bufferIndex, hx, Option.map_some, need_some]
    refine goto_keeps (by exact ⟨hc.1, hc.2, hc.3, hc.4, hc.5, hc.6⟩) hb he rfl
      (Reaches.atSecond ?_ h3 rfl (by simpa [SeqLine.ready, insideLoop, hx] using hr))
    exact hR.succ hp rfl rfl rfl rfl (leaves_mono id id (fun _ => rfl) id id) (.inl rfl) rfl rfl
  | fifoRead =>
    simp only [laidOut, Bool.and_eq_true, decide_eq_true_eq] at hlaid
    obtain ⟨⟨⟨h1, h2⟩, h3⟩, h4⟩ := hlaid
    have hr : insideLoop s.work = true := hready
    refine goto_keeps (s := { spiRead 0x00 s with work := { s.work with byte := some (radioAnswer s) } })
      ⟨hc.1, rfl, hc.3, hc.4, hc.5, hc.6⟩ hb he rfl
      (Reaches.atSecond ?_ h3 rfl (by simpa [SeqLine.ready, insideLoop] using hr))
    exact hR.succ hp rfl rfl rfl rfl (leaves_mono id id id id id) (.inl rfl) rfl rfl
  | fifoWrite =>
    simp only [laidOut, Bool.and_eq_true, decide_eq_true_eq] at hlaid
    simp only [SeqLine.ready, Bool.and_eq_true] at hready
    obtain ⟨b, hbb⟩ := Option.isSome_iff_exists.1 hready.2
    obtain ⟨x, hx⟩ := idx_of_insideLoop hready.1
    simp only [runLine, hbb, hx, need_some]
    obtain ⟨m, rfl⟩ : ∃ m, n = m + 1 := ⟨n - 1, by omega⟩
    simp only [Nat.add_sub_cancel] at hlaid ⊢
    exact goto_keeps (by exact ⟨hc.1, rfl, hc.3, hc.4, hc.5, hc.6⟩) hb he rfl
      (hR.nextPair hlaid.2 rfl rfl rfl rfl rfl rfl rfl)
  | hbWrite =>
    simp only [laidOut, Bool.and_eq_true, decide_eq_true_eq] at hlaid
    simp only [SeqLine.ready, Bool.and_eq_true] at hready
    obtain ⟨b, hbb⟩ := Option.isSome_iff_exists.1 hready.2
    obtain ⟨x, hx⟩ := idx_of_insideLoop hready.1
    simp only [runLine, bufferIndex, hx, Option.map_some, hbb, need_some]
    obtain ⟨m, rfl⟩ : ∃ m, n = m + 1 := ⟨n - 1, by omega⟩
    simp only [Nat.add_sub_cancel] at hlaid ⊢
    exact goto_keeps (by exact ⟨hc.1, hc.2, Memory.wf_write hc.3 _ _, hc.4, hc.5, hc.6⟩) hb he rfl
      (hR.nextPair hlaid.2 rfl rfl rfl rfl rfl rfl rfl)
  | complete e =>
    cases e with
    | plain =>
      simp only [laidOut, Bool.and_eq_true, decide_eq_true_eq] at hlaid
      exact ⟨_, rfl, stateInv_complete hc (.inr (hR.shadow _ hlaid.2))⟩
    | initDone =>
      simp only [laidOut, Bool.and_eq_true, decide_eq_true_eq] at hlaid
      exact ⟨_, rfl, stateInv_complete ⟨hc.1, hc.2, hc.3, hc.4, hc.5, hc.6⟩ (.inr (hR.shadow _ hlaid.2))⟩
    | standby =>
      exact ⟨_, rfl, stateInv_complete ⟨hc.1, hc.2, hc.3, hc.4, hc.5, hc.6⟩ (.inr rfl)⟩
    | outcome =>
      simp only [laidOut, Bool.and_eq_true, decide_eq_true_eq] at hlaid
      obtain ⟨⟨⟨-, h1⟩, h2⟩, h3⟩ := hlaid
      obtain ⟨x, hx⟩ := Option.isSome_iff_exists.1 (setsWhich_isSome h1 hR.left)
      obtain ⟨f, hf⟩ := Option.isSome_iff_exists.1 (setsFlags_isSome h2 hR.left)
      simp only [runLine, finish, hx, hf, need_some]
      exact ⟨_, rfl, stateInv_complete ⟨hc.1, hc.2, hc.3, hc.4, hc.5, hc.6⟩ (.inr (hR.shadow _ h3))⟩
    | rxLen =>
      simp only [laidOut, Bool.and_eq_true, decide_eq_true_eq] at hlaid
      obtain ⟨⟨-, h1⟩, h3⟩ := hlaid
      obtain ⟨x, hx⟩ := Option.isSome_iff_exists.1 (setsLen_isSome h1 hR.left)
      simp only [runLine, finish, hx, need_some]
      exact ⟨_, rfl, stateInv_complete ⟨hc.1, hc.2, hc.3, hc.4, hc.5, hc.6⟩ (.inr (hR.shadow _ h3))⟩

/-- A command that passes its decode checks is well formed (R69). -/
theorem wf_of_decodeCheck {i : Instr} {s : State} (hd : decodeHcmd s.seqCmd = .ok i) (h : decodeCheck i s.initDone = none) : i.wf = true := by
  cases i <;> simp_all [decodeCheck, Instr.wf, firstError, initGate, indexGate]
  all_goals (try (split at h <;> simp_all))
  all_goals (simp [decodeHcmd, noOperand] at hd; split at hd <;> (try split at hd) <;> cases hd)

/-- So does the step at the decode checks. -/
theorem check_keeps {s : State} {i} (hi : StateInv s) (hs : s.seq = .run .check) (hd : decodeHcmd s.seqCmd = .ok i) :
    ∃ t, exec i s = .next t ∧ StateInv t := by
  have hcmd := isCommand_of_decodeHcmd hd
  have hb : s.busy = true := hi.busyRun.2 (by simp [hs])
  have he : s.err = .none := hi.errNone (by simp [hs])
  have hc := InvCore.of_inv hi
  obtain ⟨hm, hw⟩ := hi.resting (.inr hs)
  rw [exec_command hcmd]
  cases hk : decodeCheck i s.initDone with
  | some e => exact ⟨_, runCommand_rejects hs rfl, stateInv_raiseError hc (.inr hm)⟩
  | none =>
    rw [runCommand_enters hs rfl]
    have hwf := wf_of_decodeCheck hd hk
    have hR : Reaches (enter i s) i 0 := by
      refine ⟨?_, hwf, rfl, ?_, ?_, ?_, ?_⟩
      · cases i <;> exact hd
      · rintro k rfl; rfl
      · cases i <;> simp_all [enter, decodeCheck, initGate, firstError] <;> (try (split at hk <;> simp_all))
      · intro r hr; simp [lastMode] at hr
      · rintro rfl; rfl
    have hp : (enter i s).params = s.params := by cases i <;> rfl
    refine goto_keeps (s := enter i s) ?_ ?_ ?_ (by rw [hp]) (hR.atStart ?_)
    · cases i <;> exact ⟨hc.1, hc.2, hc.3, hc.4, hc.5, hc.6⟩
    · cases i <;> exact hb
    · cases i <;> exact he
    · cases i <;> simp [enter, hw, Work.noValue]

/-- Acceptance (R67) keeps the invariant. -/
theorem accept_keeps {s : State} {w} (hi : InvCore s) (hm : restMode s.mode) : StateInv (accept w s) where
  busyRun := by simp
  command := rfl
  nssHigh := hi.nssHigh
  buffer := hi.buffer
  racedOnce := List.nodup_nil
  params := hi.params
  noLone := hi.noLone
  resting := fun _ => ⟨hm, rfl⟩
  errNone := by simp
  lines := by simp

/-- A change to nothing but OVR, HB, what has raced, the history, the queues and the draws keeps the invariant. -/
theorem StateInv.of_same {s t : State} (hi : StateInv s) (hc : InvCore t) (hbusy : t.busy = s.busy) (hseq : t.seq = s.seq)
    (herr : t.err = s.err) (hcmd : t.seqCmd = s.seqCmd) (hpar : t.params = s.params) (hwork : t.work = s.work)
    (hinit : t.initDone = s.initDone) (hmode : t.mode = s.mode) (hout : t.outcome = s.outcome) : StateInv t where
  busyRun := by rw [hbusy, hseq]; exact hi.busyRun
  command := hc.command
  nssHigh := hc.nssHigh
  buffer := hc.buffer
  racedOnce := hc.racedOnce
  params := hc.params
  noLone := hc.noLone
  resting := by rw [hseq, hmode, hwork]; exact hi.resting
  errNone := by rw [hseq, herr]; exact hi.errNone
  lines := fun n a h => by
    obtain ⟨i, l, hl⟩ := hi.lines n a (hseq ▸ h)
    exact ⟨i, l, hl.of_same hcmd hpar hwork hinit hmode hout⟩

/-- Whatever the host does keeps the invariant. -/
theorem hostAct_keeps {s : State} (a) (hi : StateInv s) : StateInv (hostAct a s) := by
  have hc := InvCore.of_inv hi
  cases a with
  | turn => exact hi
  | write j w =>
    simp only [hostAct, windowWrite]
    split
    · split
      · exact hi.of_same ⟨hc.1, hc.2, hc.3, hc.4, hc.5, hc.6⟩ rfl rfl rfl rfl rfl rfl rfl rfl rfl
      · rename_i hb
        have : s.seq = .idle := by
          by_contra hh; exact hb (hi.busyRun.2 hh)
        exact accept_keeps hc (hi.resting (.inl this)).1
    · exact hi
  | read j => exact hi.of_same ⟨hc.1, hc.2, hc.3, hc.4, hc.5, hc.6⟩ rfl rfl rfl rfl rfl rfl rfl rfl rfl
  | store j b =>
    refine hi.of_same ⟨hc.1, hc.2, Memory.wf_write hc.3 _ _, ?_, hc.5, hc.6⟩ rfl rfl rfl rfl rfl rfl rfl rfl rfl
    simp only [hostAct, hostStore]
    split
    next h =>
      simp only [Bool.and_eq_true, Bool.not_eq_true', List.contains_eq_mem, decide_eq_false_iff_not] at h
      exact List.nodup_cons.2 ⟨h.2, hc.4⟩
    · exact hc.4
  | load j =>
    simp only [hostAct, hostLoad]
    split <;> exact hi.of_same ⟨hc.1, hc.2, hc.3, hc.4, hc.5, hc.6⟩ rfl rfl rfl rfl rfl rfl rfl rfl rfl
  | reset => exact stateInv_idle ⟨rfl, rfl, hc.buffer, List.nodup_nil, hc.params, rfl⟩ rfl rfl (.inl rfl) rfl

/-- Taking the turn from the queue keeps the invariant. -/
theorem takeTurn_keeps {s : State} (hi : StateInv s) : StateInv (takeTurn s) := by
  have hc := InvCore.of_inv hi
  rw [takeTurn_of_no_lone hi.noLone]
  exact hi.of_same ⟨hc.1, hc.2, hc.3, hc.4, hc.5, hc.6⟩ rfl rfl rfl rfl rfl rfl rfl rfl rfl

end Sys2Proof.Machine
end

