-- ==== Sys2Proof/Laws/PerInstr.lean ====
section
/-! SUPPORT. Statements about every instruction as syntax, one lemma per constructor. -/

namespace Sys2Proof.Laws.OpcodeRow

/-- The `mask` of the instruction's row in the opcode table. -/
def mask : Instr → HalfWord
  | .init => 0xFFFF
  | .send _ => 0xFF00
  | .receive => 0xFFFF
  | .getPacket => 0xFFFF
  | .changeChannel _ => 0xFF00
  | .changeDatarate _ => 0xFF00
  | .rd _ => 0x80FF
  | .wr _ _ => 0x8000

/-- The `match` value of the instruction's row in the opcode table. -/
def value : Instr → HalfWord
  | .init => 0x0100
  | .send _ => 0x0200
  | .receive => 0x0300
  | .getPacket => 0x0400
  | .changeChannel _ => 0x0500
  | .changeDatarate _ => 0x0600
  | .rd _ => 0x0000
  | .wr _ _ => 0x8000

/-- The instruction's word has the fixed bits of its row. -/
def Statement (i : Instr) : Prop := encode i &&& mask i = value i

theorem init : Statement .init := by simp only [Statement]; decide

theorem send (n : Byte) : Statement (.send n) := by
  revert n; simp only [Statement, encode, mask, value]; decide

theorem receive : Statement .receive := by simp only [Statement]; decide

theorem getPacket : Statement .getPacket := by simp only [Statement]; decide

theorem changeChannel (k : Byte) : Statement (.changeChannel k) := by
  revert k; simp only [Statement, encode, mask, value]; decide

theorem changeDatarate (k : Byte) : Statement (.changeDatarate k) := by
  revert k; simp only [Statement, encode, mask, value]; decide

theorem rd (a : RegAddr) : Statement (.rd a) := by
  revert a; simp only [Statement, encode, mask, value]; decide

theorem wrMask_low : ∀ j : Fin 15, (0x8000#16).getLsbD j = false := by decide

theorem wr (a : RegAddr) (v : Byte) : Statement (.wr a v) := by
  simp only [Statement, encode, mask, value]
  ext i hi
  simp only [BitVec.getElem_and, BitVec.getElem_append]
  by_cases h15 : i < 15
  · have low := wrMask_low ⟨i, h15⟩
    rw [BitVec.getLsbD_eq_getElem hi] at low
    simp [low]
  · obtain rfl : i = 15 := by omega
    simp

end Sys2Proof.Laws.OpcodeRow
end

