-- ==== Sys2Proof/Laws/Runs.lean ====
section
/-! SUPPORT. Runs of one command over several steps: straight-line stretches, the waits (R102, R103) and the byte loops (R120, R122). -/

namespace Sys2Proof.Machine

/-- A line that answers a next state, then the rest of the run. -/
theorem execSteps_line {i : Instr} {s t : State} {n k : Nat} {again : Bool} {l : SeqLine}
    (hs : s.seq = .run (.line n again)) (hl : (program i s.params)[n]? = some l)
    (h : runLine (program i s.params) n again l s = .next t) : execSteps i (k + 1) s = execSteps i k t :=
  execSteps_succ ((exec_line hs hl).trans h)

theorem takeLevels_cons {s : State} {l : Levels} {ls : List Levels} (h : s.lineIn = l :: ls) :
    s.takeLevels = { s with lineIn := ls } := by
  simp [State.takeLevels, h]

theorem takeAnswer_cons {s : State} {v : Byte} {vs : List Byte} (h : s.misoIn = v :: vs) :
    s.takeAnswer = { s with misoIn := vs } := by
  simp [State.takeAnswer, h]

/-- A low sample below the bound: the wait goes on at the same line. -/
theorem exec_wait_low {i : Instr} {s : State} {n c : Nat} {again : Bool} {L : WaitLine} {l : Levels} {ls : List Levels}
    (hs : s.seq = .run (.line n again)) (hp : (program i s.params)[n]? = some (.wait L)) (hq : s.lineIn = l :: ls)
    (hc : waitCount again s.work = some c) (hl : l.of L = false)
    (hb : waitExpired s.params.waitBound (c + 1) = false) :
    exec i s = .next
      { s with
        seq := .run (.line n true), lineIn := ls, work := { s.work with waitCnt := some (c + 1) }
        history := s.history ++ [.sample L false] } := by
  rw [exec_line hs hp]
  simp [runLine, hc, sampleLine, lowSample, levelsNow_cons hq, hl, takeLevels_cons hq, hb, State.record]

/-- A high sample: T_WAITCNT stays and the next line is reached. -/
theorem exec_wait_high {i : Instr} {s : State} {n c : Nat} {again : Bool} {L : WaitLine} {l : Levels} {ls : List Levels}
    (hs : s.seq = .run (.line n again)) (hp : (program i s.params)[n]? = some (.wait L)) (hq : s.lineIn = l :: ls)
    (hc : waitCount again s.work = some c) (hl : l.of L = true) :
    exec i s = .next
      { s with
        seq := .run (.line (n + 1) false), lineIn := ls, work := { s.work with waitCnt := some c }
        history := s.history ++ [.sample L true] } := by
  rw [exec_line hs hp]
  have lands := lands_after_wait hp (.inl ⟨_, rfl⟩)
  simp [runLine, hc, sampleLine, levelsNow_cons hq, hl, takeLevels_cons hq, goto_of_lands lands, State.record, State.atLine]

/-- Low samples below the bound, at any position of a wait: it stands at the same line, having counted them (R102). -/
theorem execSteps_wait_lows {i : Instr} {n : Nat} {L : WaitLine} (lows : List Levels) {s : State} {c : Nat} {again : Bool}
    {rest : List Levels} (hs : s.seq = .run (.line n again)) (hp : (program i s.params)[n]? = some (.wait L))
    (hq : s.lineIn = lows ++ rest) (hc : waitCount again s.work = some c) (hl : ∀ l ∈ lows, l.of L = false)
    (hb : ∀ b, s.params.waitBound = some b → c + lows.length < b) (hne : lows ≠ []) :
    execSteps i lows.length s = .next
      { s with
        seq := .run (.line n true), lineIn := rest, work := { s.work with waitCnt := some (c + lows.length) }
        history := s.history ++ List.replicate lows.length (.sample L false) } := by
  induction lows generalizing s c again with
  | nil => exact absurd rfl hne
  | cons l ls ih =>
    have low : waitExpired s.params.waitBound (c + 1) = false := by
      unfold waitExpired
      split
      · rfl
      next b hbb => have := hb b hbb; simp only [List.length_cons] at this; simp; omega
    rw [List.length_cons,
      execSteps_succ (exec_wait_low hs hp hq hc (hl l (List.mem_cons_self ..)) low)]
    cases ls with
    | nil => simp at hq ⊢
    | cons l' ls =>
      refine Eq.trans (ih (c := c + 1) (again := true) rfl hp rfl rfl (fun x hx => hl x (List.mem_cons_of_mem _ hx))
        (fun b hbb => by have := hb b hbb; simp only [List.length_cons] at this ⊢; omega) (by simp)) ?_
      simp [List.replicate_succ, Nat.add_assoc, Nat.add_comm 1]

/-- A whole `WaitHigh(L)` that ends (R102): low samples, fewer than a natural bound, then a high one. T_WAITCNT is their number. -/
theorem execSteps_wait {i : Instr} {n : Nat} {L : WaitLine} {lows : List Levels} {last : Levels} {s : State}
    {rest : List Levels} (hs : s.seq = .run (.line n false)) (hp : (program i s.params)[n]? = some (.wait L))
    (hq : s.lineIn = lows ++ last :: rest) (hl : ∀ l ∈ lows, l.of L = false) (hh : last.of L = true)
    (hb : ∀ b, s.params.waitBound = some b → lows.length < b) :
    execSteps i (lows.length + 1) s = .next
      { s with
        seq := .run (.line (n + 1) false), lineIn := rest, work := { s.work with waitCnt := some lows.length }
        history := s.history ++ (lows.map (fun _ => Event.sample L false) ++ [.sample L true]) } := by
  cases lows with
  | nil => rw [List.length_nil, Nat.zero_add, execSteps_succ (exec_wait_high hs hp hq rfl hh)]; rfl
  | cons l ls =>
    refine (execSteps_add (execSteps_wait_lows (l :: ls) (c := 0) hs hp hq rfl hl
      (fun b hbb => by have := hb b hbb; omega) (by simp))).trans ?_
    refine (execSteps_one ..).trans (Eq.trans (exec_wait_high (again := true) rfl hp rfl rfl hh) ?_)
    simp [List.map_const', List.append_assoc, List.replicate_succ]

/-- A `WaitRx` sample with both lines low, below the bound. -/
theorem exec_waitRx_low {i : Instr} {s : State} {n c : Nat} {again : Bool} {l : Levels} {ls : List Levels}
    (hs : s.seq = .run (.line n again)) (hp : (program i s.params)[n]? = some .waitRx) (hq : s.lineIn = l :: ls)
    (hc : waitCount again s.work = some c) (hd : l.rxDone = false) (ht : l.rxTimeout = false)
    (hb : waitExpired s.params.waitBound (c + 1) = false) :
    exec i s = .next
      { s with
        seq := .run (.line n true), lineIn := ls, work := { s.work with waitCnt := some (c + 1) }
        history := s.history ++ [.sampleRx false false] } := by
  rw [exec_line hs hp]
  simp [runLine, hc, sampleRxLines, lowSample, levelsNow_cons hq, hd, ht, rxWinner, takeLevels_cons hq, hb, State.record]

/-- A `WaitRx` sample with a line high: DONE wins a tie, T_WAITCNT stays, and the next line is reached. -/
theorem exec_waitRx_ends {i : Instr} {s : State} {n c : Nat} {again : Bool} {l : Levels} {ls : List Levels} {x : RxLine}
    (hs : s.seq = .run (.line n again)) (hp : (program i s.params)[n]? = some .waitRx) (hq : s.lineIn = l :: ls)
    (hc : waitCount again s.work = some c) (hx : rxWinner l.rxDone l.rxTimeout = some x) :
    exec i s = .next
      { s with
        seq := .run (.line (n + 1) false), lineIn := ls, history := s.history ++ [.sampleRx l.rxDone l.rxTimeout]
        work := { s.work with waitCnt := some c, which := some x } } := by
  rw [exec_line hs hp]
  have lands := lands_after_wait hp (.inr rfl)
  simp [runLine, hc, sampleRxLines, levelsNow_cons hq, hx, takeLevels_cons hq, goto_of_lands lands, State.record,
    State.atLine]

/-- Samples of `WaitRx` with both lines low, below the bound (R103). -/
theorem execSteps_waitRx_lows {i : Instr} {n : Nat} (lows : List Levels) {s : State} {c : Nat} {again : Bool}
    {rest : List Levels} (hs : s.seq = .run (.line n again)) (hp : (program i s.params)[n]? = some .waitRx)
    (hq : s.lineIn = lows ++ rest) (hc : waitCount again s.work = some c)
    (hl : ∀ l ∈ lows, l.rxDone = false ∧ l.rxTimeout = false)
    (hb : ∀ b, s.params.waitBound = some b → c + lows.length < b) (hne : lows ≠ []) :
    execSteps i lows.length s = .next
      { s with
        seq := .run (.line n true), lineIn := rest, work := { s.work with waitCnt := some (c + lows.length) }
        history := s.history ++ List.replicate lows.length (.sampleRx false false) } := by
  induction lows generalizing s c again with
  | nil => exact absurd rfl hne
  | cons l ls ih =>
    have low : waitExpired s.params.waitBound (c + 1) = false := by
      unfold waitExpired
      split
      · rfl
      next b hbb => have := hb b hbb; simp only [List.length_cons] at this; simp; omega
    obtain ⟨hd, ht⟩ := hl l (List.mem_cons_self ..)
    rw [List.length_cons, execSteps_succ (exec_waitRx_low hs hp hq hc hd ht low)]
    cases ls with
    | nil => simp at hq ⊢
    | cons l' ls =>
      refine Eq.trans (ih (c := c + 1) (again := true) rfl hp rfl rfl (fun x hx => hl x (List.mem_cons_of_mem _ hx))
        (fun b hbb => by have := hb b hbb; simp only [List.length_cons] at this ⊢; omega) (by simp)) ?_
      simp [List.replicate_succ, Nat.add_assoc, Nat.add_comm 1]

/-- A whole `WaitRx()` that ends (R103). -/
theorem execSteps_waitRx {i : Instr} {n : Nat} {lows : List Levels} {last : Levels} {s : State} {x : RxLine}
    {rest : List Levels} (hs : s.seq = .run (.line n false)) (hp : (program i s.params)[n]? = some .waitRx)
    (hq : s.lineIn = lows ++ last :: rest) (hl : ∀ l ∈ lows, l.rxDone = false ∧ l.rxTimeout = false)
    (hx : rxWinner last.rxDone last.rxTimeout = some x)
    (hb : ∀ b, s.params.waitBound = some b → lows.length < b) :
    execSteps i (lows.length + 1) s = .next
      { s with
        seq := .run (.line (n + 1) false), lineIn := rest
        work := { s.work with waitCnt := some lows.length, which := some x }
        history := s.history ++
          (lows.map (fun _ => Event.sampleRx false false) ++ [.sampleRx last.rxDone last.rxTimeout]) } := by
  cases lows with
  | nil => rw [List.length_nil, Nat.zero_add, execSteps_succ (exec_waitRx_ends hs hp hq rfl hx)]; rfl
  | cons l ls =>
    refine (execSteps_add (execSteps_waitRx_lows (l :: ls) (c := 0) hs hp hq rfl hl
      (fun b hbb => by have := hb b hbb; omega) (by simp))).trans ?_
    refine (execSteps_one ..).trans (Eq.trans (exec_waitRx_ends (again := true) rfl hp rfl rfl hx) ?_)
    simp [List.map_const', List.append_assoc, List.replicate_succ]

/-- A stretch of writes of known values, performed one after the other. -/
theorem execSteps_writes {i : Instr} (ws : List (RegAddr × Byte)) {s : State} {n : Nat} (k : Nat)
    (hs : s.seq = .run (.line n false))
    (hp : ∀ j a v, ws[j]? = some (a, v) → (program i s.params)[n + j]? = some (.wr a (.value v)))
    (hl : landsAt (program i s.params) (n + ws.length) = true) :
    ∃ p : SpiPort, (ws ≠ [] ∨ s.port.nss = true → p.nss = true) ∧
      execSteps i (ws.length + k) s = execSteps i k
        { s with
          seq := .run (.line (n + ws.length) false), port := p
          history := s.history ++ ws.map (fun w => Event.wr w.1 w.2) } := by
  induction ws generalizing s n with
  | nil =>
    refine ⟨s.port, fun h => h.resolve_left (absurd rfl), ?_⟩
    have : s = { s with seq := .run (.line (n + 0) false), history := s.history ++ [] } := by
      rw [List.append_nil, Nat.add_zero, ← hs]
    simp only [List.length_nil, List.map_nil, Nat.zero_add]
    exact congrArg _ this
  | cons w ws ih =>
    obtain ⟨a, v⟩ := w
    have hnext : landsAt (program i s.params) (n + 1) = true := by
      cases ws with
      | nil => exact hl
      | cons w ws =>
        have := hp 1 w.1 w.2 rfl
        simp [landsAt, this]
    have one : exec i s = .next { spiWrite a v s with seq := .run (.line (n + 1) false) } := by
      rw [exec_line hs (hp 0 a v rfl)]
      exact goto_of_lands hnext _
    obtain ⟨p, hpn, run⟩ := ih (s := { spiWrite a v s with seq := .run (.line (n + 1) false) }) (n := n + 1) rfl
      (fun j a v h => by rw [show n + 1 + j = n + (j + 1) by omega]; exact hp (j + 1) a v h)
      (by rw [show n + 1 + ws.length = n + (ws.length + 1) by omega]; exact hl)
    refine ⟨p, fun _ => hpn (.inr rfl), ?_⟩
    rw [List.length_cons, show ws.length + 1 + k = ws.length + k + 1 by omega, execSteps_succ one, run]
    rw [show n + 1 + ws.length = n + (ws.length + 1) by omega]
    simp [spiWrite, List.append_assoc]

/-! ### The byte loops -/

/-- What reaching the test of a byte loop leads to, with T_IDX = j and T_LEN = len (R120, R122). -/
theorem goto_loop {prog : List SeqLine} {n : Nat} {s : State} {j : BitVec 9} {len : Byte}
    (h : prog[n]? = some .hbRead ∨ prog[n]? = some .fifoRead) (hj : s.work.idx = some j) (hlen : s.work.len = some len) :
    goto prog n s = .next (s.atLine (if len.toNat ≤ j.toNat then n + 2 else n)) := by
  apply goto_of_arrive
  rcases h with h | h <;> simp [arrive, h, loopTest, loopDone, hj, hlen]

/-- The first step of SEND_PAYLOAD's pair, at a byte that did not race (R120, R55). -/
theorem exec_hbRead {i : Instr} {s : State} {n : Nat} {again : Bool} {x : Byte} (hs : s.seq = .run (.line n again))
    (hp : (program i s.params)[n]? = some .hbRead) (hp' : (program i s.params)[n + 1]? = some .fifoWrite)
    (hx : bufferIndex s.work = some x) (hr : x ∉ s.raced) :
    exec i s = .next
      { s with
        seq := .run (.line (n + 1) false), work := { s.work with byte := some (s.hb.read x.toNat) }
        history := s.history ++ [.hbRd x (s.hb.read x.toNat)] } := by
  rw [exec_line hs hp]
  have lands : landsAt (program i s.params) (n + 1) = true := by simp [landsAt, hp']
  simp only [runLine, hx, need_some, bufferByte_of_not_raced hr, takeByte_of_not_raced hr, goto_of_lands lands]
  rfl

/-- The second step (R120): the byte goes to the FIFO and the loop's test is reached. -/
theorem exec_fifoWrite {i : Instr} {s : State} {n : Nat} {again : Bool} {b : Byte} {j : BitVec 9}
    (hs : s.seq = .run (.line n again)) (hp : (program i s.params)[n]? = some .fifoWrite) (hb : s.work.byte = some b)
    (hj : s.work.idx = some j) :
    exec i s = goto (program i s.params) (n - 1) { spiWrite 0x00 b s with work := nextIndex j s.work } := by
  rw [exec_line hs hp]
  simp only [runLine, hb, hj, need_some]

/-- The first step of RECEIVE_PAYLOAD's pair (R122). -/
theorem exec_fifoRead {i : Instr} {s : State} {n : Nat} {again : Bool} (hs : s.seq = .run (.line n again))
    (hp : (program i s.params)[n]? = some .fifoRead) (hp' : (program i s.params)[n + 1]? = some .hbWrite) :
    exec i s = .next
      { spiRead 0x00 s with seq := .run (.line (n + 1) false), work := { s.work with byte := some (radioAnswer s) } } := by
  rw [exec_line hs hp]
  have lands : landsAt (program i s.params) (n + 1) = true := by simp [landsAt, hp']
  exact goto_of_lands lands _

/-- The second step (R122): the byte goes to the buffer and the loop's test is reached. -/
theorem exec_hbWrite {i : Instr} {s : State} {n : Nat} {again : Bool} {x b : Byte} {j : BitVec 9}
    (hs : s.seq = .run (.line n again)) (hp : (program i s.params)[n]? = some .hbWrite)
    (hx : bufferIndex s.work = some x) (hb : s.work.byte = some b) (hj : s.work.idx = some j) :
    exec i s = goto (program i s.params) (n - 1)
      { s.record (.hbWr x b) with hb := s.hb.write x.toNat b, work := nextIndex j s.work } := by
  rw [exec_line hs hp]
  simp only [runLine, hx, hb, hj, need_some]

/-- The events of the bytes `j`, `j + 1`, … of a SEND (R120). -/
def sendEvents (m : Memory) (j d : Nat) : List Event :=
  (List.range' j d).flatMap fun x => [Event.hbRd (BitVec.ofNat 8 x) (m.read x), Event.wr 0x00 (m.read x)]

/-- The byte loop of SEND_PAYLOAD from T_IDX = j to its end at T_LEN = j + d (R120, R45), with no byte raced; T_LEN stays. -/
theorem execSteps_sendLoop {i : Instr} {n : Nat} (d : Nat) {s t : State} {j : BitVec 9} {len : Byte} (k : Nat)
    (h0 : (program i s.params)[n]? = some .hbRead) (h1 : (program i s.params)[n + 1]? = some .fifoWrite)
    (hj : s.work.idx = some j) (hlen : s.work.len = some len) (hd : j.toNat + d = len.toNat) (hn : s.port.nss = true)
    (hr : s.raced = []) (hg : goto (program i s.params) n s = .next t) :
    ∃ (p : SpiPort) (w : Work), p.nss = true ∧ w.len = some len ∧
      execSteps i (2 * d + k) t = execSteps i k
        { s with
          seq := .run (.line (n + 2) false), port := p, work := w
          history := s.history ++ sendEvents s.hb j.toNat d } := by
  rw [goto_loop (.inl h0) hj hlen] at hg
  obtain rfl := Host.Outcome.next.inj hg
  clear hg
  induction d generalizing s j with
  | zero =>
    refine ⟨s.port, s.work, hn, hlen, ?_⟩
    rw [if_pos (by omega)]
    simp [sendEvents, State.atLine]
  | succ d ih =>
    have hlt : len.toNat < 256 := len.isLt
    have hnat : (BitVec.ofNat 8 j.toNat).toNat = j.toNat := by simp; omega
    have hidx : bufferIndex s.work = some (BitVec.ofNat 8 j.toNat) := by
      simp only [bufferIndex, hj, Option.map_some, Option.some.injEq]
      apply BitVec.eq_of_toNat_eq; simp
    have hj1 : (j + 1).toNat = j.toNat + 1 := by rw [BitVec.toNat_add]; simp; omega
    have first := exec_hbRead (s := s.atLine n) (again := false) rfl h0 h1 hidx (by simp [hr])
    have second := Eq.trans (exec_fifoWrite (i := i) (n := n + 1) (again := false) (b := s.hb.read j.toNat) (j := j)
      (s := { s with
        seq := .run (.line (n + 1) false), work := { s.work with byte := some (s.hb.read j.toNat) }
        history := s.history ++ [.hbRd (BitVec.ofNat 8 j.toNat) (s.hb.read j.toNat)] }) rfl h1 rfl hj)
      (goto_loop (len := len) (j := j + 1) (.inl h0) rfl hlen)
    obtain ⟨p, w, hp, hw, run⟩ := ih (j := j + 1)
      (s := { spiWrite 0x00 (s.hb.read j.toNat)
          { s with
            seq := .run (.line (n + 1) false), work := { s.work with byte := some (s.hb.read j.toNat) }
            history := s.history ++ [.hbRd (BitVec.ofNat 8 j.toNat) (s.hb.read j.toNat)] } with
          work := nextIndex j { s.work with byte := some (s.hb.read j.toNat) } })
      h0 h1 rfl hlen (by omega) rfl hr
    refine ⟨p, w, hp, hw, ?_⟩
    rw [hnat] at first
    rw [if_neg (by omega), show 2 * (d + 1) + k = 2 * d + k + 1 + 1 by omega, execSteps_succ first]
    refine (execSteps_succ second).trans (run.trans ?_)
    rw [hj1]
    simp [sendEvents, spiWrite, State.record, List.range'_succ]

/-- The events of a GET_PACKET's bytes from index `j` on (R122). -/
def receiveEvents (j : Nat) (bytes : List Byte) : List Event :=
  bytes.zipIdx j |>.flatMap fun x => [Event.rd 0x00 x.1, Event.hbWr (BitVec.ofNat 8 x.2) x.1]

/-- The buffer after those bytes have been stored from index `j` on. -/
def storeFrom (m : Memory) (j : Nat) : List Byte → Memory
  | []      => m
  | b :: bs => storeFrom (m.write j b) (j + 1) bs

/-- What the buffer reads as after a run of bytes has been stored. -/
theorem read_storeFrom {m : Memory} (h : m.wf = true) (bytes : List Byte) (j : Nat) (hb : j + bytes.length ≤ 256)
    (x : Nat) :
    (storeFrom m j bytes).read x = if j ≤ x ∧ x < j + bytes.length then bytes.getD (x - j) 0 else m.read x := by
  induction bytes generalizing m j with
  | nil => simp [storeFrom]
  | cons b bs ih =>
    simp only [List.length_cons] at hb
    rw [storeFrom, ih (m := m.write j b) (Memory.wfFrom_write h (Nat.zero_le _) (by omega) b) _ (by omega),
      Memory.read_write h]
    simp only [List.length_cons]
    by_cases hx : x = j
    · subst hx; simp
    · by_cases hr : j + 1 ≤ x ∧ x < j + 1 + bs.length
      · rw [if_pos hr, if_pos (by omega), show x - j = (x - (j + 1)) + 1 by omega]; simp
      · rw [if_neg hr, if_neg (by omega), if_neg (by omega)]

/-- The byte loop of RECEIVE_PAYLOAD from T_IDX = j to its end at T_LEN = j + the number of bytes answered (R122, R45); T_LEN stays. -/
theorem execSteps_receiveLoop {i : Instr} {n : Nat} (bytes : List Byte) {s t : State} {j : BitVec 9} {len : Byte}
    {ps : List Byte} (k : Nat) (h0 : (program i s.params)[n]? = some .fifoRead)
    (h1 : (program i s.params)[n + 1]? = some .hbWrite) (hj : s.work.idx = some j) (hlen : s.work.len = some len)
    (hd : j.toNat + bytes.length = len.toNat) (hq : s.misoIn = bytes ++ ps) (hn : s.port.nss = true)
    (hg : goto (program i s.params) n s = .next t) :
    ∃ (p : SpiPort) (w : Work), p.nss = true ∧ w.len = some len ∧
      execSteps i (2 * bytes.length + k) t = execSteps i k
        { s with
          seq := .run (.line (n + 2) false), port := p, work := w, misoIn := ps
          hb := storeFrom s.hb j.toNat bytes
          history := s.history ++ receiveEvents j.toNat bytes } := by
  rw [goto_loop (.inr h0) hj hlen] at hg
  obtain rfl := Host.Outcome.next.inj hg
  clear hg
  induction bytes generalizing s j with
  | nil =>
    refine ⟨s.port, s.work, hn, hlen, ?_⟩
    simp only [List.length_nil, Nat.add_zero] at hd
    have hq' : s.misoIn = ps := hq
    rw [if_pos (by omega)]
    simp [receiveEvents, storeFrom, State.atLine, ← hq']
  | cons b bs ih =>
    simp only [List.length_cons] at hd
    have hlt : len.toNat < 256 := len.isLt
    have hnat : (BitVec.ofNat 8 j.toNat).toNat = j.toNat := by simp; omega
    have hidx : bufferIndex { s.work with byte := some b } = some (BitVec.ofNat 8 j.toNat) := by
      simp only [bufferIndex, hj, Option.map_some, Option.some.injEq]
      apply BitVec.eq_of_toNat_eq; simp
    have hj1 : (j + 1).toNat = j.toNat + 1 := by rw [BitVec.toNat_add]; simp; omega
    have first := exec_fifoRead (s := s.atLine n) (again := false) rfl h0 h1
    rw [radioAnswer_cons (s := s.atLine n) hq] at first
    have second := Eq.trans (exec_hbWrite (i := i) (n := n + 1) (again := false) (x := BitVec.ofNat 8 j.toNat) (b := b) (j := j)
      (s := { spiRead 0x00 (s.atLine n) with seq := .run (.line (n + 1) false), work := { s.work with byte := some b } })
      rfl h1 hidx rfl hj) (goto_loop (len := len) (j := j + 1) (.inr h0) rfl hlen)
    obtain ⟨p, w, hp, hw, run⟩ := ih (j := j + 1)
      (s := { State.record
            { spiRead 0x00 (s.atLine n) with seq := .run (.line (n + 1) false), work := { s.work with byte := some b } }
            (.hbWr (BitVec.ofNat 8 j.toNat) b) with
          hb := s.hb.write (BitVec.ofNat 8 j.toNat).toNat b, work := nextIndex j { s.work with byte := some b } })
      h0 h1 rfl hlen (by omega) (by simp [hq]) rfl
    refine ⟨p, w, hp, hw, ?_⟩
    rw [if_neg (by omega), List.length_cons, show 2 * (bs.length + 1) + k = 2 * bs.length + k + 1 + 1 by omega,
      execSteps_succ first]
    refine (execSteps_succ second).trans (run.trans ?_)
    rw [hj1, hnat]
    simp [receiveEvents, storeFrom, spiRead, State.record, radioAnswer, State.takeAnswer, State.atLine, hq]

end Sys2Proof.Machine
end

