-- ==== Sys2Proof/Tests/Slice0.lean ====
section
/-! SUPPORT. Tests from the spec's own tables and vectors, one step each, and for every obligation a state and operands that meet its hypotheses. -/

namespace Sys2Proof.Tests
open Sys2Proof.Machine Sys2Proof.Claims

/-! ### The states the tests start from -/

/-- A parameter record: the values are chosen for the tests (they are 00_scope.md section 4's reference column, which is no rule);
the wait bound is 2. -/
def params : Params where
  modeSleep := 0x00
  modeLoraSleep := 0x80
  modeStandby := 0x81
  modeTx := 0x83
  modeRxSingle := 0x86
  dioMapTx := 0x40
  dioMapRx := 0x00
  paMax := 0xFF
  paValue := 0xFF
  lnaBoost := 0x23
  syncWord := 0x34
  fifoTxBase := 0x80
  fifoRxBase := 0x00
  iqTx33 := 0x27
  iqTx3B := 0x1D
  iqRx33 := 0x67
  iqRx3B := 0x19
  fifoCapacity := 256
  waitBound := some 2
  spiFormat := { bitOrder := .msbFirst, cpol := false, cpha := false, clockRate := 0, sckIdle := false, mosiIdle := false }
  lineWiring := { modeReady := 5, txDone := 0, rxDone := 0, rxTimeout := 1 }

/-- Idle after a completed INIT: STATUS 0x0002, MODE STANDBY. -/
def idle : State where
  cmd := 0x0100
  busy := false
  initDone := true
  ovr := false
  err := .none
  outcome := .noMessage
  rxLen := 0x00
  mode := .requested .standby
  seq := .idle
  seqCmd := 0x0100
  work := .noValue
  port := { nss := true, sck := false, mosi := false, sent := [] }
  hb := []
  raced := []
  history := []
  params := params
  misoIn := []
  lineIn := []
  hostIn := []
  hostSeen := []
  draws := 0
  lone := none

/-- The command word `w` accepted, at its decode checks. -/
def atCheck (w : HalfWord) : State := { idle with cmd := w, seqCmd := w, busy := true, seq := .run .check }

/-- The command word `w` at line `n` of its pseudocode. -/
def atLine (w : HalfWord) (n : Nat) (work : Work) : State :=
  { idle with cmd := w, seqCmd := w, busy := true, seq := .run (.line n false), work := work }

/-- SEND 255 at its last HB read. -/
def sendAtRead : State :=
  { atLine 0x02FF 7 { Work.noValue with len := some 255, ptr := some 0x80, idx := some 254 } with hb := [(254, 0x7E)] }

/-- All four lines low; all four high. -/
def low : Levels := { modeReady := false, txDone := false, rxDone := false, rxTimeout := false }
def high : Levels := { modeReady := true, txDone := true, rxDone := true, rxTimeout := true }

/-- The outcome is a next state, and `p` holds of it. -/
def nextIs (o : Host.Outcome State Fault Refusal) (p : State → Bool) : Bool :=
  match o with
  | .next t    => p t
  | .fault _   => false
  | .refused _ => false

/-- The next state of an outcome that has one. -/
def after (o : Host.Outcome State Fault Refusal) (s : State) : State :=
  match o with
  | .next t => t
  | _       => s

theorem eq_next_after {o : Host.Outcome State Fault Refusal} (s : State) (h : nextIs o (fun _ => true) = true) :
    o = .next (after o s) := by
  cases o with
  | next t => rfl
  | fault f => cases h
  | refused r => cases h

/-! ### Well-formedness -/

/-- The boundaries of R62's index sets. -/
theorem test_wf_refuses_indices :
    (Instr.changeChannel 8).wf = false ∧ (Instr.changeChannel 15).wf = false ∧ (Instr.changeChannel 17).wf = false ∧
      (Instr.changeDatarate 7).wf = false := by decide

theorem test_wf_takes_indices :
    (Instr.changeChannel 7).wf = true ∧ (Instr.changeChannel 16).wf = true ∧ (Instr.changeDatarate 6).wf = true := by decide

/-- Accesses outside R28's column: 0x01 is written only, 0x10 read only, 0x41 neither. -/
theorem test_wf_refuses_accesses :
    (Instr.rd 0x01).wf = false ∧ (Instr.wr 0x10 0x00).wf = false ∧ (Instr.rd 0x41).wf = false ∧
      (Instr.wr 0x41 0x00).wf = false := by decide

theorem test_wf_takes_accesses : (Instr.rd 0x12).wf = true ∧ (Instr.wr 0x12 0xE0).wf = true := by decide

/-! ### Decoding: words written out from the encodings of 30_encoding.md section 5 and 95_test_vectors.md 1.4, 2.1, 2.2 -/

theorem test_decode_init : decodeHcmd 0b00000001_00000000#16 = .ok .init := by decide
theorem test_decode_send : decodeHcmd 0b00000010_10000001#16 = .ok (.send 129) := by decide
theorem test_decode_receive : decodeHcmd 0b00000011_00000000#16 = .ok .receive := by decide
theorem test_decode_getPacket : decodeHcmd 0b00000100_00000000#16 = .ok .getPacket := by decide
theorem test_decode_changeChannel : decodeHcmd 0b00000101_00010000#16 = .ok (.changeChannel 16) := by decide
theorem test_decode_changeDatarate : decodeHcmd 0b00000110_00000101#16 = .ok (.changeDatarate 5) := by decide

/-- `RD 0x0E` is the frame 0x0E00. -/
theorem test_decode_rd : decodeSpif 0b0_0001110_00000000#16 = .ok (.rd 0x0E) := by decide

/-- `WR 0x40, v` sends C0: bit 6 of the address survives. -/
theorem test_decode_wr : decodeSpif 0b1_1000000_01011010#16 = .ok (.wr 0x40 0x5A) := by decide

/-- Unassigned opcodes and a non-zero ARG (2.1); a read frame with a non-zero second byte. -/
theorem test_decode_refuses :
    decodeHcmd 0x0000 = .error .unassignedOpcode ∧ decodeHcmd 0x0700 = .error .unassignedOpcode ∧
      decodeHcmd 0x0101 = .error .nonZeroArgument ∧ decodeHcmd 0x04FF = .error .nonZeroArgument ∧
      decodeSpif 0x1201 = .error .notEmitted := by decide

/-- An index out of its range is legal to decode (R63). -/
theorem test_decode_keeps_bad_index : decodeHcmd 0x0508 = .ok (.changeChannel 8) := by decide

/-- The table's eight rows, each at one word. -/
theorem test_decodeTableWord :
    decodeTableWord 16 0x0100 = some .init ∧ decodeTableWord 16 0x0203 = some (.send 3) ∧
      decodeTableWord 16 0x0300 = some .receive ∧ decodeTableWord 16 0x0400 = some .getPacket ∧
      decodeTableWord 16 0x0501 = some (.changeChannel 1) ∧ decodeTableWord 16 0x0606 = some (.changeDatarate 6) ∧
      decodeTableWord 16 0x1300 = some (.rd 0x13) ∧ decodeTableWord 16 0x92E0 = some (.wr 0x12 0xE0) := by decide

/-! ### A word placed where the next step is taken runs as the first step after reset -/

/-- INIT passes its checks after reset; the other commands are NOT_INIT (2.1, 2.8). -/
theorem test_first_step_init :
    nextIs (step (State.reset.withFetchWord 16 0x0100)) (fun t => t.seq = .run (.line 0 false) && !t.initDone) = true := by
  decide

theorem test_first_step_send :
    nextIs (step (State.reset.withFetchWord 16 0x0203))
      (fun t => t.err = .notInit && !t.busy && t.history = [.accept 0x0203, .done 0x0018]) = true := by decide

theorem test_first_step_rd :
    nextIs (step (State.reset.withFetchWord 16 0x0E00)) (fun t => t.port.sent = [0x0E, 0x00] && t.draws = 1) = true := by
  decide

theorem test_first_step_wr :
    nextIs (step (State.reset.withFetchWord 16 0x92E0))
      (fun t => t.port.sent = [0x92, 0xE0] && t.history = [.wr 0x12 0xE0]) = true := by decide

/-! ### One step of each instruction -/

/-- 1.4: RD 0x12 sends 12 00; the second MISO byte is the value. -/
theorem test_rd :
    nextIs (exec (.rd 0x12) { idle with misoIn := [0x60] })
      (fun t => t.port.sent = [0x12, 0x00] && t.history = [.rd 0x12 0x60] && t.port.nss) = true := by decide

/-- 2.2: WR 0x00, 0x00 sends 80 00. -/
theorem test_wr :
    nextIs (exec (.wr 0x00 0x00) idle) (fun t => t.port.sent = [0x80, 0x00] && t.history = [.wr 0x00 0x00]) = true := by
  decide

/-- 2.6: the mode write of step (2) is LoRa-Sleep, from the line after Sleep. -/
theorem test_init_loraSleep :
    nextIs (exec .init { atLine 0x0100 1 .noValue with initDone := false, mode := .requested .sleep })
      (fun t => t.history = [.wr 0x01 0x80] && t.mode = .requested .loraSleep && t.seq = .run (.line 2 false)) = true := by
  decide

/-- 2.6: INIT's last step leaves STATUS 0x0002. -/
theorem test_init_done :
    nextIs (exec .init { atLine 0x0100 18 .noValue with initDone := false })
      (fun t => t.history = [.done 0x0002] && windowRead t 1 = 0x0002) = true := by decide

/-- 2.5: with n = 0 the loop is passed over: after Wr(0D, p) comes Wr(40, PDT). -/
theorem test_send_empty :
    nextIs (exec (.send 0) (atLine 0x0200 6 { Work.noValue with len := some 0, ptr := some 0x5A }))
      (fun t => t.history = [.wr 0x0D 0x5A] && t.seq = .run (.line 9 false)) = true := by decide

/-- 2.5: the second HB read of SEND 2 takes HB[1]. -/
theorem test_send_reads_in_order :
    nextIs (exec (.send 2)
        { atLine 0x0202 7 { Work.noValue with len := some 2, idx := some 1 } with hb := [(0, 0x11), (1, 0x22)] })
      (fun t => t.history = [.hbRd 1 0x22] && t.work.byte = some 0x22) = true := by decide

/-- R32: the second step of a pair keeps no copy of the byte; 2.5: the write goes to the FIFO. -/
theorem test_send_keeps_no_byte :
    nextIs (exec (.send 2)
        (atLine 0x0202 8 { Work.noValue with len := some 2, idx := some 0, byte := some 0x11 }))
      (fun t => t.history = [.wr 0x00 0x11] && t.work.byte = none && t.seq = .run (.line 7 false)) = true := by decide

/-- R102: a wait that ends at its first sample leaves T_WAITCNT at 0, not at an earlier wait's count. -/
theorem test_wait_starts_at_zero :
    nextIs (exec .receive
        { atLine 0x0300 6 { Work.noValue with waitCnt := some 5 } with mode := .requested .rxSingle, lineIn := [high] })
      (fun t => t.work.waitCnt = some 0 && t.seq = .run (.line 7 false)) = true := by decide

/-- R24: the test of the byte loop reads T_LEN, and faults where it has no value. -/
theorem test_loop_test_faults :
    exec .getPacket (atLine 0x0400 4 { Work.noValue with ptr := some 0x00 }) = .fault .workingRegisterUnset := rfl

/-- R55: a host store while SEND runs reaches HB, and marks the byte for the NRC's later read. -/
theorem test_store_races :
    nextIs (step { sendAtRead with hostIn := [.store 254 0x3C] })
      (fun t => t.hb = [(254, 0x3C)] && t.raced = [254] && t.draws = 0) = true := by decide

/-- 2.4: both receive lines high at one sample gives DONE. -/
theorem test_receive_tie :
    nextIs (exec .receive { atLine 0x0300 7 .noValue with lineIn := [high] })
      (fun t => t.work.which = some .done && t.history = [.sampleRx true true]) = true := by decide

/-- 2.4: TIMEOUT with bit 5 set gives TIMEOUT, code 1. -/
theorem test_receive_outcome :
    nextIs (exec .receive (atLine 0x0300 10 { Work.noValue with which := some .timeout, flags := some 0xA0 }))
      (fun t => windowRead t 2 = 0x0001 && t.history = [.done 0x0002]) = true := by decide

/-- 2.5: HbWr(1, BB) stores the second byte and the loop ends at length 2. -/
theorem test_getPacket_writes :
    nextIs (exec .getPacket
        { atLine 0x0400 6 { Work.noValue with len := some 2, idx := some 1, byte := some 0xBB } with hb := [(0, 0xAA)] })
      (fun t => t.hb = [(0, 0xAA), (1, 0xBB)] && t.history = [.hbWr 1 0xBB] && t.seq = .run (.line 7 false)) = true := by
  decide

/-- 2.5: RX_LEN changes at the last step. -/
theorem test_getPacket_rxLen :
    nextIs (exec .getPacket (atLine 0x0400 7 { Work.noValue with len := some 0xFF })) (fun t => windowRead t 3 = 0x00FF) =
      true := by decide

/-- 2.1: 0x0508 after INIT is BAD_INDEX, Done(000A). -/
theorem test_changeChannel_bad :
    nextIs (exec (.changeChannel 8) (atCheck 0x0508)) (fun t => t.history = [.done 0x000A] && !t.busy) = true := by decide

/-- 2.3: channel 16 writes 61 to register 0x07. -/
theorem test_changeChannel_rx :
    nextIs (exec (.changeChannel 16) (atLine 0x0510 3 .noValue)) (fun t => t.port.sent = [0x87, 0x61]) = true := by decide

/-- 2.3: datarate 6 writes 82 to register 0x1D, second. -/
theorem test_changeDatarate :
    nextIs (exec (.changeDatarate 6) (atLine 0x0606 3 .noValue)) (fun t => t.port.sent = [0x9D, 0x82]) = true := by decide

/-- 2.1: NOT_INIT comes before BAD_INDEX. -/
theorem test_changeDatarate_order :
    nextIs (exec (.changeDatarate 255) { atCheck 0x06FF with initDone := false })
      (fun t => t.history = [.done 0x0018]) = true := by decide

/-- 2.4: bound 2, the second low sample is the last: WAIT_TIMEOUT, Done(0022), MODE UNKNOWN. -/
theorem test_wait_timeout :
    nextIs (exec (.send 1)
        { atLine 0x0201 12 { Work.noValue with waitCnt := some 1 } with
          seq := .run (.line 12 true), mode := .requested .tx, lineIn := [low] })
      (fun t => t.history = [.sample .txDone false, .done 0x0022] && t.mode = .unknown) = true := by decide

/-- 2.7: a word written while busy is dropped and flagged. -/
theorem test_overrun :
    nextIs (step { atLine 0x0100 3 .noValue with initDone := false, hostIn := [.write 0 0x0501] })
      (fun t => t.history = [.drop 0x0501] && windowRead t 1 = 0x0005 && t.seq = .run (.line 3 false)) = true := by decide

/-! ### Witnesses: states and operands that meet the obligations' hypotheses -/

/-- The parts of the invariant that hold of every state built here. -/
theorem core_atLine (w : HalfWord) (n : Nat) (work : Work) : InvCore (atLine w n work) :=
  ⟨rfl, rfl, rfl, List.nodup_nil, rfl, rfl⟩

theorem inv_idle : StateInv idle := stateInv_idle ⟨rfl, rfl, rfl, List.nodup_nil, rfl, rfl⟩ rfl rfl (.inr rfl) rfl

theorem inv_atCheck (w : HalfWord) : StateInv (atCheck w) where
  busyRun := by simp [atCheck]
  command := rfl
  nssHigh := rfl
  buffer := rfl
  racedOnce := List.nodup_nil
  params := rfl
  noLone := rfl
  resting := fun _ => ⟨.inr rfl, rfl⟩
  errNone := fun _ => rfl
  lines := by simp [atCheck]

/-- CHANGE_CHANNEL 0 at its first write and at its last line. -/
def channelAt (n : Nat) : State := atLine 0x0500 n .noValue

theorem inv_channelAt_first : StateInv (channelAt 2) :=
  stateInv_line (i := .changeChannel 0) (l := .wr 0x06 (.value 0xD9)) (core_atLine _ _ _) rfl rfl rfl
    ⟨rfl, rfl, rfl, rfl, rfl, by simp, by simp [channelAt, atLine, idle], by intro m h; cases h; rfl, .inr rfl, by simp⟩

theorem inv_channelAt_last : StateInv (channelAt 5) :=
  stateInv_line (i := .changeChannel 0) (l := .complete .plain) (core_atLine _ _ _) rfl rfl rfl
    ⟨rfl, rfl, rfl, rfl, rfl, by simp, by simp [channelAt, atLine, idle], by intro m h; cases h; rfl, .inr rfl, by simp⟩

/-- INIT at its second mode write. -/
def initAt : State := { atLine 0x0100 1 .noValue with initDone := false, mode := .requested .sleep }

theorem inv_initAt : StateInv initAt :=
  stateInv_line (i := .init) (l := .mode .loraSleep) ⟨rfl, rfl, rfl, List.nodup_nil, rfl, rfl⟩ rfl rfl rfl
    ⟨rfl, rfl, rfl, rfl, rfl, by simp, by simp [initAt], by intro m h; cases h; rfl, .inr rfl, by simp⟩

theorem inv_sendAtRead : StateInv sendAtRead :=
  stateInv_line (i := .send 255) (l := .hbRead) ⟨rfl, rfl, rfl, List.nodup_nil, rfl, rfl⟩ rfl rfl rfl
    ⟨rfl, rfl, rfl, rfl, rfl, by rintro k ⟨⟩; rfl, by simp [sendAtRead, atLine, idle], by intro m h; cases h; rfl, .inr rfl, by simp⟩

/-- The same SEND, its last byte raced: the host stored 0x3C into HB[254] after the command was accepted. -/
def sendRaced : State := { sendAtRead with hb := [(254, 0x3C)], raced := [254] }

theorem inv_sendRaced : StateInv sendRaced :=
  stateInv_line (i := .send 255) (l := .hbRead) ⟨rfl, rfl, rfl, by decide, rfl, rfl⟩ rfl rfl rfl
    ⟨rfl, rfl, rfl, rfl, rfl, by rintro k ⟨⟩; rfl, by simp [sendRaced, sendAtRead, atLine, idle],
      by intro m h; cases h; rfl, .inr rfl, by simp⟩

/-- GET_PACKET at its first HB write, of a packet of length 1. -/
def getAtWrite : State :=
  atLine 0x0400 6 { Work.noValue with len := some 1, ptr := some 0x00, idx := some 0, byte := some 0xAA }

theorem inv_getAtWrite : StateInv getAtWrite :=
  stateInv_line (i := .getPacket) (l := .hbWrite) (core_atLine _ _ _) rfl rfl rfl
    ⟨rfl, rfl, rfl, rfl, rfl, by simp, by simp [getAtWrite, atLine, idle], by intro m h; cases h; rfl, .inl rfl, by simp⟩

theorem witness_DecodeOfEncode :
    (Instr.changeChannel 16).wf = true ∧ (Instr.changeDatarate 6).wf = true ∧ (Instr.rd 0x00).wf = true ∧
      (Instr.wr 0x40 0xFF).wf = true ∧ (Instr.send 255).wf = true ∧ Instr.init.wf = true := by decide

theorem witness_EncodeOfDecode :
    decodeHcmd 0x02FF = .ok (.send 255) ∧ decodeSpif 0xFFFF = .ok (.wr 0x7F 0xFF) ∧ decodeSpif 0x0000 = .ok (.rd 0x00) := by
  decide

theorem witness_RdCompletes : ({ idle with misoIn := [0x60] } : State).misoIn = 0x60 :: [] ∧ idle.misoIn = [] := ⟨rfl, rfl⟩

theorem witness_IdleWriteToCmdIsAccepted : ∃ (s : State) (w : HalfWord) (rest : List HostAction),
    s.lone = none ∧ s.hostIn = .write 0 w :: rest ∧ s.busy = false :=
  ⟨{ idle with hostIn := [.write 0 0x0700] }, 0x0700, [], rfl, rfl, rfl⟩

theorem witness_BusyWriteToCmdIsDropped : ∃ (s : State) (w : HalfWord) (rest : List HostAction),
    s.lone = none ∧ s.hostIn = .write 0 w :: rest ∧ s.busy = true :=
  ⟨{ channelAt 2 with hostIn := [.write 0 0x0501] }, 0x0501, [], rfl, rfl, rfl⟩

/-- Reserved indices 5 and 15, and a write to STATUS and to a reserved index. -/
theorem witness_OtherWindowWritesAreIgnored :
    5 ≤ (5 : WindowIndex).toNat ∧ 5 ≤ (15 : WindowIndex).toNat ∧
    (∃ s : State, s.lone = none ∧ s.hostIn = [.write 1 0xFFFF] ∧ (1 : WindowIndex) ≠ 0) ∧
    (∃ s : State, s.lone = none ∧ s.hostIn = [.write 15 0xFFFF] ∧ (15 : WindowIndex) ≠ 0) :=
  ⟨by decide, by decide, ⟨{ idle with hostIn := [.write 1 0xFFFF] }, rfl, rfl, by decide⟩,
    ⟨{ idle with hostIn := [.write 15 0xFFFF] }, rfl, rfl, by decide⟩⟩

theorem witness_WindowReadsHaveNoSideEffect : ∃ (s : State) (i : WindowIndex) (rest : List HostAction),
    s.lone = none ∧ s.hostIn = .read i :: rest := ⟨{ idle with hostIn := [.read 4] }, 4, [], rfl, rfl⟩

theorem witness_HostBufferReadAfterWrite :
    Memory.wf [] = true ∧ Memory.wf [(0, 0x11), (255, 0x01)] = true ∧ (0 : Nat) ≠ (255 : Byte).toNat := by decide

theorem witness_HostBufferIsCanonical : ∃ m m' : Memory,
    m.wf = true ∧ m'.wf = true ∧ (∀ j, m.read j = m'.read j) ∧ m ≠ [] := by
  refine ⟨[(255, 0x01)], Memory.write [] 255 0x01, by decide, by decide, fun _ => rfl, by decide⟩

/-- A store into HB[255] while idle, one while SEND runs, and a second one into a byte that has raced already. -/
theorem witness_HostStoreIntoBuffer :
    (∃ s : State, s.lone = none ∧ s.hostIn = [.store 255 0xAA] ∧ s.hb.wf = true ∧ ¬ TransferRuns s) ∧
    (∃ s : State, s.lone = none ∧ s.hostIn = [.store 0 0xAA] ∧ s.hb.wf = true ∧ TransferRuns s ∧ s.raced = []) ∧
    (∃ s : State, s.lone = none ∧ s.hostIn = [.store 254 0xAA] ∧ s.hb.wf = true ∧ TransferRuns s ∧ s.raced = [254]) :=
  ⟨⟨{ idle with hostIn := [.store 255 0xAA] }, rfl, rfl, rfl, by simp [TransferRuns, idle]⟩,
    ⟨{ sendAtRead with hostIn := [.store 0 0xAA] }, rfl, rfl, rfl, ⟨rfl, .inl rfl⟩, rfl⟩,
    ⟨{ sendRaced with hostIn := [.store 254 0xAA] }, rfl, rfl, rfl, ⟨rfl, .inl rfl⟩, rfl⟩⟩

/-- A load while idle, and one while GET_PACKET runs. -/
theorem witness_HostLoadFromBuffer :
    (∃ s : State, s.lone = none ∧ s.hostIn = [.load 255] ∧ ¬ TransferRuns s) ∧
    (∃ s : State, s.lone = none ∧ s.hostIn = [.load 0] ∧ TransferRuns s) :=
  ⟨⟨{ idle with hostIn := [.load 255] }, rfl, rfl, by simp [TransferRuns, idle]⟩,
    ⟨{ getAtWrite with hostIn := [.load 0] }, rfl, rfl, rfl, .inr rfl⟩⟩

theorem witness_ResetTakesEffect : ∃ (s : State) (rest : List HostAction),
    s.lone = none ∧ s.hostIn = .reset :: rest ∧ s.busy = true :=
  ⟨{ sendAtRead with hostIn := [.reset] }, [], rfl, rfl, rfl⟩

theorem witness_StepRunsDecodedInstruction :
    (∃ (s : State) (pos : SeqPos) (i : Instr), s.lone = none ∧ s.seq = .run pos ∧ decodeHcmd s.seqCmd = .ok i ∧ s.hostIn = []) ∧
    (∃ (s : State) (pos : SeqPos) (i : Instr) (rest : List HostAction), s.lone = none ∧ s.seq = .run pos ∧ decodeHcmd s.seqCmd = .ok i ∧ s.hostIn = .turn :: rest) ∧
    (∃ (s : State) (f : HalfWord) (i : Instr), s.lone = some f ∧ decodeSpif f = .ok i) :=
  ⟨⟨channelAt 2, _, .changeChannel 0, rfl, rfl, rfl, rfl⟩,
    ⟨{ channelAt 2 with hostIn := [.turn] }, _, .changeChannel 0, [], rfl, rfl, rfl, rfl⟩,
    ⟨{ idle with lone := some 0x1200 }, 0x1200, .rd 0x12, rfl, rfl⟩⟩

/-- A word for each check of R69 at its boundary, and words that pass (2.1). -/
theorem witness_DecodeChecksInOrder :
    decodeChecks 0x00FF true = some .illegalCmd ∧ decodeChecks 0x0700 true = some .illegalCmd ∧
    decodeChecks 0x0101 false = some .illegalCmd ∧ decodeChecks 0x0301 false = some .illegalCmd ∧
    decodeChecks 0x0201 false = some .notInit ∧ decodeChecks 0x0520 false = some .notInit ∧
    decodeChecks 0x0508 true = some .badIndex ∧ decodeChecks 0x0511 true = some .badIndex ∧
    decodeChecks 0x0607 true = some .badIndex ∧ decodeChecks 0x0100 false = none ∧ decodeChecks 0x0510 true = none ∧
    decodeChecks 0x0507 true = none ∧ decodeChecks 0x0606 true = none ∧ decodeChecks 0x0200 true = none ∧
    decodeChecks 0x0300 true = none ∧
    (∀ w : HalfWord, (atCheck w).lone = none ∧ (atCheck w).hostIn = [] ∧ (atCheck w).seq = .run .check) :=
  ⟨rfl, rfl, rfl, rfl, rfl, rfl, rfl, rfl, rfl, rfl, rfl, rfl, rfl, rfl, rfl, fun _ => ⟨rfl, rfl, rfl⟩⟩

theorem witness_LastLinesComplete :
    (atLine 0x0100 18 .noValue).seq = .run (.line 18 false) ∧ (atLine 0x0200 13 .noValue).seq = .run (.line 13 false) ∧
    (∃ s : State, s.seq = .run (.line 10 false) ∧ s.work.which = some .done ∧ s.work.flags = some 0x20) ∧
    (∃ s : State, s.seq = .run (.line 7 false) ∧ s.work.len = some 0xFF) ∧
    ((channelAt 5).seq = .run (.line 5 false) ∧ legalChannel 16 = true ∧ legalChannel 7 = true) ∧
    ((atLine 0x0606 5 .noValue).seq = .run (.line 5 false) ∧ legalDatarate 6 = true) :=
  ⟨rfl, rfl, ⟨atLine 0x0300 10 { Work.noValue with which := some .done, flags := some 0x20 }, rfl, rfl, rfl⟩,
    ⟨atLine 0x0400 7 { Work.noValue with len := some 0xFF }, rfl, rfl⟩, ⟨rfl, rfl, rfl⟩, ⟨rfl, rfl⟩⟩

theorem witness_RunningCommandAlwaysAnswers : ∃ s pos i,
    StateInv s ∧ s.seq = .run pos ∧ decodeHcmd s.seqCmd = .ok i :=
  ⟨channelAt 5, _, .changeChannel 0, inv_channelAt_last, rfl, rfl⟩

/-- One low sample fits below the bound 2; none fits the bound too. -/
theorem waitEnds_one (e : Levels → Bool) (h : e low = false) (h' : e high = true) : WaitEnds (some 2) e [low] high :=
  ⟨by simpa using h, h', by simp⟩

theorem waitEnds_none (e : Levels → Bool) (h' : e high = true) : WaitEnds (some 2) e [] high := ⟨by simp, h', by simp⟩

theorem witness_InitRunsToDone : ∃ (s : State) (lows : List Levels) (last : Levels) (rest : List Levels),
    s.seq = .run .check ∧ s.lineIn = lows ++ last :: rest ∧ WaitEnds s.params.waitBound Levels.modeReady lows last :=
  ⟨{ atCheck 0x0100 with lineIn := [low, high] }, [low], high, [], rfl, rfl, waitEnds_one _ rfl rfl⟩

theorem witness_SendRunsToDone : ∃ (s : State) (p : Byte) (ps : List Byte) (lows1 lows2 : List Levels)
    (last1 last2 : Levels) (rest : List Levels),
    s.seq = .run .check ∧ s.initDone = true ∧ s.mode = .requested .standby ∧ s.raced = [] ∧ s.misoIn = p :: ps ∧
    s.lineIn = lows1 ++ last1 :: (lows2 ++ last2 :: rest) ∧ WaitEnds s.params.waitBound Levels.modeReady lows1 last1 ∧
    WaitEnds s.params.waitBound Levels.txDone lows2 last2 :=
  ⟨{ atCheck 0x02FF with misoIn := [0x5A], lineIn := [high, low, high] }, 0x5A, [], [], [low], high, high, [], rfl, rfl,
    rfl, rfl, rfl, rfl, waitEnds_none _ rfl, waitEnds_one _ rfl rfl⟩

theorem witness_ReceiveRunsToDone : ∃ (s : State) (f : Byte) (fs : List Byte) (lows1 lows2 : List Levels)
    (last1 last2 : Levels) (rest : List Levels),
    s.seq = .run .check ∧ s.initDone = true ∧ s.mode = .requested .standby ∧ s.misoIn = f :: fs ∧
    s.lineIn = lows1 ++ last1 :: (lows2 ++ last2 :: rest) ∧ WaitEnds s.params.waitBound Levels.modeReady lows1 last1 ∧
    WaitEnds s.params.waitBound (fun l => l.rxDone || l.rxTimeout) lows2 last2 :=
  ⟨{ atCheck 0x0300 with misoIn := [0xDF], lineIn := [low, high, low, high] }, 0xDF, [], [low], [low], high, high, [], rfl,
    rfl, rfl, rfl, rfl, waitEnds_one _ rfl rfl, waitEnds_one _ rfl rfl⟩

/-- A packet of length 2 and one of length 0. -/
theorem witness_GetPacketRunsToDone :
    (∃ (s : State) (o n : Byte) (bytes ps : List Byte),
      s.seq = .run .check ∧ s.initDone = true ∧ s.mode = .requested .standby ∧ s.hb.wf = true ∧
      s.misoIn = o :: n :: (bytes ++ ps) ∧ bytes.length = n.toNat ∧ n = 2) ∧
    (∃ (s : State) (o n : Byte) (bytes ps : List Byte),
      s.seq = .run .check ∧ s.initDone = true ∧ s.mode = .requested .standby ∧ s.hb.wf = true ∧
      s.misoIn = o :: n :: (bytes ++ ps) ∧ bytes.length = n.toNat ∧ n = 0) :=
  ⟨⟨{ atCheck 0x0400 with misoIn := [0x00, 0x02, 0xAA, 0xBB] }, 0x00, 0x02, [0xAA, 0xBB], [], rfl, rfl, rfl, rfl, rfl, rfl,
    rfl⟩, ⟨{ atCheck 0x0400 with misoIn := [0x00, 0x00] }, 0x00, 0x00, [], [], rfl, rfl, rfl, rfl, rfl, rfl, rfl⟩⟩

theorem witness_ChangeChannelRunsToDone : ∃ (s : State) (k : Byte) (f : Triple),
    s.seq = .run .check ∧ s.initDone = true ∧ s.mode = .requested .standby ∧ chTable k = some f :=
  ⟨atCheck 0x0510, 0x10, ⟨0xD9, 0x61, 0xBE⟩, rfl, rfl, rfl, rfl⟩

theorem witness_ChangeDatarateRunsToDone : ∃ (s : State) (k : Byte) (m : Triple),
    s.seq = .run .check ∧ s.initDone = true ∧ s.mode = .requested .standby ∧ drTable k = some m :=
  ⟨atCheck 0x0606, 6, ⟨0x74, 0x82, 0x04⟩, rfl, rfl, rfl, rfl⟩

/-- From STANDBY, and from UNKNOWN with one low sample. -/
theorem witness_EnsureStandbyActsOnlyWhenNeeded :
    (∃ (s : State) (i : Instr), i.isCommand = true ∧ i ≠ .init ∧ i.wf = true ∧ s.seq = .run .check ∧ s.initDone = true ∧
      s.mode = .requested .standby) ∧
    (∃ (s : State) (i : Instr) (lows : List Levels) (last : Levels) (rest : List Levels),
      i.isCommand = true ∧ i ≠ .init ∧ i.wf = true ∧ s.seq = .run .check ∧ s.initDone = true ∧
      s.mode ≠ .requested .standby ∧ s.lineIn = lows ++ last :: rest ∧
      WaitEnds s.params.waitBound Levels.modeReady lows last) :=
  ⟨⟨atCheck 0x0300, .receive, rfl, by decide, rfl, rfl, rfl, rfl⟩,
    ⟨{ atCheck 0x0502 with mode := .unknown, lineIn := [low, high] }, .changeChannel 2, [low], high, [], rfl, by decide, rfl,
      rfl, rfl, by decide, rfl, waitEnds_one _ rfl rfl⟩⟩

theorem witness_ChangesAreIdempotent : ∃ (i : Instr) (s s' : State),
    ((∃ k, i = .changeChannel k) ∨ (∃ k, i = .changeDatarate k)) ∧ i.wf = true ∧
    s.seq = .run .check ∧ s.initDone = true ∧ s.mode = .requested .standby ∧
    s'.seq = .run .check ∧ s'.initDone = true ∧ s'.mode = .requested .standby ∧ s ≠ s' :=
  ⟨.changeChannel 5, atCheck 0x0505, { atCheck 0x0505 with outcome := .crcOk, ovr := true }, .inl ⟨5, rfl⟩, rfl, rfl, rfl,
    rfl, rfl, rfl, rfl, by decide⟩

/-- The two commands of the round trip for a packet of one byte, 0x7E, at the FIFO offset 0x80. -/
def sendOne : State := { atCheck 0x0201 with misoIn := [0x80], lineIn := [high, high], hb := [(0, 0x7E)] }
def getOne : State := { atCheck 0x0400 with misoIn := [0x80, 0x01, 0x7E] }
def sentOne : List Event :=
  [.wr 0x33 0x27, .wr 0x3B 0x1D, .wr 0x22 0x01, .rd 0x0E 0x80, .wr 0x0D 0x80, .hbRd 0 0x7E, .wr 0x00 0x7E, .wr 0x40 0x40,
    .wr 0x01 0x83, .sample .modeReady true, .sample .txDone true, .done 0x0002]
def gotOne : List Event := [.rd 0x10 0x80, .rd 0x13 0x01, .wr 0x0D 0x80, .rd 0x00 0x7E, .hbWr 0 0x7E, .done 0x0002]
def radio : Responder := { reg := fun a => if a = 0x0E then 0x80 else 0x00, fifo := fun _ => 0x00, ptr := 0x00 }

theorem radio_answers : Responder.Answers 0x83 radio (sentOne ++ gotOne) := by
  simp [sentOne, gotOne, Responder.Answers, Responder.onWr, Responder.onRd, Responder.answer, setAt, radio]

theorem witness_LoopbackRoundTrip : ∃ (s t u v : State) (L p o n : Byte) (ps bytes qs : List Byte)
    (lows1 lows2 : List Levels) (last1 last2 : Levels) (rest : List Levels) (r : Responder) (sent got : List Event),
    s.seq = .run .check ∧ s.initDone = true ∧ s.mode = .requested .standby ∧ s.raced = [] ∧ s.misoIn = p :: ps ∧
    s.lineIn = lows1 ++ last1 :: (lows2 ++ last2 :: rest) ∧
    WaitEnds s.params.waitBound Levels.modeReady lows1 last1 ∧ WaitEnds s.params.waitBound Levels.txDone lows2 last2 ∧
    execSteps (.send L) (11 + 2 * L.toNat + lows1.length + lows2.length) s = .next t ∧ t.history = s.history ++ sent ∧
    u.seq = .run .check ∧ u.initDone = true ∧ u.mode = .requested .standby ∧ u.params = s.params ∧ u.hb.wf = true ∧
    u.misoIn = o :: n :: (bytes ++ qs) ∧ bytes.length = n.toNat ∧
    execSteps .getPacket (5 + 2 * n.toNat) u = .next v ∧ v.history = u.history ++ got ∧
    Responder.Answers s.params.modeTx r (sent ++ got) := by
  refine ⟨sendOne, after (execSteps (.send 1) 13 sendOne) sendOne, getOne, after (execSteps .getPacket 7 getOne) getOne,
    1, 0x80, 0x80, 1, [], [0x7E], [], [], [], high, high, [], radio, sentOne, gotOne, rfl, rfl, rfl, rfl, rfl, rfl,
    waitEnds_none _ rfl, waitEnds_none _ rfl, eq_next_after _ ?_, ?_, rfl, rfl, rfl, rfl, rfl, rfl, rfl,
    eq_next_after _ ?_, ?_, radio_answers⟩ <;> decide

/-- A high sample, a low one that is counted, a low one that reaches the bound. -/
theorem witness_WaitHighSample :
    (∃ (s : State) (i : Instr) (n c : Nat) (L : WaitLine) (l : Levels) (rest : List Levels),
      s.seq = .run (.line n false) ∧ (program i s.params)[n]? = some (.wait L) ∧ s.lineIn = l :: rest ∧
      some 0 = some c ∧ l.of L = true) ∧
    (∃ (s : State) (i : Instr) (n c : Nat) (L : WaitLine) (l : Levels) (rest : List Levels),
      s.seq = .run (.line n false) ∧ (program i s.params)[n]? = some (.wait L) ∧ s.lineIn = l :: rest ∧
      some 0 = some c ∧ l.of L = false ∧ s.params.waitBound ≠ some (c + 1)) ∧
    (∃ (s : State) (i : Instr) (n c : Nat) (L : WaitLine) (l : Levels) (rest : List Levels),
      s.seq = .run (.line n true) ∧ (program i s.params)[n]? = some (.wait L) ∧ s.lineIn = l :: rest ∧
      s.work.waitCnt = some c ∧ l.of L = false ∧ s.params.waitBound = some (c + 1)) :=
  ⟨⟨{ atLine 0x0201 12 .noValue with lineIn := [high] }, .send 1, 12, 0, .txDone, high, [], rfl, rfl, rfl, rfl, rfl⟩,
    ⟨{ atLine 0x0100 3 .noValue with lineIn := [low] }, .init, 3, 0, .modeReady, low, [], rfl, rfl, rfl, rfl, rfl, by decide⟩,
    ⟨{ atLine 0x0201 12 { Work.noValue with waitCnt := some 1 } with lineIn := [low], seq := .run (.line 12 true) }, .send 1,
      12, 1, .txDone, low, [], rfl, rfl, rfl, rfl, rfl, rfl⟩⟩

/-- RECEIVE at its WaitRx line, with `work` and the samples to come. -/
def rxAt (again : Bool) (work : Work) (ls : List Levels) : State :=
  { atLine 0x0300 7 work with seq := .run (.line 7 again), lineIn := ls }

/-- At the head of the queue: a tie, RX_DONE alone, RX_TIMEOUT alone, both low below the bound, both low at the bound. -/
theorem witness_WaitRxSample : ∀ x : Bool × Option Nat × Levels,
    x ∈ [(false, some 0, high), (false, some 0, { low with rxDone := true }), (false, some 0, { low with rxTimeout := true }),
      (false, some 0, low), (true, some 1, low)] →
    ∃ s : State, s.seq = .run (.line 7 x.1) ∧ (program .receive s.params)[7]? = some .waitRx ∧ s.lineIn = [x.2.2] ∧
      (if x.1 then s.work.waitCnt else some 0) = x.2.1 ∧ x.2.1 ≠ none ∧ s.params.waitBound = some 2 := by
  intro x hx
  refine ⟨rxAt x.1 { Work.noValue with waitCnt := some 1 } [x.2.2], rfl, rfl, rfl, ?_, ?_, rfl⟩ <;>
    (revert x; decide)

theorem witness_BoundedWaitGivesUp :
    (∃ (s : State) (i : Instr) (n N : Nat) (L : WaitLine) (lows rest : List Levels),
      s.seq = .run (.line n false) ∧ (program i s.params)[n]? = some (.wait L) ∧ s.params.waitBound = some N ∧ 1 ≤ N ∧
      lows.length = N ∧ (∀ l ∈ lows, l.of L = false) ∧ s.lineIn = lows ++ rest) ∧
    (∃ (s : State) (n N : Nat) (lows rest : List Levels),
      s.seq = .run (.line n false) ∧ (program .receive s.params)[n]? = some .waitRx ∧ s.params.waitBound = some N ∧ 1 ≤ N ∧
      lows.length = N ∧ (∀ l ∈ lows, BothLow l) ∧ s.lineIn = lows ++ rest) :=
  ⟨⟨{ atLine 0x0201 12 .noValue with lineIn := [low, low] }, .send 1, 12, 2, .txDone, [low, low], [], rfl, rfl, rfl,
      by decide, rfl, by decide, rfl⟩,
    ⟨rxAt false .noValue [low, low], 7, 2, [low, low], [], rfl, rfl, rfl, by decide, rfl, by simp [BothLow, low], rfl⟩⟩

theorem witness_UnboundedWaitHolds :
    (∃ (s : State) (i : Instr) (n : Nat) (L : WaitLine) (lows rest : List Levels),
      s.seq = .run (.line n false) ∧ (program i s.params)[n]? = some (.wait L) ∧ s.params.waitBound = none ∧
      lows ≠ [] ∧ (∀ l ∈ lows, l.of L = false) ∧ s.lineIn = lows ++ rest) ∧
    (∃ (s : State) (n : Nat) (lows rest : List Levels),
      s.seq = .run (.line n false) ∧ (program .receive s.params)[n]? = some .waitRx ∧ s.params.waitBound = none ∧
      lows ≠ [] ∧ (∀ l ∈ lows, BothLow l) ∧ s.lineIn = lows ++ rest) :=
  ⟨⟨{ atLine 0x0100 3 .noValue with lineIn := [low, low, low], params := { params with waitBound := none } }, .init, 3,
      .modeReady, [low, low, low], [], rfl, rfl, rfl, by decide, by decide, rfl⟩,
    ⟨{ rxAt false .noValue [low] with params := { params with waitBound := none } }, 7, [low], [], rfl, rfl, rfl, by decide,
      by simp [BothLow, low], rfl⟩⟩

/-- The hypotheses of the statements about every step: an idle state, one at its decode checks, one inside a command (for
StepKeepsInvariant, StepNeverStops, OnlyMappedAccesses, HistoryOnlyGrows, ParametersNeverChange and the statements of what
writes a register). -/
theorem witness_StepKeepsInvariant :
    (∃ s t, StateInv s ∧ step s = .next t ∧ s.busy = false) ∧ (∃ s t, StateInv s ∧ step s = .next t ∧ s.seq = .run .check) ∧
    (∃ s t, StateInv s ∧ step s = .next t ∧ s.seq = .run (.line 1 false)) :=
  ⟨⟨idle, _, inv_idle, rfl, rfl⟩, ⟨atCheck 0x0300, _, inv_atCheck _, rfl, rfl⟩, ⟨initAt, _, inv_initAt, rfl, rfl⟩⟩

/-- HB[254] read by SEND 255, and the same with the byte raced; HB[0] written by GET_PACKET. -/
theorem witness_BufferAccessesInsidePacket :
    (∃ s t, StateInv s ∧ step s = .next t ∧ t.history = s.history ++ [.hbRd 254 0x7E] ∧ 254#8 ∉ s.raced) ∧
    (∃ s t b, StateInv s ∧ step s = .next t ∧ t.history = s.history ++ [.hbRd 254 b] ∧ 254#8 ∈ s.raced) ∧
    (∃ s t, StateInv s ∧ step s = .next t ∧ t.history = s.history ++ [.hbWr 0 0xAA]) :=
  ⟨⟨sendAtRead, _, inv_sendAtRead, rfl, rfl, by decide⟩, ⟨sendRaced, _, _, inv_sendRaced, rfl, rfl, by decide⟩, ⟨getAtWrite, _, inv_getAtWrite, rfl, rfl⟩⟩

theorem witness_NoActivityWhileIdle :
    (∃ s t, StateInv s ∧ s.busy = false ∧ step s = .next t) ∧
    (∃ s : State, s.lone = none ∧ s.seq = .idle ∧ s.hostIn = []) ∧
    (∃ (s : State) (rest : List HostAction), s.lone = none ∧ s.seq = .idle ∧ s.hostIn = .turn :: rest) :=
  ⟨⟨idle, _, inv_idle, rfl, rfl⟩, ⟨idle, rfl, rfl, rfl⟩, ⟨{ idle with hostIn := [.turn, .read 1] }, [.read 1], rfl, rfl, rfl⟩⟩

/-- RECEIVE at the sample of its MODE_READY wait that reaches the bound: the abort leaves NO_MESSAGE. -/
theorem witness_OutcomeWrites : ∃ s t, StateInv s ∧ step s = .next t ∧ decodeHcmd s.seqCmd = .ok .receive ∧ s.busy = true ∧
    t.busy = false ∧ t.err = .waitTimeout := by
  refine ⟨{ atLine 0x0300 6 { Work.noValue with waitCnt := some 1 } with
    seq := .run (.line 6 true), mode := .requested .rxSingle, lineIn := [low] }, _, ?_, rfl, rfl, rfl, rfl, rfl⟩
  exact stateInv_line (i := .receive) (l := .wait .modeReady) ⟨rfl, rfl, rfl, List.nodup_nil, rfl, rfl⟩ rfl rfl rfl
    ⟨rfl, rfl, rfl, rfl, rfl, by simp, by simp [atLine, idle], by intro m h; cases h; rfl, .inr rfl, fun _ => rfl⟩

/-- The last line of CHANGE_CHANNEL. -/
theorem witness_BusyFallsOnlyWithDone : ∃ s t, StateInv s ∧ s.busy = true ∧ step s = .next t ∧ t.busy = false :=
  ⟨channelAt 5, _, inv_channelAt_last, rfl, rfl, rfl⟩

/-- SEND at the mode write to Transmit, INIT at the one to LoRa-Sleep. -/
theorem witness_ModeReadyFollowsModeWrites :
    (∃ s t, StateInv s ∧ step s = .next t ∧ t.history = s.history ++ [.wr 0x01 (modeValue s.params .loraSleep)] ∧
      t.mode = .requested .loraSleep) ∧
    (∃ s t, StateInv s ∧ step s = .next t ∧ t.history = s.history ++ [.wr 0x01 (modeValue s.params .rxSingle)] ∧
      t.mode = .requested .rxSingle) := by
  refine ⟨⟨initAt, _, inv_initAt, rfl, rfl, rfl⟩, ⟨atLine 0x0300 5 .noValue, _, ?_, rfl, rfl, rfl⟩⟩
  exact stateInv_line (i := .receive) (l := .mode .rxSingle) (core_atLine _ _ _) rfl rfl rfl
    ⟨rfl, rfl, rfl, rfl, rfl, by simp, by simp [atLine, idle], by intro m h; cases h; rfl, .inr rfl, fun _ => rfl⟩

theorem witness_LoraModeOnlyFromSleep : ∃ s t, StateInv s ∧ step s = .next t ∧ t.mode = .requested .loraSleep ∧
    s.mode ≠ .requested .loraSleep := ⟨initAt, _, inv_initAt, rfl, rfl, by decide⟩

theorem witness_ConfigurationOnlyInStandby : ∃ (s t : State) (a : RegAddr) (v : Byte),
    StateInv s ∧ step s = .next t ∧ t.history = s.history ++ [.wr a v] ∧ a ≠ 0x01 :=
  ⟨channelAt 2, _, 0x06, 0xD9, inv_channelAt_first, rfl, rfl, by decide⟩

theorem witness_InitFrame : ∃ s t, exec .init s = .next t ∧ s.seq = .run (.line 1 false) := ⟨initAt, _, rfl, rfl⟩

theorem witness_SendFrame : ∃ (n : Byte) (s t : State), exec (.send n) s = .next t ∧ s.seq = .run (.line 7 false) :=
  ⟨255, sendAtRead, _, rfl, rfl⟩

theorem witness_ReceiveFrame : ∃ s t, exec .receive s = .next t := ⟨atCheck 0x0300, _, rfl⟩

/-- A step that stores, at the index 0, and one that does not. -/
theorem witness_GetPacketFrame :
    (∃ s t i, exec .getPacket s = .next t ∧ s.seq = .run (.line 6 false) ∧ bufferIndex s.work = some i ∧ i = 0) ∧
    (∃ s t, exec .getPacket s = .next t ∧ s.seq ≠ .run (.line 6 false) ∧ s.seq ≠ .run (.line 6 true)) :=
  ⟨⟨getAtWrite, _, 0, rfl, rfl, rfl, rfl⟩, ⟨atCheck 0x0400, _, rfl, by decide, by decide⟩⟩

theorem witness_ChangeFrame :
    (∃ (k : Byte) (s t : State), exec (.changeChannel k) s = .next t) ∧
    (∃ (k : Byte) (s t : State), exec (.changeDatarate k) s = .next t) :=
  ⟨⟨0, channelAt 2, _, rfl⟩, ⟨255, atCheck 0x06FF, _, rfl⟩⟩

end Sys2Proof.Tests
end

section
/-! The host's side of the window (10_state.md R21, R22): the step of a host action, and what a read or a write of the window is. -/

namespace Sys2Proof.Machine

/-- With no lone transaction, an action at the head of the host's queue is the next step, and leaves the queue by it (R1, R2). -/
theorem step_hostAct {s : State} {a : HostAction} {rest : List HostAction} (hl : s.lone = none)
    (hq : s.hostIn = a :: rest) (ha : a ≠ .turn) : step s = .next (hostAct a { s with hostIn := rest }) := by
  have hturn : nextTurn s = .host a := by
    unfold nextTurn
    rw [hl, hq]
    cases a with
    | turn => exact absurd rfl ha
    | _ => rfl
  have htake : takeTurn s = { s with hostIn := rest } := by rw [takeTurn_of_no_lone hl, hq, List.tail_cons]
  rw [step, hturn, htake]

/-- The indices 5 to 15 are reserved and read as 0 (R21). -/
theorem windowRead_reserved (s : State) {i : WindowIndex} (hi : 5 ≤ i.toNat) : windowRead s i = 0x0000 := by
  unfold windowRead
  split
  case h_6 => rfl
  all_goals omega

/-- What the window shows does not depend on the host's queue. -/
@[simp] theorem windowRead_hostIn (s : State) (q : List HostAction) (i : WindowIndex) :
    windowRead { s with hostIn := q } i = windowRead s i := rfl

/-- Only CMD, the index 0, takes a host write (R21). -/
theorem windowWrite_of_ne_zero (s : State) {i : WindowIndex} (w : HalfWord) (hi : i ≠ 0) : windowWrite i w s = s :=
  if_neg hi

/-- Settles O12: the reserved indices have no case in the read, and the write has a case for the index 0 only. -/
theorem otherWindowWritesAreIgnored : Obligations.OtherWindowWritesAreIgnored := by
  unfold Obligations.OtherWindowWritesAreIgnored
  refine ⟨fun s i hi => windowRead_reserved s hi, fun s i w rest hl hq hi => ?_⟩
  rw [step_hostAct hl hq (by simp), hostAct, windowWrite_of_ne_zero _ w hi]

/-- Settles O13: the step is the host's read, which adds to `hostSeen`, and the value is that of the state before the action
left the queue. -/
theorem windowReadsHaveNoSideEffect : Obligations.WindowReadsHaveNoSideEffect := by
  unfold Obligations.WindowReadsHaveNoSideEffect
  intro s i rest hl hq
  rw [step_hostAct hl hq (by simp), hostAct, windowRead_hostIn]

end Sys2Proof.Machine
end

section
/-! A write to CMD while a command runs (10_state.md R68). -/

namespace Sys2Proof.Machine

/-- While BUSY = 1 a word written to CMD is dropped, not accepted (R68). -/
theorem windowWrite_cmd_of_busy {s : State} (w : HalfWord) (hb : s.busy = true) : windowWrite 0 w s = dropWord w s := by
  rw [windowWrite, if_pos rfl, if_pos hb]

/-- Settles O11: the step is the host's write to CMD, which a busy NRC drops; `dropWord` sets OVR and records `Drop`. -/
theorem busyWriteToCmdIsDropped : Obligations.BusyWriteToCmdIsDropped := by
  unfold Obligations.BusyWriteToCmdIsDropped
  intro s w rest hl hq hb
  have hdrop : windowWrite 0 w { s with hostIn := rest } = dropWord w { s with hostIn := rest } :=
    windowWrite_cmd_of_busy w hb
  rw [step_hostAct hl hq (by simp), hostAct, hdrop]
  rfl

end Sys2Proof.Machine
end

section
/-! The frames of the two SPI transactions (30_encoding.md R65, R66) and the bytes they shift out (40_register_bus.md R80, R81). -/

namespace Sys2Proof.Machine

/-- RD is one transaction on the port (R80). -/
theorem exec_rd (a : RegAddr) (s : State) : exec (.rd a) s = .next (spiRead a s) := rfl

/-- WR is one transaction on the port (R81). -/
theorem exec_wr (a : RegAddr) (v : Byte) (s : State) : exec (.wr a v) s = .next (spiWrite a v s) := rfl

/-- Masking a register address with 0x7F keeps all of it: an address has seven bits (R64, R65). -/
theorem rdFirstByte_eq_setWidth (a : RegAddr) : rdFirstByte a = a.setWidth 8 := by
  apply BitVec.eq_of_toNat_eq
  have hmask : a.toNat &&& 2 ^ 7 - 1 = a.toNat := by
    rw [Nat.and_two_pow_sub_one_eq_mod, Nat.mod_eq_of_lt a.isLt]
  simpa [rdFirstByte, Nat.mod_eq_of_lt (show a.toNat < 256 by omega)] using hmask

/-- Bit 7 of an address byte is clear (R65): an address ends at bit 6. -/
theorem addrByte_bit7 (a : RegAddr) : (a.setWidth 8 : Byte).getLsbD 7 = false := by
  rw [BitVec.getLsbD_setWidth, BitVec.getLsbD_of_ge a 7 (le_refl 7), Bool.and_false]

/-- RD shifts out the address and the dummy byte (R65, R80). -/
theorem spiRead_sent (a : RegAddr) (s : State) : (spiRead a s).port.sent = [a.setWidth 8, 0x00] := by
  rw [spiRead_port, transfer_sent, rdFirstByte_eq_setWidth, dummyByte]

/-- WR shifts out `address | 0x80` and the value (R66, R81). -/
theorem spiWrite_sent (a : RegAddr) (v : Byte) (s : State) : (spiWrite a v s).port.sent = [a.setWidth 8 ||| 0x80, v] := by
  rw [spiWrite_port, transfer_sent, wrFirstByte]

/-- Settles O5: the words are the encoder's own, the masks those of the opcode table's rows, and the bytes are what the one
transaction of RD or WR shifts out. -/
theorem transactionFrames : Obligations.TransactionFrames := by
  unfold Obligations.TransactionFrames
  intro a v s
  refine ⟨rfl, Laws.OpcodeRow.rd a, rfl, Laws.OpcodeRow.wr a v, ?_, ?_⟩
  · exact ⟨spiRead a s, exec_rd a s, spiRead_sent a s, addrByte_bit7 a⟩
  · exact ⟨spiWrite a v s, exec_wr a v s, spiWrite_sent a v s⟩

end Sys2Proof.Machine
end

section
/-! The two tables (41_config_tables.md R90 to R92) and the run of CHANGE_CHANNEL and CHANGE_DATARATE (R95 to R97). -/

namespace Sys2Proof.Machine

/-! ### The tables and the writes made from them -/

/-- The channel indices with an entry (R62, R90). -/
theorem chTable_isSome_iff (k : Byte) : (chTable k).isSome = true ↔ (k.toNat ≤ 7 ∨ k.toNat = 16) := by
  unfold chTable
  split <;> grind

/-- The datarate indices with an entry (R62, R91). -/
theorem drTable_isSome_iff (k : Byte) : (drTable k).isSome = true ↔ k.toNat ≤ 6 := by
  unfold drTable
  split <;> grind

/-- The decode check lets pass exactly the channel indices with an entry (R69, R92). -/
theorem chTable_isSome (k : Byte) : (chTable k).isSome = legalChannel k := by
  rw [Bool.eq_iff_iff, chTable_isSome_iff]
  simp [legalChannel, BitVec.toNat_eq]

/-- The decode check lets pass exactly the datarate indices with an entry (R69, R92). -/
theorem drTable_isSome (k : Byte) : (drTable k).isSome = legalDatarate k := by
  rw [Bool.eq_iff_iff, drTable_isSome_iff]
  simp [legalDatarate]

/-- SET_CHANNEL writes the entry of its index (R93). -/
theorem setChannel_of_entry {k : Byte} {f : Triple} (h : chTable k = some f) :
    setChannel k = [.wr 0x06 (.value f.b0), .wr 0x07 (.value f.b1), .wr 0x08 (.value f.b2)] := by
  simp [setChannel, h]

/-- SET_DATARATE writes the entry of its index (R94). -/
theorem setDatarate_of_entry {k : Byte} {m : Triple} (h : drTable k = some m) :
    setDatarate k = [.wr 0x1E (.value m.b0), .wr 0x1D (.value m.b1), .wr 0x26 (.value m.b2)] := by
  simp [setDatarate, h]

/-- Settles O8: an index has an entry where the lookup has a case for it, and SET_CHANNEL is the lookup's result as lines. -/
theorem channelTableExact : Obligations.ChannelTableExact := by
  unfold Obligations.ChannelTableExact
  exact ⟨rfl, rfl, rfl, rfl, rfl, rfl, rfl, rfl, rfl, chTable_isSome_iff, fun _ _ => setChannel_of_entry⟩

/-- Settles O9: as O8, with the lookup and the lines of the datarates. -/
theorem datarateTableExact : Obligations.DatarateTableExact := by
  unfold Obligations.DatarateTableExact
  exact ⟨rfl, rfl, rfl, rfl, rfl, rfl, rfl, drTable_isSome_iff, fun _ _ => setDatarate_of_entry⟩

/-! ### A command that only writes registers -/

/-- The lines that write those values to those registers, in order. -/
def writeLines (ws : List (RegAddr × Byte)) : List SeqLine := ws.map fun w => .wr w.1 (.value w.2)

/-- What CHANGE_CHANNEL and CHANGE_DATARATE have in common (R95, R96): once INIT_DONE = 1 the decode checks pass, the command
assigns nothing as it enters, and after ENSURE_STANDBY it makes the writes `ws`. -/
structure OnlyWrites (i : Instr) (ws : List (RegAddr × Byte)) : Prop where
  command : i.isCommand = true
  passes  : decodeCheck i true = none
  enters  : ∀ s, enter i s = s
  lines   : ∀ p, program i p = ensureStandby ++ (writeLines ws ++ [.complete .plain])

theorem onlyWrites_changeChannel {k : Byte} {f : Triple} (h : chTable k = some f) :
    OnlyWrites (.changeChannel k) [(0x06, f.b0), (0x07, f.b1), (0x08, f.b2)] where
  command := rfl
  passes  := by
    have legal : legalChannel k = true := by rw [← chTable_isSome, h]; rfl
    rw [decodeCheck, legal]; rfl
  enters _ := rfl
  lines _ := by rw [program, changeChannelProgram, setChannel_of_entry h, List.append_assoc]; rfl

theorem onlyWrites_changeDatarate {k : Byte} {m : Triple} (h : drTable k = some m) :
    OnlyWrites (.changeDatarate k) [(0x1E, m.b0), (0x1D, m.b1), (0x26, m.b2)] where
  command := rfl
  passes  := by
    have legal : legalDatarate k = true := by rw [← drTable_isSome, h]; rfl
    rw [decodeCheck, legal]; rfl
  enters _ := rfl
  lines _ := by rw [program, changeDatarateProgram, setDatarate_of_entry h, List.append_assoc]; rfl

/-- A well-formed change command makes three writes that its index alone fixes (R97). -/
theorem onlyWrites_of_wf {i : Instr} (hi : (∃ k, i = .changeChannel k) ∨ (∃ k, i = .changeDatarate k)) (hw : i.wf = true) :
    ∃ w₁ w₂ w₃, OnlyWrites i [w₁, w₂, w₃] := by
  obtain ⟨k, rfl⟩ | ⟨k, rfl⟩ := hi
  · obtain ⟨f, hf⟩ := Option.isSome_iff_exists.mp ((chTable_isSome k).trans hw)
    exact ⟨_, _, _, onlyWrites_changeChannel hf⟩
  · obtain ⟨m, hm⟩ := Option.isSome_iff_exists.mp ((drTable_isSome k).trans hw)
    exact ⟨_, _, _, onlyWrites_changeDatarate hm⟩

namespace OnlyWrites

variable {i : Instr} {ws : List (RegAddr × Byte)} {s : State}

/-- After the two lines of ENSURE_STANDBY come the writes and the last line. -/
theorem line_two_add (h : OnlyWrites i ws) (p : Params) (j : Nat) :
    (program i p)[2 + j]? = (writeLines ws ++ [.complete .plain])[j]? := by
  rw [h.lines, Nat.add_comm]
  rfl

theorem write_line (h : OnlyWrites i ws) (p : Params) (j : Nat) (a : RegAddr) (v : Byte) (hj : ws[j]? = some (a, v)) :
    (program i p)[2 + j]? = some (.wr a (.value v)) := by
  have hwrite : (writeLines ws)[j]? = some (.wr a (.value v)) := by simp [writeLines, hj]
  rw [h.line_two_add, List.getElem?_append_left (List.getElem?_eq_some_iff.mp hwrite).1, hwrite]

theorem last_line (h : OnlyWrites i ws) (p : Params) : (program i p)[2 + ws.length]? = some (.complete .plain) := by
  rw [h.line_two_add]
  simp [writeLines]

/-- From MODE_SHADOW = STANDBY the decode step leads past ENSURE_STANDBY (R104). -/
theorem exec_check (h : OnlyWrites i ws) (hs : s.seq = .run .check) (hd : s.initDone = true)
    (hm : s.mode = .requested .standby) : exec i s = .next (s.atLine 2) := by
  have harrive : arrive (program i s.params) 0 s = some 2 := by simp [h.lines, ensureStandby, arrive, hm]
  rw [exec_command h.command, runCommand_enters hs (hd ▸ h.passes), h.enters, goto_of_arrive harrive]

/-- The whole run from MODE_SHADOW = STANDBY (R95, R96): the writes, in order, and completion. -/
theorem run (h : OnlyWrites i ws) (hs : s.seq = .run .check) (hd : s.initDone = true)
    (hm : s.mode = .requested .standby) :
    ∃ p : SpiPort, (ws ≠ [] ∨ s.port.nss = true → p.nss = true) ∧
      execSteps i (ws.length + 2) s = .next (complete
        { s with
          seq := .run (.line (2 + ws.length) false), port := p
          history := s.history ++ ws.map fun w => .wr w.1 w.2 }) := by
  have hland : landsAt (program i s.params) (2 + ws.length) = true := by simp [landsAt, h.last_line]
  obtain ⟨p, hp, hrun⟩ := execSteps_writes (s := s.atLine 2) ws 1 rfl (h.write_line s.params) hland
  refine ⟨p, hp, ?_⟩
  rw [execSteps_succ (h.exec_check hs hd hm), hrun, execSteps_one]
  exact exec_line (again := false) rfl (h.last_line _)

/-- The events of that run (R95, R96): the writes and `Done`. -/
theorem run_history (h : OnlyWrites i ws) (hs : s.seq = .run .check) (hd : s.initDone = true)
    (hm : s.mode = .requested .standby) :
    ∃ t d, execSteps i (ws.length + 2) s = .next t ∧
      t.history = s.history ++ ((ws.map fun w => .wr w.1 w.2) ++ [.done d]) := by
  obtain ⟨p, -, hrun⟩ := h.run hs hd hm
  exact ⟨_, _, hrun, by rw [complete_history, List.append_assoc]⟩

end OnlyWrites

/-- Settles O32: the two runs make the writes of one list, which the command alone fixes. -/
theorem changesAreIdempotent : Obligations.ChangesAreIdempotent := by
  unfold Obligations.ChangesAreIdempotent
  intro i s s' hi hw hs hd hm hs' hd' hm'
  obtain ⟨⟨a₁, v₁⟩, ⟨a₂, v₂⟩, ⟨a₃, v₃⟩, h⟩ := onlyWrites_of_wf hi hw
  obtain ⟨t, d, hrun, hhist⟩ := h.run_history hs hd hm
  obtain ⟨t', d', hrun', hhist'⟩ := h.run_history hs' hd' hm'
  exact ⟨t, t', a₁, a₂, a₃, v₁, v₂, v₃, d, d', hrun, hrun', hhist, hhist'⟩

end Sys2Proof.Machine
end

section
/-! The run of RECEIVE (42_mode_controller.md R103, R108 to R112): its configuration writes and mode, its two waits, and the flags. -/

open Sys2Proof.Claims

namespace Sys2Proof.Machine

/-- A transaction leaves nothing on the port of what stood there before it (R82). -/
theorem transfer_eq_transfer (p q : SpiPort) (f : SpiFormat) (b0 b1 : Byte) : p.transfer f b0 b1 = q.transfer f b0 b1 := rfl

/-! ### Single steps of a run -/

/-- The decode step of a command that begins with ENSURE_STANDBY, from MODE_SHADOW = STANDBY, leads past it (R69, R104). -/
theorem exec_check_of_standby {i : Instr} {s : State} (hi : i.isCommand = true) (hs : s.seq = .run .check)
    (hc : decodeCheck i s.initDone = none) (hp : (program i s.params)[0]? = some .ensureStandby)
    (hm : (enter i s).mode = .requested .standby) : exec i s = .next ((enter i s).atLine 2) := by
  have harrive : arrive (program i s.params) 0 (enter i s) = some 2 := by simp [arrive, hp, hm]
  rw [exec_command hi, runCommand_enters hs hc, goto_of_arrive harrive]

/-- A MODE line is one write of the mode's value, and MODE_SHADOW follows in the same step (R20, R101). -/
theorem exec_mode {i : Instr} {s : State} {n : Nat} {again : Bool} {m : RadioMode} (hs : s.seq = .run (.line n again))
    (hp : (program i s.params)[n]? = some (.mode m)) (hl : landsAt (program i s.params) (n + 1) = true) :
    exec i s = .next ((requestMode m s).atLine (n + 1)) := by
  rw [exec_line hs hp, runLine, goto_of_lands hl]

/-- A line that writes a known value is one write (R81). -/
theorem exec_wr_value {i : Instr} {s : State} {n : Nat} {again : Bool} {a : RegAddr} {v : Byte}
    (hs : s.seq = .run (.line n again)) (hp : (program i s.params)[n]? = some (.wr a (.value v)))
    (hl : landsAt (program i s.params) (n + 1) = true) : exec i s = .next ((spiWrite a v s).atLine (n + 1)) := by
  rw [exec_line hs hp]
  exact goto_of_lands hl _

/-- The read of register 0x12 puts the radio's answer into T_FLAGS, and MODE_SHADOW is STANDBY with it (R108, R109). -/
theorem exec_rdFlags {i : Instr} {s : State} {n : Nat} {again : Bool} {f : Byte} {fs : List Byte}
    (hs : s.seq = .run (.line n again)) (hp : (program i s.params)[n]? = some .rdFlags)
    (hl : landsAt (program i s.params) (n + 1) = true) (hq : s.misoIn = f :: fs) :
    exec i s = .next
      { s with
        seq := .run (.line (n + 1) false), mode := .requested .standby, misoIn := fs
        work := { s.work with flags := some f }, history := s.history ++ [.rd 0x12 f]
        port := s.port.transfer s.params.spiFormat (rdFirstByte 0x12) dummyByte } := by
  have answer : radioAnswer (s.setMode (.requested .standby)) = f := by simp [radioAnswer, hq]
  have taken : (s.setMode (.requested .standby)).takeAnswer = { s.setMode (.requested .standby) with misoIn := fs } :=
    takeAnswer_cons hq
  rw [exec_line hs hp, runLine, readInto, goto_of_lands hl, spiRead, answer, taken]
  rfl

/-- RECEIVE's last line maps T_WHICH and T_FLAGS to OUTCOME and completes (R109, R111). -/
theorem exec_complete_outcome {i : Instr} {s : State} {n : Nat} {again : Bool} {x : RxLine} {f : Byte}
    (hs : s.seq = .run (.line n again)) (hp : (program i s.params)[n]? = some (.complete .outcome))
    (hx : s.work.which = some x) (hf : s.work.flags = some f) :
    exec i s = .next (complete { s with outcome := mapOutcome x f }) := by
  rw [exec_line hs hp, runLine, finish, hx, hf, need_some, need_some]

/-- The write lines of a program stand one after the other behind the lines before them. -/
theorem getElem?_writeLines {ws : List (RegAddr × Byte)} (pre post : List SeqLine) {j : Nat} {a : RegAddr} {v : Byte}
    (h : ws[j]? = some (a, v)) : (pre ++ (writeLines ws ++ post))[pre.length + j]? = some (.wr a (.value v)) := by
  have hline : (writeLines ws)[j]? = some (.wr a (.value v)) := by simp [writeLines, h]
  rw [List.getElem?_append_right (Nat.le_add_right ..), Nat.add_sub_cancel_left,
    List.getElem?_append_left (List.getElem?_eq_some_iff.mp hline).1, hline]

/-! ### The waits, as the statements say that they end -/

/-- A `WaitHigh(L)` whose samples end it within the bound makes the events of those samples (R102). -/
theorem execSteps_wait_of_waitEnds {i : Instr} {s : State} {n : Nat} {L : WaitLine} {lows : List Levels} {last : Levels}
    {rest : List Levels} (hs : s.seq = .run (.line n false)) (hp : (program i s.params)[n]? = some (.wait L))
    (hq : s.lineIn = lows ++ last :: rest) (hw : WaitEnds s.params.waitBound (fun l => l.of L) lows last) :
    execSteps i (lows.length + 1) s = .next
      { s with
        seq := .run (.line (n + 1) false), lineIn := rest, work := { s.work with waitCnt := some lows.length }
        history := s.history ++ waitEvents L lows } := by
  obtain ⟨hlows, hlast, hbound⟩ := hw
  exact execSteps_wait hs hp hq hlows hlast hbound

/-- The line that ends a `WaitRx`: DONE where it is high, a tie included, else TIMEOUT (R103). -/
def winner (l : Levels) : RxLine := if l.rxDone then .done else .timeout

theorem rxWinner_of_high {l : Levels} (h : (l.rxDone || l.rxTimeout) = true) :
    rxWinner l.rxDone l.rxTimeout = some (winner l) := by
  cases hd : l.rxDone with
  | true => simp [rxWinner, winner, hd]
  | false =>
    have ht : l.rxTimeout = true := by simpa [hd] using h
    simp [rxWinner, winner, hd, ht]

/-- The outcome by the line that ended the wait and the CRC bit (R109). -/
theorem mapOutcome_winner (l : Levels) (f : Byte) :
    mapOutcome (winner l) f = if l.rxDone then (if f.getLsbD 5 then .wrongMessage else .crcOk) else .timeout := by
  cases hd : l.rxDone <;> simp [winner, hd, mapOutcome, crcError]

/-- A `WaitRx()` whose samples end it within the bound makes the events of those samples and sets T_WHICH (R103). -/
theorem execSteps_waitRx_of_waitEnds {i : Instr} {s : State} {n : Nat} {lows : List Levels} {last : Levels}
    {rest : List Levels} (hs : s.seq = .run (.line n false)) (hp : (program i s.params)[n]? = some .waitRx)
    (hq : s.lineIn = lows ++ last :: rest)
    (hw : WaitEnds s.params.waitBound (fun l => l.rxDone || l.rxTimeout) lows last) :
    execSteps i (lows.length + 1) s = .next
      { s with
        seq := .run (.line (n + 1) false), lineIn := rest
        work := { s.work with waitCnt := some lows.length, which := some (winner last) }
        history := s.history ++ waitRxEvents lows last } := by
  obtain ⟨hlows, hlast, hbound⟩ := hw
  exact execSteps_waitRx hs hp hq (fun l hl => Bool.or_eq_false_iff.mp (hlows l hl)) (rxWinner_of_high hlast) hbound

/-! ### The three parts of RECEIVE -/

/-- The writes RECEIVE makes before it requests the mode: IQ_RX and the line mapping (R108, R112). -/
def rxWrites (p : Params) : List (RegAddr × Byte) := [(0x33, p.iqRx33), (0x3B, p.iqRx3B), (0x40, p.dioMapRx)]

/-- RECEIVE (R111) as its writes between ENSURE_STANDBY and the rest. -/
theorem program_receive (p : Params) : program .receive p = ensureStandby ++ (writeLines (rxWrites p) ++
    [.mode .rxSingle, .wait .modeReady, .waitRx, .rdFlags, .wr 0x12 (.value 0xE0), .complete .outcome]) := rfl

/-- From the decode checks to the first wait: OUTCOME is NO_MESSAGE, the writes are made and RECEIVE-SINGLE is requested
(R17, R108, R112). -/
theorem receive_setup {s : State} (hs : s.seq = .run .check) (hd : s.initDone = true) (hm : s.mode = .requested .standby) :
    execSteps .receive 5 s = .next
      { s with
        seq := .run (.line 6 false), outcome := .noMessage, mode := .requested .rxSingle
        port := s.port.transfer s.params.spiFormat (wrFirstByte 0x01) s.params.modeRxSingle
        history := s.history ++ [.wr 0x33 s.params.iqRx33, .wr 0x3B s.params.iqRx3B, .wr 0x40 s.params.dioMapRx,
          .wr 0x01 s.params.modeRxSingle] } := by
  have passes : decodeCheck .receive s.initDone = none := by rw [hd]; rfl
  have check : exec .receive s = .next ((enter .receive s).atLine 2) := exec_check_of_standby rfl hs passes rfl hm
  have lines : ∀ j a v, (rxWrites s.params)[j]? = some (a, v) →
      (program .receive s.params)[2 + j]? = some (.wr a (.value v)) := fun j a v h => by
    rw [program_receive]; exact getElem?_writeLines ensureStandby _ h
  obtain ⟨p, -, writes⟩ := execSteps_writes (i := .receive) (s := (enter .receive s).atLine 2) (rxWrites s.params) 1 rfl
    lines rfl
  refine (execSteps_succ check).trans (writes.trans ((execSteps_one ..).trans ((exec_mode rfl rfl rfl).trans ?_)))
  simp [requestMode, spiWrite, State.record, State.setMode, State.atLine, enter, rxWrites, modeValue,
    transfer_eq_transfer p s.port]

/-- The wait for MODE_READY and the wait for the receive lines, both ending within the bound (R103, R108). -/
theorem receive_waits {s : State} {lows1 lows2 : List Levels} {last1 last2 : Levels} {rest : List Levels}
    (hs : s.seq = .run (.line 6 false)) (hline : s.lineIn = lows1 ++ last1 :: (lows2 ++ last2 :: rest))
    (hready : WaitEnds s.params.waitBound Levels.modeReady lows1 last1)
    (hrx : WaitEnds s.params.waitBound (fun l => l.rxDone || l.rxTimeout) lows2 last2) :
    execSteps .receive (lows1.length + 1 + (lows2.length + 1)) s = .next
      { s with
        seq := .run (.line 8 false), lineIn := rest
        work := { s.work with waitCnt := some lows2.length, which := some (winner last2) }
        history := s.history ++ waitEvents .modeReady lows1 ++ waitRxEvents lows2 last2 } := by
  have ready := execSteps_wait_of_waitEnds (i := .receive) (L := .modeReady) hs rfl hline hready
  refine (execSteps_add ready).trans ((execSteps_waitRx_of_waitEnds rfl rfl rfl ?_).trans rfl)
  exact hrx

/-- The flags read, with MODE_SHADOW back at STANDBY, the flags clear whatever the flags were, and completion with the outcome
(R108 to R111). -/
theorem receive_finish {s : State} {f : Byte} {fs : List Byte} {x : RxLine} (hs : s.seq = .run (.line 8 false))
    (hx : s.work.which = some x) (hq : s.misoIn = f :: fs) :
    execSteps .receive 3 s = .next (complete
      { s with
        outcome := mapOutcome x f, mode := .requested .standby, misoIn := fs
        port := s.port.transfer s.params.spiFormat (wrFirstByte 0x12) 0xE0
        history := s.history ++ [.rd 0x12 f, .wr 0x12 0xE0] }) := by
  refine (execSteps_succ (exec_rdFlags hs rfl rfl hq)).trans ((execSteps_succ (exec_wr_value rfl rfl rfl)).trans ?_)
  refine (execSteps_one ..).trans ((exec_complete_outcome (x := x) (f := f) rfl rfl ?_ rfl).trans ?_)
  · exact hx
  · simp [complete, endCommand, spiWrite, State.record, State.atLine, transfer_eq_transfer (s.port.transfer ..) s.port]

/-- The whole run of RECEIVE from MODE_SHADOW = STANDBY (R111): what completion finds. -/
theorem receive_run {s : State} {f : Byte} {fs : List Byte} {lows1 lows2 : List Levels} {last1 last2 : Levels}
    {rest : List Levels} (hs : s.seq = .run .check) (hd : s.initDone = true) (hm : s.mode = .requested .standby)
    (hmiso : s.misoIn = f :: fs) (hline : s.lineIn = lows1 ++ last1 :: (lows2 ++ last2 :: rest))
    (hready : WaitEnds s.params.waitBound Levels.modeReady lows1 last1)
    (hrx : WaitEnds s.params.waitBound (fun l => l.rxDone || l.rxTimeout) lows2 last2) :
    execSteps .receive (10 + lows1.length + lows2.length) s = .next (complete
      { s with
        outcome := mapOutcome (winner last2) f, mode := .requested .standby, misoIn := fs, lineIn := rest
        port := s.port.transfer s.params.spiFormat (wrFirstByte 0x12) 0xE0
        history := s.history ++
          ([.wr 0x33 s.params.iqRx33, .wr 0x3B s.params.iqRx3B, .wr 0x40 s.params.dioMapRx,
            .wr 0x01 s.params.modeRxSingle] ++
            waitEvents .modeReady lows1 ++ waitRxEvents lows2 last2 ++ [.rd 0x12 f, .wr 0x12 0xE0]) }) := by
  rw [show 10 + lows1.length + lows2.length = 5 + (lows1.length + 1 + (lows2.length + 1) + 3) by omega]
  refine (execSteps_add (receive_setup hs hd hm)).trans ?_
  refine (execSteps_add (receive_waits (last1 := last1) (last2 := last2) (rest := rest) rfl ?_ ?_ ?_)).trans ?_
  · exact hline
  · exact hready
  · exact hrx
  refine (receive_finish (f := f) (fs := fs) rfl rfl ?_).trans ?_
  · exact hmiso
  · simp [complete, endCommand, State.record, transfer_eq_transfer (s.port.transfer ..) s.port]

/-- Settles O27: the run is the decode step and the writes, the two waits, and the flags with completion. -/
theorem receiveRunsToDone : Obligations.ReceiveRunsToDone := by
  unfold Obligations.ReceiveRunsToDone
  intro s f fs lows1 lows2 last1 last2 rest hs hd hm hmiso hline hready hrx
  refine ⟨_, receive_run hs hd hm hmiso hline hready hrx, ?_, mapOutcome_winner last2 f, rfl, hd, rfl, rfl, rfl, rfl, rfl,
    rfl, ⟨rfl, rfl, rfl, rfl⟩, rfl, rfl, rfl, rfl, rfl, rfl, rfl, rfl⟩
  simp [hd]

end Sys2Proof.Machine
end

section
/-! The run of INIT (44_initialization.md R130 to R134): its three mode writes, its wait, and its fourteen register writes. -/

open Sys2Proof.Claims

namespace Sys2Proof.Machine

/-- The decode step of a command whose checks pass and whose first line is not passed over (R69). -/
theorem exec_check_of_lands {i : Instr} {s : State} (hi : i.isCommand = true) (hs : s.seq = .run .check)
    (hc : decodeCheck i s.initDone = none) (hl : landsAt (program i s.params) 0 = true) :
    exec i s = .next ((enter i s).atLine 0) := by
  rw [exec_command hi, runCommand_enters hs hc, goto_of_lands hl]

/-- INIT's last line sets INIT_DONE and completes (R130, R131). -/
theorem exec_complete_initDone {i : Instr} {s : State} {n : Nat} {again : Bool} (hs : s.seq = .run (.line n again))
    (hp : (program i s.params)[n]? = some (.complete .initDone)) :
    exec i s = .next (complete { s with initDone := true }) := by
  rw [exec_line hs hp, runLine, finish]

/-- The writes INIT makes once the radio is in Standby: channel 0, amplifiers, datarate 0, timeout and preamble, sync word and FIFO
bases (R130 (4) to (11), R134). -/
def initWrites (p : Params) : List (RegAddr × Byte) :=
  [(0x06, 0xD9), (0x07, 0x06), (0x08, 0x8B), (0x09, p.paValue), (0x0C, p.lnaBoost), (0x1E, 0xC4), (0x1D, 0x72), (0x26, 0x0C),
   (0x1F, 0x25), (0x20, 0x00), (0x21, 0x08), (0x39, p.syncWord), (0x0E, p.fifoTxBase), (0x0F, p.fifoRxBase)]

/-- INIT (R130) as its mode changes with their wait, its writes and its last line. -/
theorem program_init (p : Params) : program .init p =
    [.mode .sleep, .mode .loraSleep, .mode .standby, .wait .modeReady] ++
      (writeLines (initWrites p) ++ [.complete .initDone]) := rfl

/-- From the decode checks to the wait, whatever the mode: INIT_DONE is cleared, and Sleep, LoRa-Sleep and Standby are requested
(R14, R130 (1) to (3)). -/
theorem init_modes {s : State} (hs : s.seq = .run .check) :
    execSteps .init 4 s = .next
      { s with
        seq := .run (.line 3 false), initDone := false, mode := .requested .standby
        port := s.port.transfer s.params.spiFormat (wrFirstByte 0x01) s.params.modeStandby
        history := s.history ++ [.wr 0x01 s.params.modeSleep, .wr 0x01 s.params.modeLoraSleep,
          .wr 0x01 s.params.modeStandby] } := by
  refine (execSteps_succ (exec_check_of_lands rfl hs rfl rfl)).trans ?_
  refine (execSteps_succ (exec_mode (n := 0) (m := .sleep) rfl rfl rfl)).trans ?_
  refine (execSteps_succ (exec_mode (n := 1) (m := .loraSleep) rfl rfl rfl)).trans ?_
  refine (execSteps_one ..).trans ((exec_mode (n := 2) (m := .standby) rfl rfl rfl).trans ?_)
  simp [requestMode, spiWrite, State.record, State.setMode, State.atLine, enter, modeValue,
    transfer_eq_transfer (SpiPort.transfer ..) s.port]

/-- The mode changes and the wait for MODE_READY, ending within the bound (R102, R130 (1) to (3)). -/
theorem init_standby {s : State} {lows : List Levels} {last : Levels} {rest : List Levels} (hs : s.seq = .run .check)
    (hline : s.lineIn = lows ++ last :: rest) (hready : WaitEnds s.params.waitBound Levels.modeReady lows last) :
    execSteps .init (4 + (lows.length + 1)) s = .next
      { s with
        seq := .run (.line 4 false), initDone := false, mode := .requested .standby, lineIn := rest
        work := { s.work with waitCnt := some lows.length }
        port := s.port.transfer s.params.spiFormat (wrFirstByte 0x01) s.params.modeStandby
        history := s.history ++ [.wr 0x01 s.params.modeSleep, .wr 0x01 s.params.modeLoraSleep,
          .wr 0x01 s.params.modeStandby] ++ waitEvents .modeReady lows } :=
  (execSteps_add (init_modes hs)).trans (execSteps_wait_of_waitEnds rfl rfl hline hready)

/-- The writes behind the wait, then completion with INIT_DONE = 1 (R130 (4) to (11), R131). -/
theorem init_writes {s : State} (hs : s.seq = .run (.line 4 false)) :
    ∃ p : SpiPort, p.nss = true ∧ execSteps .init 15 s = .next (complete
      { s with
        initDone := true, port := p
        history := s.history ++ (initWrites s.params).map fun w => .wr w.1 w.2 }) := by
  have lines : ∀ j a v, (initWrites s.params)[j]? = some (a, v) →
      (program .init s.params)[4 + j]? = some (.wr a (.value v)) := fun j a v h => by
    rw [program_init]; exact getElem?_writeLines [_, _, _, _] _ h
  obtain ⟨p, hp, writes⟩ := execSteps_writes (initWrites s.params) 1 hs lines rfl
  refine ⟨p, hp (.inl (by simp [initWrites])), writes.trans ?_⟩
  exact (execSteps_one ..).trans (exec_complete_initDone rfl rfl)

/-- The whole run of INIT (R130, R132): what completion finds. -/
theorem init_run {s : State} {lows : List Levels} {last : Levels} {rest : List Levels} (hs : s.seq = .run .check)
    (hline : s.lineIn = lows ++ last :: rest) (hready : WaitEnds s.params.waitBound Levels.modeReady lows last) :
    ∃ p : SpiPort, p.nss = true ∧ execSteps .init (20 + lows.length) s = .next (complete
      { s with
        initDone := true, mode := .requested .standby, port := p, lineIn := rest
        history := s.history ++
          [.wr 0x01 s.params.modeSleep, .wr 0x01 s.params.modeLoraSleep, .wr 0x01 s.params.modeStandby] ++
            waitEvents .modeReady lows ++ (initWrites s.params).map fun w => .wr w.1 w.2 }) := by
  rw [show 20 + lows.length = 4 + (lows.length + 1) + 15 by omega, execSteps_add (init_standby hs hline hready)]
  exact init_writes rfl

/-- Settles O25: the run is the decode step and the mode writes, the wait, and the writes with completion. -/
theorem initRunsToDone : Obligations.InitRunsToDone := by
  unfold Obligations.InitRunsToDone
  intro s lows last rest hs hline hready
  obtain ⟨p, hp, run⟩ := init_run hs hline hready
  refine ⟨_, run, ?_, rfl, rfl, rfl, rfl, rfl, rfl, rfl, rfl, rfl, ⟨rfl, rfl, rfl, hp⟩, rfl, rfl, rfl, rfl, rfl, rfl, rfl, rfl⟩
  simp [initWrites]

end Sys2Proof.Machine
end

section
/-! Every step keeps the machine's invariant (10_state.md sections 2 to 4), and no step from a state that meets it stops the
machine. -/

namespace Sys2Proof.Machine

/-! ### Taking the turn -/

@[simp] theorem takeTurn_seq (s : State) : (takeTurn s).seq = s.seq := by
  unfold takeTurn
  split <;> rfl

@[simp] theorem takeTurn_seqCmd (s : State) : (takeTurn s).seqCmd = s.seqCmd := by
  unfold takeTurn
  split <;> rfl

/-- While RUN the sequencer stands at the decode checks, or at a line of a command whose word decodes (R23). -/
theorem StateInv.check_of_illegal {s : State} {pos : SeqPos} {r : Reject} (hi : StateInv s) (hs : s.seq = .run pos)
    (hd : decodeHcmd s.seqCmd = .error r) : s.seq = .run .check := by
  cases pos with
  | check => exact hs
  | line n again =>
    obtain ⟨i, l, hl⟩ := hi.lines n again hs
    exact absurd (hd.symm.trans hl.command) (by simp)

/-! ### One step -/

/-- A step of the running command answers a state that meets the invariant, at the decode checks and at every line. -/
theorem exec_keeps {s : State} {pos : SeqPos} {i : Instr} (hi : StateInv s) (hs : s.seq = .run pos)
    (hd : decodeHcmd s.seqCmd = .ok i) : ∃ t, exec i s = .next t ∧ StateInv t := by
  cases pos with
  | check => exact check_keeps hi hs hd
  | line n again =>
    obtain ⟨i', l, hl⟩ := hi.lines n again hs
    obtain rfl : i = i' := Except.ok.inj (hd.symm.trans hl.command)
    exact line_keeps hi hs hl

/-- So does the sequencer's turn, whatever it is: the hold while IDLE, the rejection of an illegal word, a step of the
command. -/
theorem sequencerTurn_keeps {s : State} (hi : StateInv s) (hn : nextTurn s = sequencerTurn s) :
    ∃ t, step s = .next t ∧ StateInv t := by
  have ht : StateInv (takeTurn s) := takeTurn_keeps hi
  cases hs : s.seq with
  | idle =>
    have hold : nextTurn s = .hold := by rw [hn, sequencerTurn, hs]
    exact ⟨takeTurn s, by rw [step, hold], ht⟩
  | run pos =>
    cases hd : decodeHcmd s.seqCmd with
    | ok i =>
      have instr : nextTurn s = .instr i := hn.trans (sequencerTurn_run hs hd)
      rw [step, instr]
      exact exec_keeps ht ((takeTurn_seq s).trans hs) ((congrArg decodeHcmd (takeTurn_seqCmd s)).trans hd)
    | error r =>
      have illegal : nextTurn s = .illegal := by rw [hn, sequencerTurn, hs]; simp only [hd]
      have check : (takeTurn s).seq = .run .check := (takeTurn_seq s).trans (hi.check_of_illegal hs hd)
      exact ⟨raiseError .illegalCmd (takeTurn s), by rw [step, illegal],
        stateInv_raiseError (InvCore.of_inv ht) (.inr (ht.resting (.inr check)).1)⟩

/-- Every step from a state that meets the invariant answers one that meets it. -/
theorem step_keeps {s : State} (hi : StateInv s) : ∃ t, step s = .next t ∧ StateInv t := by
  rcases nextTurn_cases hi.noLone with hn | ⟨a, as, -, hn⟩
  · exact sequencerTurn_keeps hi hn
  · exact ⟨hostAct a (takeTurn s), by rw [step, hn], hostAct_keeps a (takeTurn_keeps hi)⟩

/-- Settles O39: the one state `step` answers is the one that `step_keeps` says meets the invariant. -/
theorem stepKeepsInvariant : Obligations.StepKeepsInvariant := by
  unfold Obligations.StepKeepsInvariant
  intro s t hi ht
  obtain ⟨u, hu, hinv⟩ := step_keeps hi
  obtain rfl : t = u := Host.Outcome.next.inj (ht.symm.trans hu)
  exact hinv

/-- Settles O40, by `step_keeps`. -/
theorem stepNeverStops : Obligations.StepNeverStops := by
  unfold Obligations.StepNeverStops
  intro s hi
  obtain ⟨t, ht, -⟩ := step_keeps hi
  exact ⟨t, ht⟩

/-- Settles O24: the running command answers at its decode checks and at each of its lines. -/
theorem runningCommandAlwaysAnswers : Obligations.RunningCommandAlwaysAnswers := by
  unfold Obligations.RunningCommandAlwaysAnswers
  intro s pos i hi hs hd
  obtain ⟨t, ht, -⟩ := exec_keeps hi hs hd
  exact ⟨t, ht⟩

/-- The FIFO bases of the machine at reset differ: the gap is no multiple of 256 (R5). -/
theorem fifoTxBase_ne_fifoRxBase : Config.params.fifoTxBase ≠ Config.params.fifoRxBase := by
  have hgap : Config.fifoRxGap.val < 255 := Config.fifoRxGap.isLt
  have hrx : Config.params.fifoRxBase = Config.params.fifoTxBase + BitVec.ofNat 8 (Config.fifoRxGap.val + 1) := rfl
  rw [hrx]
  bv_omega

theorem params_wf : Config.params.wf = true := by
  have hbound : Config.params.waitBound = none := rfl
  simp [Params.wf, fifoTxBase_ne_fifoRxBase, hbound]

/-- Settles O38: at reset the machine is IDLE at rest, and what a step does not touch holds there too. -/
theorem resetMeetsInvariant : Obligations.ResetMeetsInvariant := by
  unfold Obligations.ResetMeetsInvariant
  exact stateInv_idle ⟨rfl, rfl, rfl, List.nodup_nil, params_wf, rfl⟩ rfl rfl (.inl rfl) rfl

end Sys2Proof.Machine
end

section
/-! The two word formats (30_encoding.md R60 to R66): decoding and encoding undo each other, and which words are refused. -/

namespace Sys2Proof

/-! ### What the decoders read -/

/-- A command without operand is read exactly where ARG is zero (R63). -/
theorem noOperand_ok_iff {i j : Instr} {arg : Byte} : noOperand i arg = .ok j ↔ arg = 0#8 ∧ i = j := by
  unfold noOperand
  split <;> simp [*]

theorem noOperand_error_iff {i : Instr} {arg : Byte} : (∃ r, noOperand i arg = .error r) ↔ arg ≠ 0#8 := by
  unfold noOperand
  split <;> simp [*]

/-- The command decoder refuses every OP without a row (R61, R63). -/
theorem decodeHcmd_unassigned {w : HalfWord} (h : (opField w).toNat = 0 ∨ 7 ≤ (opField w).toNat) :
    decodeHcmd w = .error .unassignedOpcode := by
  unfold decodeHcmd
  split
  case h_7 => rfl
  all_goals omega

/-- A command word by the number its OP is (R60). -/
theorem word_of_opField {w : HalfWord} {k : Nat} (h : (opField w).toNat = k) : BitVec.ofNat 8 k ++ argField w = w := by
  rw [← byte_of_toNat h, opField_argField]

/-! ### Encoding, then decoding -/

theorem decodeHcmd_encode {i : Instr} (hi : i.isCommand = true) : decodeHcmd (encode i) = .ok i := by
  cases i with
  | rd a => cases hi
  | wr a v => cases hi
  | init => rfl
  | receive => rfl
  | getPacket => rfl
  | _ => simp [encode, decodeHcmd]

theorem decodeSpif_encode {i : Instr} (hi : i.isCommand = false) : decodeSpif (encode i) = .ok i := by
  cases i with
  | rd a => simp [encode, decodeSpif]
  | wr a v => simp [encode, decodeSpif]
  | _ => cases hi

/-- The addresses the NRC reads are no opcodes of a command: 0x00 and 0x0E to 0x13 (R28, R61). -/
theorem readAddrs_unassigned : ∀ a : RegAddr, readAddrs.contains a = true →
    (0#1 ++ a : Byte).toNat = 0 ∨ 7 ≤ (0#1 ++ a : Byte).toNat := by decide

/-- The write flag puts a frame above every opcode (R61, R64). -/
theorem writeFlag_unassigned : ∀ a : RegAddr, 7 ≤ (1#1 ++ a : Byte).toNat := by decide

/-- The frame of a transaction that the NRC makes is no command word. -/
theorem decodeHcmd_frame {i : Instr} (hi : i.isCommand = false) (hw : i.wf = true) :
    decodeHcmd (encode i) = .error .unassignedOpcode := by
  cases i with
  | rd a =>
    have hop : opField (encode (.rd a)) = 0#1 ++ a := opField_append (0#1 ++ a) 0x00
    exact decodeHcmd_unassigned (by rw [hop]; exact readAddrs_unassigned a hw)
  | wr a v =>
    have hop : opField (encode (.wr a v)) = 1#1 ++ a := opField_append (1#1 ++ a) v
    exact decodeHcmd_unassigned (by rw [hop]; exact .inr (writeFlag_unassigned a))
  | _ => cases hi

/-- Settles O1: each format's decoder undoes the encoder, and a word of untold format is read as a frame only where the
command decoder refuses it. -/
theorem decodeOfEncode : Obligations.DecodeOfEncode := by
  unfold Obligations.DecodeOfEncode
  refine ⟨fun i => ?_, fun i hw => ?_⟩
  · cases hi : i.isCommand with
    | true => simpa [decodeFor, hi] using decodeHcmd_encode hi
    | false => simpa [decodeFor, hi] using decodeSpif_encode hi
  · cases hi : i.isCommand with
    | true => simp [decodeAny, decodeHcmd_encode hi]
    | false => simp [decodeAny, decodeHcmd_frame hi hw, decodeSpif_encode hi]

/-! ### Decoding, then encoding -/

theorem encode_of_decodeHcmd {w : HalfWord} {i : Instr} (h : decodeHcmd w = .ok i) : encode i = w := by
  have operandFree : ∀ {j : Instr} {k : Nat}, (opField w).toNat = k → noOperand j (argField w) = .ok i →
      i = j ∧ BitVec.ofNat 8 k ++ 0#8 = w := by
    intro j k hop hj
    obtain ⟨harg, rfl⟩ := noOperand_ok_iff.mp hj
    exact ⟨rfl, harg ▸ word_of_opField hop⟩
  unfold decodeHcmd at h
  split at h
  case h_7 => cases h
  case h_1 hop => obtain ⟨rfl, hw⟩ := operandFree hop h; exact hw
  case h_3 hop => obtain ⟨rfl, hw⟩ := operandFree hop h; exact hw
  case h_4 hop => obtain ⟨rfl, hw⟩ := operandFree hop h; exact hw
  all_goals
    next hop =>
      obtain rfl := Except.ok.inj h
      exact word_of_opField hop

theorem decodeSpif_ok {f : HalfWord} {i : Instr} (h : decodeSpif f = .ok i) : i.isCommand = false ∧ encode i = f := by
  have fields := frame_fields f
  unfold decodeSpif at h
  split at h
  next hwrite =>
    obtain rfl := Except.ok.inj h
    rw [hwrite] at fields
    exact ⟨rfl, fields⟩
  next hread =>
    split at h
    next hdata =>
      obtain rfl := Except.ok.inj h
      rw [Bool.eq_false_of_not_eq_true hread, hdata] at fields
      exact ⟨rfl, fields⟩
    · cases h

/-- Settles O2: a decoded word is put together again from the fields it was cut into. -/
theorem encodeOfDecode : Obligations.EncodeOfDecode := by
  unfold Obligations.EncodeOfDecode
  exact fun w i => ⟨fun h => ⟨Machine.isCommand_of_decodeHcmd h, encode_of_decodeHcmd h⟩, decodeSpif_ok⟩

/-! ### The words that are refused -/

/-- The command decoder refuses the OPs without a row, and a non-zero ARG under the three OPs without operand (R63). -/
theorem decodeHcmd_error_iff (w : HalfWord) : (∃ r, decodeHcmd w = .error r) ↔
    ((opField w).toNat = 0 ∨ 7 ≤ (opField w).toNat) ∨
    (((opField w).toNat = 1 ∨ (opField w).toNat = 3 ∨ (opField w).toNat = 4) ∧ argField w ≠ 0#8) := by
  unfold decodeHcmd
  split
  case h_7 =>
    have unassigned : (opField w).toNat = 0 ∨ 7 ≤ (opField w).toNat := by grind
    simp [unassigned]
  all_goals
    next hop => simp [hop, noOperand_error_iff]

/-- The frame decoder refuses a read that carries no dummy byte (R65). -/
theorem decodeSpif_error_iff (f : HalfWord) :
    (∃ r, decodeSpif f = .error r) ↔ (frameWrite f = false ∧ frameData f ≠ 0#8) := by
  unfold decodeSpif
  split
  · simp [*]
  · split <;> simp [*]

/-- Settles O3: the two decoders' refusals, in the raw fields. -/
theorem decodersRefuseIllegalWords : Obligations.DecodersRefuseIllegalWords := by
  unfold Obligations.DecodersRefuseIllegalWords
  intro w
  have arg : argField w ≠ 0#8 ↔ (w.extractLsb' 0 8).toNat ≠ 0 := not_congr BitVec.toNat_eq
  exact ⟨(decodeHcmd_error_iff w).trans (by rw [arg]; rfl), decodeSpif_error_iff w⟩

/-- Settles O4: each word is computed. -/
theorem specWordsDecode : Obligations.SpecWordsDecode := by
  unfold Obligations.SpecWordsDecode
  exact ⟨rfl, rfl, rfl, rfl, rfl, rfl, rfl, rfl⟩

end Sys2Proof
end

section
/-! What a step adds to the event history (20_memory.md R56): line by line of the pseudocode, then for the machine. -/

namespace Sys2Proof.Machine

/-! ### The events of a line -/

/-- The events that performing a line from `s` adds to the history. -/
def SeqLine.Adds (s : State) (es : List Event) : SeqLine → Prop
  | .wr a _        => ∃ v, es = [.wr a v]
  | .wrFifoPtr     => ∃ v, es = [.wr 0x0D v]
  | .rd a _        => ∃ v, es = [.rd a v]
  | .rdFlags       => ∃ v, es = [.rd 0x12 v]
  | .mode m        => es = [.wr 0x01 (modeValue s.params m)]
  | .ensureStandby => es = [.wr 0x01 (modeValue s.params .standby)]
  | .wait L        => ∃ level, es = [.sample L level] ∨ ∃ w, es = [.sample L level, .done w]
  | .waitRx        => ∃ done timeout, es = [.sampleRx done timeout] ∨ ∃ w, es = [.sampleRx done timeout, .done w]
  | .hbRead        => ∃ i, bufferIndex s.work = some i ∧ es = [.hbRd i (bufferByte i s)]
  | .fifoWrite     => ∃ v, es = [.wr 0x00 v]
  | .fifoRead      => ∃ v, es = [.rd 0x00 v]
  | .hbWrite       => ∃ i b, bufferIndex s.work = some i ∧ s.work.byte = some b ∧ es = [.hbWr i b]
  | .complete _    => ∃ w, es = [.done w]

/-- Going on at a line records nothing. -/
theorem Arrives.history {prog : List SeqLine} {n : Nat} {s t : State} (h : Arrives prog n s t) : t.history = s.history := by
  obtain ⟨m, -, rfl⟩ := h
  rfl

/-- The last line of a command records `Done` and nothing else (R72). -/
theorem complete_adds {prog : List SeqLine} {n : Nat} {again : Bool} {s t : State} {e : Ending}
    (h : LeavesState prog n again s t (.complete e)) : ∃ w, t.history = s.history ++ [.done w] := by
  cases e with
  | outcome => obtain ⟨x, f, -, -, rfl⟩ := h; exact ⟨_, rfl⟩
  | rxLen => obtain ⟨k, -, rfl⟩ := h; exact ⟨_, rfl⟩
  | _ => obtain rfl := h; exact ⟨_, rfl⟩

/-- A line that answers a next state has added its events. -/
theorem line_adds {prog : List SeqLine} {n : Nat} {again : Bool} {s t : State} {l : SeqLine}
    (h : LeavesState prog n again s t l) : ∃ es, t.history = s.history ++ es ∧ l.Adds s es := by
  cases l with
  | wr a src => obtain ⟨v, -, h⟩ := h; exact ⟨_, h.history, v, rfl⟩
  | wrFifoPtr => obtain ⟨v, -, h⟩ := h; exact ⟨_, h.history, v, rfl⟩
  | rd a d => exact ⟨_, h.history, _, rfl⟩
  | rdFlags => exact ⟨_, h.history, _, rfl⟩
  | mode m => exact ⟨_, h.history, rfl⟩
  | ensureStandby => exact ⟨_, h.history, rfl⟩
  | wait L =>
    obtain ⟨c, -, h⟩ := h
    rcases sampleLine_next h with ⟨-, h⟩ | ⟨-, -, rfl⟩ | ⟨-, -, rfl⟩
    · exact ⟨_, h.history, _, .inl rfl⟩
    · exact ⟨_, List.append_assoc .., _, .inr ⟨_, rfl⟩⟩
    · exact ⟨_, rfl, _, .inl rfl⟩
  | waitRx =>
    obtain ⟨c, -, h⟩ := h
    rcases sampleRxLines_next h with ⟨x, -, h⟩ | ⟨-, -, rfl⟩ | ⟨-, -, rfl⟩
    · exact ⟨_, h.history, _, _, .inl rfl⟩
    · exact ⟨_, List.append_assoc .., _, _, .inr ⟨_, rfl⟩⟩
    · exact ⟨_, rfl, _, _, .inl rfl⟩
  | hbRead => obtain ⟨i, hi, h⟩ := h; exact ⟨_, h.history, i, hi, rfl⟩
  | fifoWrite => obtain ⟨b, j, -, -, h⟩ := h; exact ⟨_, h.history, b, rfl⟩
  | fifoRead => exact ⟨_, h.history, _, rfl⟩
  | hbWrite => obtain ⟨i, b, j, hi, hb, -, h⟩ := h; exact ⟨_, h.history, i, b, hi, hb, rfl⟩
  | complete e => obtain ⟨w, h⟩ := complete_adds h; exact ⟨_, h, w, rfl⟩

/-- A line adds at most two events: a sample that gives up records `Done` as well. -/
theorem SeqLine.Adds.length_le {s : State} {es : List Event} {l : SeqLine} (h : l.Adds s es) : es.length ≤ 2 := by
  cases l with
  | mode m => obtain rfl := h; simp
  | ensureStandby => obtain rfl := h; simp
  | wait L => obtain ⟨level, rfl | ⟨w, rfl⟩⟩ := h <;> simp
  | waitRx => obtain ⟨done, timeout, rfl | ⟨w, rfl⟩⟩ := h <;> simp
  | hbRead => obtain ⟨i, -, rfl⟩ := h; simp
  | hbWrite => obtain ⟨i, b, -, -, rfl⟩ := h; simp
  | _ => obtain ⟨v, rfl⟩ := h; simp

/-- What a line does does not depend on the host's queue. -/
theorem SeqLine.Adds.of_hostIn {s : State} {q : List HostAction} {es : List Event} {l : SeqLine}
    (h : l.Adds { s with hostIn := q } es) : l.Adds s es := by
  cases l <;> exact h

/-! ### The events of a step -/

/-- Events that the NRC makes no transaction, sample or access by: none, or one of the life of a command. -/
def Quiet (es : List Event) : Prop := es = [] ∨ ∃ w, es = [.accept w] ∨ es = [.drop w] ∨ es = [.done w]

theorem Quiet.not_active {es : List Event} (h : Quiet es) : ∀ e ∈ es, e.active = false := by
  obtain rfl | ⟨w, rfl | rfl | rfl⟩ := h <;> simp [Event.active]

theorem Quiet.length_le {es : List Event} (h : Quiet es) : es.length ≤ 2 := by
  obtain rfl | ⟨w, rfl | rfl | rfl⟩ := h <;> simp

/-- An event that is no transaction, sample or access is permitted. -/
theorem permitted_of_not_active {e : Event} (h : e.active = false) : e.permitted = true := by
  cases e with
  | accept w => rfl
  | drop w => rfl
  | done w => rfl
  | _ => cases h

/-- Of the host's actions reset empties the history, and a write to CMD records what became of its word. -/
theorem hostAct_history (a : HostAction) (s : State) :
    (a = .reset ∧ (hostAct a s).history = []) ∨ ∃ es, (hostAct a s).history = s.history ++ es ∧ Quiet es := by
  have same : ∀ t : State, t.history = s.history → ∃ es, t.history = s.history ++ es ∧ Quiet es :=
    fun t h => ⟨[], by simp [h], .inl rfl⟩
  cases a with
  | write i w =>
    right
    simp only [hostAct, windowWrite]
    split
    · split
      · exact ⟨_, rfl, .inr ⟨w, .inr (.inl rfl)⟩⟩
      · exact ⟨_, rfl, .inr ⟨w, .inl rfl⟩⟩
    · exact same _ rfl
  | load i =>
    right
    simp only [hostAct, hostLoad]
    split <;> exact same _ rfl
  | reset => exact .inl ⟨rfl, rfl⟩
  | _ => exact .inr (same _ rfl)

/-- The ways a step changes the history, from a state that meets the invariant: a reset, events of the life of a
command, or the events of the line that SEQ_PC stands at. -/
theorem step_adds {s t : State} (hi : StateInv s) (h : step s = .next t) :
    (nextTurn s = .host .reset ∧ t.history = []) ∨
    (∃ es, t.history = s.history ++ es ∧ Quiet es) ∨
    (∃ i n again l es, s.seq = .run (.line n again) ∧ LineInv s n again i l ∧
      LeavesState (program i s.params) n again { s with hostIn := s.hostIn.tail } t l ∧
      t.history = s.history ++ es ∧ l.Adds s es) := by
  obtain ⟨s', rfl, ways⟩ := step_ways hi h
  rcases ways with ⟨e, -, rfl, -⟩ | ⟨i, -, -, -, ha⟩ | ⟨i, n, again, l, hs, hl, hleaves⟩ | ⟨a, -, ht, rfl⟩ | ⟨-, rfl⟩
  · exact .inr (.inl ⟨_, rfl, .inr ⟨_, .inr (.inr rfl)⟩⟩)
  · exact .inr (.inl ⟨[], by rw [ha.history, enter_history, List.append_nil], .inl rfl⟩)
  · obtain ⟨es, hes, hadds⟩ := line_adds hleaves
    exact .inr (.inr ⟨i, n, again, l, es, hs, hl, hleaves, hes, hadds.of_hostIn⟩)
  · rcases hostAct_history a { s with hostIn := s.hostIn.tail } with ⟨rfl, h⟩ | h
    · exact .inl ⟨ht, h⟩
    · exact .inr (.inl h)
  · exact .inr (.inl ⟨[], by simp, .inl rfl⟩)

/-- A transaction, sample or access that a step records is of the line that SEQ_PC stands at. -/
theorem step_records_line {s t : State} {e : Event} (hi : StateInv s) (h : step s = .next t)
    (he : t.history = s.history ++ [e]) (ha : e.active = true) :
    ∃ i n again l, s.seq = .run (.line n again) ∧ LineInv s n again i l ∧
      LeavesState (program i s.params) n again { s with hostIn := s.hostIn.tail } t l ∧ l.Adds s [e] := by
  rcases step_adds hi h with ⟨-, hh⟩ | ⟨es, hh, hq⟩ | ⟨i, n, again, l, es, hs, hl, hleaves, hh, hadds⟩
  · rw [hh] at he; simp at he
  · obtain rfl : es = [e] := List.append_cancel_left (hh.symm.trans he)
    exact absurd (hq.not_active e (by simp)) (by simp [ha])
  · obtain rfl : es = [e] := List.append_cancel_left (hh.symm.trans he)
    exact ⟨i, n, again, l, hs, hl, hleaves, hadds⟩

/-! ### The history grows -/

/-- The ways a step of a command goes, at whatever position it is made: rejected, entered, or the line that SEQ_PC
stands at. -/
theorem exec_command_cases {i : Instr} {s t : State} (hc : i.isCommand = true) (h : exec i s = .next t) :
    (∃ e, t = raiseError e s) ∨ Arrives (program i s.params) 0 (enter i s) t ∨
    ∃ n again l, s.seq = .run (.line n again) ∧ (program i s.params)[n]? = some l ∧
      LeavesState (program i s.params) n again s t l := by
  rw [exec_command hc] at h
  rcases runCommand_cases h with ⟨e, -, -, ht⟩ | ⟨-, -, ha⟩ | ⟨n, again, l, hs, hl, hrun⟩
  · exact .inl ⟨e, ht⟩
  · exact .inr (.inl ha)
  · exact .inr (.inr ⟨n, again, l, hs, hl, runLine_leaves hrun⟩)

/-- A step of any instruction appends at most two events, at every position and in every state. -/
theorem exec_adds {i : Instr} {s t : State} (h : exec i s = .next t) :
    ∃ es, t.history = s.history ++ es ∧ es.length ≤ 2 := by
  have command : i.isCommand = true → ∃ es, t.history = s.history ++ es ∧ es.length ≤ 2 := by
    intro hc
    rcases exec_command_cases hc h with ⟨e, rfl⟩ | ha | ⟨n, again, l, -, -, hleaves⟩
    · exact ⟨_, rfl, by simp⟩
    · exact ⟨[], by rw [ha.history, enter_history, List.append_nil], by simp⟩
    · obtain ⟨es, hes, hadds⟩ := line_adds hleaves
      exact ⟨es, hes, hadds.length_le⟩
  cases i with
  | rd a => obtain rfl := Host.Outcome.next.inj h; exact ⟨_, rfl, by simp⟩
  | wr a v => obtain rfl := Host.Outcome.next.inj h; exact ⟨_, rfl, by simp⟩
  | _ => exact command rfl

@[simp] theorem takeTurn_history (s : State) : (takeTurn s).history = s.history := by
  unfold takeTurn
  split <;> rfl

/-- Settles O43: an instruction's step and an action of the host each append at most two events, but for the reset. -/
theorem historyOnlyGrows : Obligations.HistoryOnlyGrows := by
  unfold Obligations.HistoryOnlyGrows
  intro s t h
  rcases step_cases h with ⟨i, -, he⟩ | ⟨-, rfl⟩ | ⟨a, ht, rfl⟩ | ⟨-, rfl⟩
  · obtain ⟨es, hes, hlen⟩ := exec_adds he
    exact .inl ⟨es, by rw [hes, takeTurn_history], hlen⟩
  · exact .inl ⟨_, by rw [raiseError_history, takeTurn_history], by simp⟩
  · rcases hostAct_history a (takeTurn s) with ⟨rfl, h⟩ | ⟨es, hes, hq⟩
    · exact .inr ⟨ht, h⟩
    · exact .inl ⟨es, by rw [hes, takeTurn_history], hq.length_le⟩
  · exact .inl ⟨[], by simp, by simp⟩

/-- Settles O44: while BUSY = 0 SEQ_PC stands at no line, so a step adds only events of the life of a command; and IDLE
is the hold, which does nothing but take the turn. -/
theorem noActivityWhileIdle : Obligations.NoActivityWhileIdle := by
  unfold Obligations.NoActivityWhileIdle
  have hold : ∀ {s : State}, s.lone = none → s.seq = .idle → (s.hostIn = [] ∨ s.hostIn.head? = some .turn) →
      step s = .next { s with hostIn := s.hostIn.tail } := by
    intro s hl hs hq
    have hturn : nextTurn s = .hold := by rw [nextTurn_sequencer hl hq, sequencerTurn, hs]
    rw [step, hturn, takeTurn_of_no_lone hl]
  refine ⟨fun s t hi hb h e he => ?_, fun s hl hs hq => ?_, fun s rest hl hs hq => ?_⟩
  · rcases step_adds hi h with ⟨-, hh⟩ | ⟨es, hh, hquiet⟩ | ⟨i, n, again, l, es, hs, -⟩
    · rw [hh] at he; cases he
    · rw [hh] at he
      exact (List.mem_append.mp he).imp_right (hquiet.not_active e)
    · exact absurd (hi.busy_of_run hs) (by simp [hb])
  · have same : { s with hostIn := s.hostIn.tail } = s := by rw [hq, List.tail_nil, ← hq]
    rw [hold hl hs (.inl hq), same]
  · rw [hold hl hs (.inr (by simp [hq])), hq, List.tail_cons]

end Sys2Proof.Machine
end

section
/-! Where each kind of line stands in a program, and what follows for a step: the radio registers it accesses
(10_state.md R28), the mode it is made in (70_reset_and_hazards.md R164, R165), the mode writes (42_mode_controller.md
R105), and the buffer accesses (20_memory.md R41, R55). -/

namespace Sys2Proof.Machine

/-! ### The place of a line -/

/-- Line `n` of the program of `i`, as the claims about steps need it: accesses of R28's map with the access of its
column, the mode register written by the mode lines alone; writes in Standby (R165); each mode write followed as R105
says; and the lines that one command alone has. -/
def placed (i : Instr) (prog : List SeqLine) (n : Nat) (l : SeqLine) : Bool :=
  match l with
  | .wr a _             => writeAddrs.contains a && a != 0x01 && decide (lastMode (prog.take n) = some .standby)
  | .wrFifoPtr          => decide (lastMode (prog.take n) = some .standby)
  | .fifoWrite          => decide (lastMode (prog.take n) = some .standby)
  | .rd a _             => readAddrs.contains a
  | .rdFlags            => decide (i = .receive) && decide (lastMode (prog.take n) = some .rxSingle)
  | .mode .sleep        => decide (prog[n + 1]? = some (.mode .loraSleep))
  | .mode .loraSleep    =>
    decide (i = .init) && decide (lastMode (prog.take n) = some .sleep) && decide (prog[n + 1]? = some (.mode .standby))
  | .mode _             => decide (prog[n + 1]? = some (.wait .modeReady))
  | .ensureStandby      => decide (prog[n + 1]? = some (.wait .modeReady))
  | .hbRead             => isSendInstr i
  | .hbWrite            => decide (i = .getPacket)
  | .complete .standby  => isSendInstr i && decide (lastMode (prog.take n) = some .tx)
  | _                   => true

/-- Every line of a program is placed so. -/
def allPlaced (i : Instr) (prog : List SeqLine) : Bool :=
  (List.range prog.length).all fun n =>
    match prog[n]? with
    | some l => placed i prog n l
    | none   => true

/-- So it is in the program of every instruction, legal or not. -/
theorem program_allPlaced (i : Instr) (p : Params) : allPlaced i (program i p) = true := by
  cases i with
  | changeChannel k =>
    have h : ∀ k, allPlaced (.changeChannel k) (changeChannelProgram k) = true := by decide
    exact h k
  | changeDatarate k =>
    have h : ∀ k, allPlaced (.changeDatarate k) (changeDatarateProgram k) = true := by decide
    exact h k
  | _ => rfl

theorem line_placed {i : Instr} {p : Params} {n : Nat} {l : SeqLine} (hl : (program i p)[n]? = some l) :
    placed i (program i p) n l = true := by
  have hn := (List.getElem?_eq_some_iff.mp hl).1
  have := List.all_eq_true.mp (program_allPlaced i p) n (List.mem_range.mpr hn)
  rwa [hl] at this

theorem send_of_isSendInstr {i : Instr} (h : isSendInstr i = true) : ∃ k, i = .send k := by
  cases i with
  | send k => exact ⟨k, rfl⟩
  | _ => cases h

/-- MODE_SHADOW is what the lines before the running one have settled (R20, R104). -/
theorem LineInv.mode_eq {s : State} {n : Nat} {again : Bool} {i : Instr} {l : SeqLine} {m : RadioMode}
    (h : LineInv s n again i l) (hm : decide (lastMode ((program i s.params).take n) = some m) = true) :
    s.mode = .requested m := h.shadow m (of_decide_eq_true hm)

/-! ### The index of a buffer access -/

/-- Inside a byte loop the buffer index is below T_LEN (R41). -/
theorem bufferIndex_lt_len {w : Work} {i : Byte} (hin : insideLoop w = true) (hi : bufferIndex w = some i) :
    ∃ len, w.len = some len ∧ i.toNat < len.toNat := by
  unfold insideLoop at hin
  split at hin
  next j len hj hlen =>
    have lt : j.toNat < len.toNat := of_decide_eq_true hin
    have index : j.setWidth 8 = i := by simpa [bufferIndex, hj] using hi
    refine ⟨len, hlen, ?_⟩
    rw [← index, BitVec.toNat_setWidth]
    omega
  · cases hin

theorem bufferIndex_ne_255 {w : Work} {i : Byte} (hin : insideLoop w = true) (hi : bufferIndex w = some i) :
    (i != 0xFF) = true := by
  obtain ⟨len, -, lt⟩ := bufferIndex_lt_len hin hi
  rw [bne_iff_ne]
  rintro rfl
  have : len.toNat < 256 := len.isLt
  have : (0xFF : Byte).toNat = 255 := rfl
  omega

/-! ### Which accesses the NRC makes -/

/-- The events of a line of the running command are permitted. -/
theorem LineInv.adds_permitted {s : State} {n : Nat} {again : Bool} {i : Instr} {l : SeqLine} {es : List Event}
    (h : LineInv s n again i l) (ha : l.Adds s es) : ∀ e ∈ es, e.permitted = true := by
  have hp := line_placed h.position
  have hr := h.ready
  cases l with
  | wr a src =>
    simp only [placed, Bool.and_eq_true] at hp
    obtain ⟨v, rfl⟩ := ha
    exact List.forall_mem_singleton.mpr hp.1.1
  | rd a d => obtain ⟨v, rfl⟩ := ha; exact List.forall_mem_singleton.mpr hp
  | mode m => obtain rfl := ha; exact List.forall_mem_singleton.mpr rfl
  | ensureStandby => obtain rfl := ha; exact List.forall_mem_singleton.mpr rfl
  | wait L => obtain ⟨level, rfl | ⟨w, rfl⟩⟩ := ha <;> simp [Event.permitted]
  | waitRx => obtain ⟨done, timeout, rfl | ⟨w, rfl⟩⟩ := ha <;> simp [Event.permitted]
  | hbRead => obtain ⟨x, hx, rfl⟩ := ha; exact List.forall_mem_singleton.mpr (bufferIndex_ne_255 hr hx)
  | hbWrite =>
    obtain ⟨x, b, hx, -, rfl⟩ := ha
    exact List.forall_mem_singleton.mpr (bufferIndex_ne_255 (Bool.and_eq_true_iff.mp hr).1 hx)
  | _ => obtain ⟨v, rfl⟩ := ha; exact List.forall_mem_singleton.mpr rfl

/-- Settles O41: a step's events are those of the life of a command, or those of a line placed in a program. -/
theorem onlyMappedAccesses : Obligations.OnlyMappedAccesses := by
  unfold Obligations.OnlyMappedAccesses
  intro s t hi h e he
  rcases step_adds hi h with ⟨-, hh⟩ | ⟨es, hh, hquiet⟩ | ⟨i, n, again, l, es, -, hl, -, hh, hadds⟩
  · rw [hh] at he; cases he
  · rw [hh] at he
    exact (List.mem_append.mp he).imp_right fun he => permitted_of_not_active (hquiet.not_active e he)
  · rw [hh] at he
    exact (List.mem_append.mp he).imp_right (hl.adds_permitted hadds e)

/-! ### Writes -/

/-- The lines that record a write: a configuration or FIFO write, or a write of a mode to 0x01. -/
theorem SeqLine.Adds.wr_cases {s : State} {l : SeqLine} {a : RegAddr} {v : Byte} (h : l.Adds s [.wr a v]) :
    (∃ src, l = .wr a src) ∨ l = .wrFifoPtr ∨ l = .fifoWrite ∨
    (a = 0x01 ∧ ∃ m, (l = .mode m ∨ (l = .ensureStandby ∧ m = .standby)) ∧ v = modeValue s.params m) := by
  cases l with
  | wr b src =>
    obtain ⟨x, hx⟩ := h
    obtain ⟨rfl, rfl⟩ : a = b ∧ v = x := by simpa using hx
    exact .inl ⟨src, rfl⟩
  | wrFifoPtr => exact .inr (.inl rfl)
  | fifoWrite => exact .inr (.inr (.inl rfl))
  | mode m =>
    obtain ⟨rfl, rfl⟩ : a = 0x01 ∧ v = modeValue s.params m := by simpa [SeqLine.Adds] using h
    exact .inr (.inr (.inr ⟨rfl, m, .inl rfl, rfl⟩))
  | ensureStandby =>
    obtain ⟨rfl, rfl⟩ : a = 0x01 ∧ v = modeValue s.params .standby := by simpa [SeqLine.Adds] using h
    exact .inr (.inr (.inr ⟨rfl, .standby, .inr ⟨rfl, rfl⟩, rfl⟩))
  | _ => simp [SeqLine.Adds] at h

/-- Settles O55: every line that writes another register than 0x01 stands where the last mode settled is Standby. -/
theorem configurationOnlyInStandby : Obligations.ConfigurationOnlyInStandby := by
  unfold Obligations.ConfigurationOnlyInStandby
  intro s t a v hi h he ha
  obtain ⟨i, n, again, l, -, hl, -, hadds⟩ := step_records_line hi h he rfl
  have hp := line_placed hl.position
  rcases hadds.wr_cases with ⟨src, rfl⟩ | rfl | rfl | ⟨rfl, -⟩
  · exact hl.mode_eq (Bool.and_eq_true_iff.mp hp).2
  · exact hl.mode_eq hp
  · exact hl.mode_eq hp
  · exact absurd rfl ha

/-! ### MODE_SHADOW -/

/-- Going on at a line leaves MODE_SHADOW. -/
theorem Arrives.mode {prog : List SeqLine} {n : Nat} {s t : State} (h : Arrives prog n s t) : t.mode = s.mode := by
  obtain ⟨m, -, rfl⟩ := h
  rfl

/-- The lines that write MODE_SHADOW (R20): the mode lines, RECEIVE's read of 0x12, the last line of SEND, and a wait
that gives up. -/
theorem line_mode {prog : List SeqLine} {n : Nat} {again : Bool} {s t : State} {l : SeqLine}
    (h : LeavesState prog n again s t l) :
    t.mode = s.mode ∨
    (∃ m, (l = .mode m ∨ (l = .ensureStandby ∧ m = .standby)) ∧ t.mode = .requested m) ∨
    (l = .rdFlags ∧ t.mode = .requested .standby) ∨
    (l = .complete .standby ∧ t.mode = .requested .standby ∧ t.busy = false) ∨
    (t.mode = .unknown ∧ t.err = .waitTimeout ∧ t.busy = false) := by
  cases l with
  | mode m => exact .inr (.inl ⟨m, .inl rfl, h.mode⟩)
  | ensureStandby => exact .inr (.inl ⟨.standby, .inr ⟨rfl, rfl⟩, h.mode⟩)
  | rdFlags => exact .inr (.inr (.inl ⟨rfl, h.mode⟩))
  | wait L =>
    obtain ⟨c, -, h⟩ := h
    rcases sampleLine_next h with ⟨-, h⟩ | ⟨-, -, rfl⟩ | ⟨-, -, rfl⟩
    · exact .inl h.mode
    · exact .inr (.inr (.inr (.inr ⟨rfl, rfl, rfl⟩)))
    · exact .inl rfl
  | waitRx =>
    obtain ⟨c, -, h⟩ := h
    rcases sampleRxLines_next h with ⟨x, -, h⟩ | ⟨-, -, rfl⟩ | ⟨-, -, rfl⟩
    · exact .inl h.mode
    · exact .inr (.inr (.inr (.inr ⟨rfl, rfl, rfl⟩)))
    · exact .inl rfl
  | complete e =>
    cases e with
    | standby => obtain rfl := h; exact .inr (.inr (.inr (.inl ⟨rfl, rfl, rfl⟩)))
    | outcome => obtain ⟨x, f, -, -, rfl⟩ := h; exact .inl rfl
    | rxLen => obtain ⟨k, -, rfl⟩ := h; exact .inl rfl
    | _ => obtain rfl := h; exact .inl rfl
  | wr a src => obtain ⟨v, -, h⟩ := h; exact .inl h.mode
  | wrFifoPtr => obtain ⟨v, -, h⟩ := h; exact .inl h.mode
  | hbRead => obtain ⟨i, -, h⟩ := h; exact .inl h.mode
  | fifoWrite => obtain ⟨b, j, -, -, h⟩ := h; exact .inl h.mode
  | hbWrite => obtain ⟨i, b, j, -, -, -, h⟩ := h; exact .inl h.mode
  | rd a d => exact .inl h.mode
  | fifoRead => exact .inl h.mode

theorem enter_mode (i : Instr) (s : State) : (enter i s).mode = s.mode := by
  cases i <;> rfl

/-- A step that changes MODE_SHADOW is a reset, or that of a line that `line_mode` lists. -/
theorem step_mode {s t : State} (hi : StateInv s) (h : step s = .next t) :
    t.mode = s.mode ∨ (t.mode = .unknown ∧ nextTurn s = .host .reset) ∨
    ∃ i n again l, s.seq = .run (.line n again) ∧ LineInv s n again i l ∧
      LeavesState (program i s.params) n again { s with hostIn := s.hostIn.tail } t l := by
  obtain ⟨s', rfl, ways⟩ := step_ways hi h
  rcases ways with ⟨e, -, rfl, he⟩ | ⟨i, -, -, -, ha⟩ | ⟨i, n, again, l, hs, hl, hleaves⟩ | ⟨a, -, ht, rfl⟩ | ⟨-, rfl⟩
  · left
    rw [raiseError_mode, if_neg]
    rcases he with rfl | rfl | rfl <;> decide
  · exact .inl (ha.mode.trans (enter_mode _ _))
  · exact .inr (.inr ⟨i, n, again, l, hs, hl, hleaves⟩)
  · rcases hostAct_mode a { s with hostIn := s.hostIn.tail } with h | ⟨rfl, h⟩
    · exact .inl h
    · exact .inr (.inl ⟨h, ht⟩)
  · exact .inl rfl

/-- Settles O46: the lines that write MODE_SHADOW, each placed in a program as R20 lists its case. -/
theorem modeShadowWrites : Obligations.ModeShadowWrites := by
  unfold Obligations.ModeShadowWrites
  intro s t hi h
  rcases step_mode hi h with hm | hreset | ⟨i, n, again, l, hs, hl, hleaves⟩
  · exact .inl hm
  · exact .inr (.inr (.inr (.inr (.inr hreset))))
  have hp := line_placed hl.position
  obtain ⟨es, hes, hadds⟩ := line_adds hleaves
  rcases line_mode hleaves with hm | ⟨m, hline, hm⟩ | ⟨rfl, hm⟩ | ⟨rfl, hm, hb⟩ | ⟨hm, he, hb⟩
  · exact .inl hm
  · refine .inr (.inl ⟨m, hm, hes.trans ?_⟩)
    rcases hline with rfl | ⟨rfl, rfl⟩ <;> rw [show es = _ from hadds]
  · obtain ⟨hrec, htx⟩ := Bool.and_eq_true_iff.mp hp
    obtain rfl := of_decide_eq_true hrec
    obtain ⟨v, rfl⟩ := hadds
    exact .inr (.inr (.inr (.inl ⟨hm, hl.mode_eq htx, hl.command, v, hes⟩)))
  · obtain ⟨hsend, htx⟩ := Bool.and_eq_true_iff.mp hp
    obtain ⟨k, rfl⟩ := send_of_isSendInstr hsend
    exact .inr (.inr (.inl ⟨hm, hl.mode_eq htx, ⟨k, hl.command⟩, hb⟩))
  · exact .inr (.inr (.inr (.inr (.inl ⟨hm, he, hi.busy_of_run hs, hb⟩))))

/-- Settles O54: the only line that makes MODE_SHADOW LoRa-Sleep is INIT's second, after its Sleep write. -/
theorem loraModeOnlyFromSleep : Obligations.LoraModeOnlyFromSleep := by
  unfold Obligations.LoraModeOnlyFromSleep
  intro s t hi h ht hne
  rcases step_mode hi h with hm | ⟨hm, -⟩ | ⟨i, n, again, l, hs, hl, hleaves⟩
  · exact absurd (hm.symm.trans ht) hne
  · rw [ht] at hm; cases hm
  have hp := line_placed hl.position
  rcases line_mode hleaves with hm | ⟨m, hline, hm⟩ | ⟨-, hm⟩ | ⟨-, hm, -⟩ | ⟨hm, -⟩ <;> rw [ht] at hm
  · exact absurd hm.symm hne
  · obtain rfl : m = .loraSleep := by simpa using hm.symm
    rcases hline with rfl | ⟨-, hm⟩
    · simp only [placed, Bool.and_eq_true] at hp
      obtain ⟨⟨hinit, hsleep⟩, -⟩ := hp
      obtain rfl := of_decide_eq_true hinit
      exact ⟨hl.mode_eq hsleep, hl.command⟩
    · cases hm
  all_goals cases hm

/-- The line after a mode write (R105), which is not passed over. -/
theorem after_mode_write {i : Instr} {p : Params} {n : Nat} {l : SeqLine} {m : RadioMode}
    (hl : (program i p)[n]? = some l) (hm : l = .mode m ∨ (l = .ensureStandby ∧ m = .standby)) :
    ((m = .standby ∨ m = .tx ∨ m = .rxSingle) ∧ (program i p)[n + 1]? = some (.wait .modeReady)) ∨
    (m = .sleep ∧ (program i p)[n + 1]? = some (.mode .loraSleep)) ∨
    (m = .loraSleep ∧ (program i p)[n + 1]? = some (.mode .standby)) := by
  have hp := line_placed hl
  rcases hm with rfl | ⟨rfl, rfl⟩
  · cases m with
    | sleep => exact .inr (.inl ⟨rfl, of_decide_eq_true hp⟩)
    | loraSleep => exact .inr (.inr ⟨rfl, of_decide_eq_true (Bool.and_eq_true_iff.mp hp).2⟩)
    | standby => exact .inl ⟨.inl rfl, of_decide_eq_true hp⟩
    | tx => exact .inl ⟨.inr (.inl rfl), of_decide_eq_true hp⟩
    | rxSingle => exact .inl ⟨.inr (.inr rfl), of_decide_eq_true hp⟩
  · exact .inl ⟨.inl rfl, of_decide_eq_true hp⟩

/-- Settles O53: the step is that of a mode line, which goes on at the line after it. -/
theorem modeReadyFollowsModeWrites : Obligations.ModeReadyFollowsModeWrites := by
  unfold Obligations.ModeReadyFollowsModeWrites
  intro s t m hi h he hm
  obtain ⟨i, n, again, l, -, hl, hleaves, hadds⟩ := step_records_line hi h he rfl
  have hp := line_placed hl.position
  obtain ⟨m', hline⟩ : ∃ m', l = .mode m' ∨ (l = .ensureStandby ∧ m' = .standby) := by
    rcases hadds.wr_cases with ⟨src, rfl⟩ | rfl | rfl | ⟨-, m', hline, -⟩
    · simp [placed] at hp
    · simp [SeqLine.Adds] at hadds
    · simp [SeqLine.Adds] at hadds
    · exact ⟨m', hline⟩
  have hnext := after_mode_write hl.position hline
  have goes : Arrives (program i s.params) (n + 1) (requestMode m' { s with hostIn := s.hostIn.tail }) t := by
    rcases hline with rfl | ⟨rfl, rfl⟩ <;> exact hleaves
  have lands : landsAt (program i s.params) (n + 1) = true := by
    rcases hnext with ⟨-, h⟩ | ⟨-, h⟩ | ⟨-, h⟩ <;> simp [landsAt, h]
  obtain ⟨k, hk, rfl⟩ := goes
  obtain rfl : n + 1 = k := Option.some.inj ((arrive_of_lands lands _).symm.trans hk)
  obtain rfl : m = m' := by simpa using hm.symm
  exact ⟨i, n + 1, hl.command, rfl, hnext⟩

/-! ### Buffer accesses -/

/-- Settles O42: an `HbRd` is the first step of SEND's pair and an `HbWr` the second step of GET_PACKET's, both inside
the loop. -/
theorem bufferAccessesInsidePacket : Obligations.BufferAccessesInsidePacket := by
  unfold Obligations.BufferAccessesInsidePacket
  intro s t hi h
  refine ⟨fun i b he => ?_, fun i b he => ?_⟩
  · obtain ⟨c, n, again, l, -, hl, hleaves, hadds⟩ := step_records_line hi h he rfl
    have hp := line_placed hl.position
    have hr := hl.ready
    cases l with
    | hbRead =>
      obtain ⟨x, hx, hb⟩ := hadds
      obtain ⟨rfl, rfl⟩ : i = x ∧ b = bufferByte x s := by simpa using hb
      obtain ⟨x, hx', m, -, rfl⟩ := hleaves
      obtain rfl : x = i := Option.some.inj (hx'.symm.trans hx)
      obtain ⟨k, rfl⟩ := send_of_isSendInstr hp
      obtain ⟨len, hlen, lt⟩ := bufferIndex_lt_len hr hx
      obtain rfl : k = len := Option.some.inj ((hl.sendLen k rfl).symm.trans hlen)
      refine ⟨⟨k, hl.command, lt⟩, fun hraced => ⟨bufferByte_of_not_raced hraced, ?_⟩, fun hraced => ⟨?_, ?_⟩⟩
      · simp [hraced]
      · simp [bufferByte, hraced]
      · simp [hraced]
    | _ => simp [SeqLine.Adds] at hadds
  · obtain ⟨c, n, again, l, -, hl, hleaves, hadds⟩ := step_records_line hi h he rfl
    have hp := line_placed hl.position
    have hr := hl.ready
    cases l with
    | hbWrite =>
      obtain ⟨x, v, hx, hv, hb⟩ := hadds
      obtain ⟨rfl, rfl⟩ : i = x ∧ b = v := by simpa using hb
      obtain ⟨x, v, j, hx', hv', -, m, -, rfl⟩ := hleaves
      obtain rfl : x = i := Option.some.inj (hx'.symm.trans hx)
      obtain rfl : v = b := Option.some.inj (hv'.symm.trans hv)
      obtain rfl := of_decide_eq_true hp
      refine ⟨hl.command, bufferIndex_lt_len (Bool.and_eq_true_iff.mp hr).1 hx, ?_⟩
      simp [Memory.read_write hi.buffer]
    | _ => simp [SeqLine.Adds] at hadds

end Sys2Proof.Machine
end

section
/-! Which step writes which field: BUSY and ERR (10_state.md R13, R16), INIT_DONE, OUTCOME and RX_LEN (R14, R17, R18),
OVR (R15) and the parameters (00_scope.md R4). -/

open Sys2Proof.Claims

namespace Sys2Proof.Machine

/-! ### What no step of an instruction touches -/

theorem sameSurroundings_trans {s t u : State} (hst : SameSurroundings s t) (htu : SameSurroundings t u) :
    SameSurroundings s u := by
  obtain ⟨h1, h2, h3, h4, h5, h6, h7, h8⟩ := hst
  obtain ⟨k1, k2, k3, k4, k5, k6, k7, k8⟩ := htu
  exact ⟨k1.trans h1, k2.trans h2, k3.trans h3, k4.trans h4, k5.trans h5, k6.trans h6, k7.trans h7, k8.trans h8⟩

theorem Arrives.surroundings {prog : List SeqLine} {n : Nat} {s t : State} (h : Arrives prog n s t) :
    SameSurroundings s t := by
  obtain ⟨m, -, rfl⟩ := h
  exact ⟨rfl, rfl, rfl, rfl, rfl, rfl, rfl, rfl⟩

theorem enter_surroundings (i : Instr) (s : State) : SameSurroundings s (enter i s) := by
  cases i <;> exact ⟨rfl, rfl, rfl, rfl, rfl, rfl, rfl, rfl⟩

/-- No step of an instruction touches the accepted word, OVR, P or the host's side, at whatever position it is made. -/
theorem exec_surroundings {i : Instr} {s t : State} (h : exec i s = .next t) : SameSurroundings s t := by
  have command : i.isCommand = true → SameSurroundings s t := by
    intro hc
    rcases exec_command_cases hc h with ⟨e, rfl⟩ | ha | ⟨n, again, l, -, -, hleaves⟩
    · exact ⟨rfl, rfl, rfl, rfl, rfl, rfl, rfl, rfl⟩
    · exact sameSurroundings_trans (enter_surroundings i s) ha.surroundings
    · exact line_surroundings hleaves
  cases i with
  | rd a => obtain rfl := Host.Outcome.next.inj h; exact ⟨rfl, rfl, rfl, rfl, rfl, rfl, rfl, rfl⟩
  | wr a v => obtain rfl := Host.Outcome.next.inj h; exact ⟨rfl, rfl, rfl, rfl, rfl, rfl, rfl, rfl⟩
  | _ => exact command rfl

@[simp] theorem takeTurn_params (s : State) : (takeTurn s).params = s.params := by
  unfold takeTurn
  split <;> rfl

@[simp] theorem takeTurn_ovr (s : State) : (takeTurn s).ovr = s.ovr := by
  unfold takeTurn
  split <;> rfl

@[simp] theorem takeTurn_busy (s : State) : (takeTurn s).busy = s.busy := by
  unfold takeTurn
  split <;> rfl

/-- Settles O52: neither an instruction nor the host has a step that changes P. -/
theorem parametersNeverChange : Obligations.ParametersNeverChange := by
  unfold Obligations.ParametersNeverChange
  intro s t h
  rcases step_cases h with ⟨i, -, he⟩ | ⟨-, rfl⟩ | ⟨a, -, rfl⟩ | ⟨-, rfl⟩
  · obtain ⟨-, -, -, hp, -⟩ := exec_surroundings he
    exact hp.trans (takeTurn_params s)
  · exact takeTurn_params s
  · exact (hostAct_params a _).trans (takeTurn_params s)
  · exact takeTurn_params s

/-- Of the host's actions a write to CMD and reset write OVR (R15). -/
theorem hostAct_ovr (a : HostAction) (s : State) :
    (hostAct a s).ovr = s.ovr ∨
    ((hostAct a s).ovr = true ∧ s.busy = true ∧ ∃ w, a = .write 0 w) ∨
    ((hostAct a s).ovr = false ∧ s.busy = false ∧ ∃ w, a = .write 0 w) ∨
    ((hostAct a s).ovr = false ∧ a = .reset) := by
  cases a with
  | write i w =>
    simp only [hostAct, windowWrite]
    split
    next hi =>
      subst hi
      split
      next hb => exact .inr (.inl ⟨rfl, hb, w, rfl⟩)
      next hb => exact .inr (.inr (.inl ⟨rfl, Bool.eq_false_of_not_eq_true hb, w, rfl⟩))
    · exact .inl rfl
  | load i => left; simp only [hostAct, hostLoad]; split <;> rfl
  | reset => exact .inr (.inr (.inr ⟨rfl, rfl⟩))
  | _ => exact .inl rfl

/-- Settles O50: no instruction writes OVR, and of the host's actions a write to CMD and reset do. -/
theorem overrunWrites : Obligations.OverrunWrites := by
  unfold Obligations.OverrunWrites
  intro s t h
  rcases step_cases h with ⟨i, -, he⟩ | ⟨-, rfl⟩ | ⟨a, ht, rfl⟩ | ⟨-, rfl⟩
  · obtain ⟨-, -, ho, -⟩ := exec_surroundings he
    exact .inl (ho.trans (takeTurn_ovr s))
  · exact .inl (takeTurn_ovr s)
  · rcases hostAct_ovr a (takeTurn s) with ho | ⟨ho, hb, w, rfl⟩ | ⟨ho, hb, w, rfl⟩ | ⟨ho, rfl⟩
    · exact .inl (ho.trans (takeTurn_ovr s))
    · exact .inr (.inl ⟨ho, (takeTurn_busy s).symm.trans hb, w, ht⟩)
    · exact .inr (.inr (.inl ⟨ho, (takeTurn_busy s).symm.trans hb, w, ht⟩))
    · exact .inr (.inr (.inr ⟨ho, ht⟩))
  · exact .inl (takeTurn_ovr s)

/-! ### BUSY and ERR -/

/-- Of the host's actions acceptance and reset write BUSY and ERR (R13, R16). -/
theorem hostAct_busy (a : HostAction) (s : State) :
    ((hostAct a s).busy = s.busy ∧ (hostAct a s).err = s.err) ∨
    (s.busy = false ∧ (hostAct a s).busy = true ∧ (hostAct a s).err = .none ∧ ∃ w, a = .write 0 w) ∨
    ((hostAct a s).err = .none ∧ a = .reset) := by
  cases a with
  | write i w =>
    simp only [hostAct, windowWrite]
    split
    next hi =>
      subst hi
      split
      · exact .inl ⟨rfl, rfl⟩
      next hb => exact .inr (.inl ⟨Bool.eq_false_of_not_eq_true hb, rfl, rfl, w, rfl⟩)
    · exact .inl ⟨rfl, rfl⟩
  | load i => left; simp only [hostAct, hostLoad]; split <;> exact ⟨rfl, rfl⟩
  | reset => exact .inr (.inr ⟨rfl, rfl⟩)
  | _ => exact .inl ⟨rfl, rfl⟩

theorem enter_busy (i : Instr) (s : State) : (enter i s).busy = s.busy ∧ (enter i s).err = s.err := by
  cases i <;> exact ⟨rfl, rfl⟩

/-- The ways a step goes with BUSY and ERR, from a state that meets the invariant: both stay; a command ends with
`Done`, ERR as it was or a code; a command is accepted; or a reset. -/
theorem step_busy {s t : State} (hi : StateInv s) (h : step s = .next t) :
    (t.busy = s.busy ∧ t.err = s.err) ∨
    (s.busy = true ∧ t.busy = false ∧ (t.err = s.err ∨ t.err ≠ .none) ∧
      ∃ es, t.history = s.history ++ es ++ [.done (windowRead t 1)]) ∨
    (s.busy = false ∧ t.busy = true ∧ t.err = .none ∧ ∃ w, nextTurn s = .host (.write 0 w)) ∨
    (t.err = .none ∧ nextTurn s = .host .reset) := by
  obtain ⟨s', rfl, ways⟩ := step_ways hi h
  rcases ways with ⟨e, hs, rfl, he⟩ | ⟨i, -, -, -, m, -, rfl⟩ | ⟨i, n, again, l, hs, -, hleaves⟩ | ⟨a, -, ht, rfl⟩ | ⟨-, rfl⟩
  · have code : e ≠ .none := by rcases he with rfl | rfl | rfl <;> decide
    exact .inr (.inl ⟨hi.busy_of_run hs, rfl, .inr code, [], by simp; rfl⟩)
  · exact .inl (enter_busy i _)
  · rcases line_busy hleaves with same | ⟨hb, he, es, hes⟩
    · exact .inl same
    · refine .inr (.inl ⟨hi.busy_of_run hs, hb, he.imp_right ?_, es, hes⟩)
      intro he
      rw [he]
      decide
  · rcases hostAct_busy a { s with hostIn := s.hostIn.tail } with same | ⟨hb, hb', he, w, rfl⟩ | ⟨he, rfl⟩
    · exact .inl same
    · exact .inr (.inr (.inl ⟨hb, hb', he, w, ht⟩))
    · exact .inr (.inr (.inr ⟨he, ht⟩))
  · exact .inl ⟨rfl, rfl⟩

/-- Settles O45: of the ways `step_busy` lists, two lower BUSY. -/
theorem busyFallsOnlyWithDone : Obligations.BusyFallsOnlyWithDone := by
  unfold Obligations.BusyFallsOnlyWithDone
  intro s t hi hb h hb'
  rcases step_busy hi h with ⟨same, -⟩ | ⟨-, -, -, hdone⟩ | ⟨hidle, -⟩ | ⟨-, hreset⟩
  · exact absurd (hb'.symm.trans (same.trans hb)) (by simp)
  · exact .inl hdone
  · exact absurd (hb.symm.trans hidle) (by simp)
  · exact .inr hreset

/-- Settles O51: of the ways `step_busy` lists, each that changes ERR is one of R16's. -/
theorem errorWrites : Obligations.ErrorWrites := by
  unfold Obligations.ErrorWrites
  intro s t hi h
  rcases step_busy hi h with ⟨-, he⟩ | ⟨hb, hb', he | he, hdone⟩ | ⟨hb, -, he, hw⟩ | ⟨he, hreset⟩
  · exact .inl he
  · exact .inl he
  · exact .inr (.inr (.inl ⟨he, hb, hb', hdone⟩))
  · exact .inr (.inl ⟨he, hb, hw⟩)
  · exact .inr (.inr (.inr ⟨he, hreset⟩))

/-! ### INIT_DONE, OUTCOME and RX_LEN -/

/-- The line of a running command is that of the word in SEQ_CMD. -/
theorem LineInv.instr_eq {s : State} {n : Nat} {again : Bool} {i j : Instr} {l : SeqLine} (h : LineInv s n again i l)
    (hd : decodeHcmd s.seqCmd = .ok j) : i = j := Except.ok.inj (h.command.symm.trans hd)

/-- INIT clears INIT_DONE as it passes its decode checks (R14). -/
theorem enter_initDone (i : Instr) (s : State) :
    (enter i s).initDone = s.initDone ∨ (i = .init ∧ (enter i s).initDone = false) := by
  cases i with
  | init => exact .inr ⟨rfl, rfl⟩
  | _ => exact .inl rfl

/-- RECEIVE makes OUTCOME NO_MESSAGE as it passes its decode checks (R17). -/
theorem enter_outcome (i : Instr) (s : State) :
    (enter i s).outcome = s.outcome ∨ (i = .receive ∧ (enter i s).outcome = .noMessage) := by
  cases i with
  | receive => exact .inr ⟨rfl, rfl⟩
  | _ => exact .inl rfl

theorem enter_rxLen (i : Instr) (s : State) : (enter i s).rxLen = s.rxLen := by
  cases i <;> rfl

/-- Settles O47: INIT_DONE is written as INIT enters, by INIT's last line, and by reset. -/
theorem initDoneWrites : Obligations.InitDoneWrites := by
  unfold Obligations.InitDoneWrites
  intro s t hi h
  obtain ⟨s', rfl, ways⟩ := step_ways hi h
  rcases ways with ⟨e, -, rfl, -⟩ | ⟨i, hs, hd, -, m, -, rfl⟩ | ⟨i, n, again, l, hs, hl, hleaves⟩ | ⟨a, -, ht, rfl⟩ | ⟨-, rfl⟩
  · exact .inl rfl
  · rcases enter_initDone i { s with hostIn := s.hostIn.tail } with same | ⟨rfl, hclear⟩
    · exact .inl same
    · exact .inr (.inl ⟨hclear, hd, hs⟩)
  · rcases line_initDone hleaves with same | ⟨rfl, rfl⟩
    · exact .inl same
    · obtain rfl := initDone_line hl.position
      exact .inr (.inr (.inl ⟨rfl, hl.command, hi.busy_of_run hs, rfl, hi.errNone (by simp [hs])⟩))
  · rcases hostAct_initDone a { s with hostIn := s.hostIn.tail } with same | ⟨rfl, hclear⟩
    · exact .inl same
    · exact .inr (.inr (.inr ⟨hclear, ht⟩))
  · exact .inl rfl

/-- An outcome mapped from the receive lines is not NO_MESSAGE (R109). -/
theorem mapOutcome_ne_noMessage (x : RxLine) (f : Byte) : mapOutcome x f ≠ .noMessage := by
  cases x with
  | timeout => simp [mapOutcome]
  | done => cases hc : crcError f <;> simp [mapOutcome, hc]

/-- A step that ends RECEIVE with WAIT_TIMEOUT leaves OUTCOME at NO_MESSAGE (R17): it is that of a line other than the
last. -/
theorem outcome_of_receive_aborted {s t : State} (hi : StateInv s) (h : step s = .next t)
    (hd : decodeHcmd s.seqCmd = .ok .receive) (hb : s.busy = true) (hb' : t.busy = false) (he : t.err = .waitTimeout) :
    t.outcome = .noMessage := by
  obtain ⟨s', rfl, ways⟩ := step_ways hi h
  rcases ways with ⟨e, -, rfl, hcode⟩ | ⟨i, -, -, -, m, -, rfl⟩ | ⟨i, n, again, l, hs, hl, hleaves⟩ | ⟨a, -, -, rfl⟩ | ⟨hs, -⟩
  · obtain rfl : e = .waitTimeout := he
    simp at hcode
  · exact absurd (hb'.symm.trans ((enter_busy i _).1.trans hb)) (by simp)
  · obtain rfl := hl.instr_eq hd
    rcases line_outcome hleaves with same | ⟨-, x, f, rfl⟩
    · exact same.trans (hl.receiving rfl)
    · have : s.err = .waitTimeout := he
      rw [hi.errNone (by simp [hs])] at this
      cases this
  · rcases hostAct_busy a { s with hostIn := s.hostIn.tail } with ⟨same, -⟩ | ⟨hidle, -⟩ | ⟨hnone, -⟩
    · exact absurd (hb'.symm.trans (same.trans hb)) (by simp)
    · exact absurd (hb.symm.trans hidle) (by simp)
    · rw [he] at hnone; cases hnone
  · exact absurd hs (hi.busyRun.mp hb)

/-- Settles O48: OUTCOME is written as RECEIVE enters, by its last line, and by reset. -/
theorem outcomeWrites : Obligations.OutcomeWrites := by
  unfold Obligations.OutcomeWrites
  intro s t hi h
  refine ⟨?_, outcome_of_receive_aborted hi h⟩
  obtain ⟨s', rfl, ways⟩ := step_ways hi h
  rcases ways with ⟨e, -, rfl, -⟩ | ⟨i, hs, hd, -, m, -, rfl⟩ | ⟨i, n, again, l, hs, hl, hleaves⟩ | ⟨a, -, ht, rfl⟩ | ⟨-, rfl⟩
  · exact .inl rfl
  · rcases enter_outcome i { s with hostIn := s.hostIn.tail } with same | ⟨rfl, hclear⟩
    · exact .inl same
    · exact .inr (.inl ⟨hclear, hd, hs⟩)
  · rcases line_outcome hleaves with same | ⟨rfl, x, f, rfl⟩
    · exact .inl same
    · obtain rfl := outcome_line hl.position
      exact .inr (.inr (.inl ⟨mapOutcome_ne_noMessage x f, hl.command, hi.busy_of_run hs, rfl, hi.errNone (by simp [hs])⟩))
  · rcases hostAct_outcome a { s with hostIn := s.hostIn.tail } with same | ⟨rfl, hclear⟩
    · exact .inl same
    · exact .inr (.inr (.inr ⟨hclear, ht⟩))
  · exact .inl rfl

/-- Settles O49: RX_LEN is written by GET_PACKET's last line, and by reset. -/
theorem rxLenWrites : Obligations.RxLenWrites := by
  unfold Obligations.RxLenWrites
  intro s t hi h
  obtain ⟨s', rfl, ways⟩ := step_ways hi h
  rcases ways with ⟨e, -, rfl, -⟩ | ⟨i, -, -, -, m, -, rfl⟩ | ⟨i, n, again, l, hs, hl, hleaves⟩ | ⟨a, -, ht, rfl⟩ | ⟨-, rfl⟩
  · exact .inl rfl
  · exact .inl (enter_rxLen i _)
  · rcases line_rxLen hleaves with same | ⟨rfl, hlen, hb⟩
    · exact .inl same
    · obtain rfl := rxLen_line hl.position
      exact .inr (.inl ⟨hlen, hl.command, hi.busy_of_run hs, hb⟩)
  · rcases hostAct_rxLen a { s with hostIn := s.hostIn.tail } with same | ⟨rfl, hclear⟩
    · exact .inl same
    · exact .inr (.inr ⟨hclear, ht⟩)
  · exact .inl rfl

end Sys2Proof.Machine
end

section
/-! The frames of the commands: what no step of a command touches, whatever its position. -/

open Sys2Proof.Claims

namespace Sys2Proof.Machine

variable {i : Instr} {s t : State}

/-- Only INIT's steps write INIT_DONE (R14). -/
theorem exec_initDone (hc : i.isCommand = true) (hi : i ≠ .init) (h : exec i s = .next t) : t.initDone = s.initDone := by
  rcases exec_command_cases hc h with ⟨e, rfl⟩ | ⟨m, -, rfl⟩ | ⟨n, again, l, -, hl, hleaves⟩
  · rfl
  · exact (enter_initDone i s).resolve_right fun hinit => hi hinit.1
  · refine (line_initDone hleaves).resolve_right ?_
    rintro ⟨rfl, -⟩
    exact hi (initDone_line hl)

/-- Only RECEIVE's steps write OUTCOME (R17). -/
theorem exec_outcome (hc : i.isCommand = true) (hi : i ≠ .receive) (h : exec i s = .next t) : t.outcome = s.outcome := by
  rcases exec_command_cases hc h with ⟨e, rfl⟩ | ⟨m, -, rfl⟩ | ⟨n, again, l, -, hl, hleaves⟩
  · rfl
  · exact (enter_outcome i s).resolve_right fun hrec => hi hrec.1
  · refine (line_outcome hleaves).resolve_right ?_
    rintro ⟨rfl, -⟩
    exact hi (outcome_line hl)

/-- Only GET_PACKET's steps write RX_LEN (R18). -/
theorem exec_rxLen (hc : i.isCommand = true) (hi : i ≠ .getPacket) (h : exec i s = .next t) : t.rxLen = s.rxLen := by
  rcases exec_command_cases hc h with ⟨e, rfl⟩ | ⟨m, -, rfl⟩ | ⟨n, again, l, -, hl, hleaves⟩
  · rfl
  · exact enter_rxLen i s
  · refine (line_rxLen hleaves).resolve_right ?_
    rintro ⟨rfl, -⟩
    exact hi (rxLen_line hl)

theorem enter_hb (i : Instr) (s : State) : (enter i s).hb = s.hb := by
  cases i <;> rfl

/-- A step leaves HB, or is that of the line `hbWrite` and writes the byte at the buffer index (R122). -/
theorem exec_hb (hc : i.isCommand = true) (h : exec i s = .next t) :
    t.hb = s.hb ∨ ∃ n again x b, s.seq = .run (.line n again) ∧ (program i s.params)[n]? = some .hbWrite ∧
      bufferIndex s.work = some x ∧ t.hb = s.hb.write x.toNat b := by
  rcases exec_command_cases hc h with ⟨e, rfl⟩ | ⟨m, -, rfl⟩ | ⟨n, again, l, hs, hl, hleaves⟩
  · exact .inl rfl
  · exact .inl (enter_hb i s)
  · by_cases hw : l = .hbWrite
    · subst hw
      obtain ⟨x, b, j, hx, -, -, m, -, rfl⟩ := hleaves
      exact .inr ⟨n, again, x, b, hs, hl, hx, rfl⟩
    · exact .inl (line_hb hleaves hw)

/-- Only GET_PACKET's steps store into HB. -/
theorem exec_hb_of_ne (hc : i.isCommand = true) (hi : i ≠ .getPacket) (h : exec i s = .next t) : t.hb = s.hb := by
  refine (exec_hb hc h).resolve_right ?_
  rintro ⟨n, again, x, b, -, hl, -⟩
  exact hi (of_decide_eq_true (line_placed hl))

/-- The lines that read a radio register. -/
def SeqLine.reads : SeqLine → Bool
  | .rd _ _ | .rdFlags | .fifoRead => true
  | _ => false

/-- INIT and the two configuration commands only write (R95, R96, R130). -/
theorem program_noReads (hi : i = .init ∨ (∃ k, i = .changeChannel k) ∨ ∃ k, i = .changeDatarate k) (p : Params) :
    ((program i p).all fun l => !l.reads) = true := by
  obtain rfl | ⟨k, rfl⟩ | ⟨k, rfl⟩ := hi
  · rfl
  · have h : ∀ k, ((changeChannelProgram k).all fun l => !l.reads) = true := by decide
    exact h k
  · have h : ∀ k, ((changeDatarateProgram k).all fun l => !l.reads) = true := by decide
    exact h k

theorem enter_misoIn (i : Instr) (s : State) : (enter i s).misoIn = s.misoIn := by
  cases i <;> rfl

/-- So their steps leave the radio's queued answers. -/
theorem exec_misoIn (hc : i.isCommand = true) (hi : i = .init ∨ (∃ k, i = .changeChannel k) ∨ ∃ k, i = .changeDatarate k)
    (h : exec i s = .next t) : t.misoIn = s.misoIn := by
  rcases exec_command_cases hc h with ⟨e, rfl⟩ | ⟨m, -, rfl⟩ | ⟨n, again, l, -, hl, hleaves⟩
  · rfl
  · exact enter_misoIn i s
  · have noRead : (!l.reads) = true := List.all_eq_true.mp (program_noReads hi s.params) l (List.mem_of_getElem? hl)
    refine line_miso hleaves ⟨?_, ?_, ?_⟩
    · rintro a d rfl; cases noRead
    · rintro rfl; cases noRead
    · rintro rfl; cases noRead

/-- What a step of one of them leaves. -/
theorem exec_writesOnly_frame (hi : i = .init ∨ (∃ k, i = .changeChannel k) ∨ ∃ k, i = .changeDatarate k)
    (h : exec i s = .next t) : t.outcome = s.outcome ∧ t.rxLen = s.rxLen ∧ t.misoIn = s.misoIn ∧ SameSurroundings s t ∧
      ∀ a, t.hb.read a = s.hb.read a := by
  obtain ⟨hc, hrec, hget⟩ : i.isCommand = true ∧ i ≠ .receive ∧ i ≠ .getPacket := by
    obtain rfl | ⟨k, rfl⟩ | ⟨k, rfl⟩ := hi <;> simp [Instr.isCommand]
  exact ⟨exec_outcome hc hrec h, exec_rxLen hc hget h, exec_misoIn hc hi h, exec_surroundings h,
    fun a => by rw [exec_hb_of_ne hc hget h]⟩

/-- Settles O56: INIT only writes registers. -/
theorem initFrame : Obligations.InitFrame := by
  unfold Obligations.InitFrame
  exact fun s t h => exec_writesOnly_frame (.inl rfl) h

/-- Settles O57: OUTCOME, RX_LEN, INIT_DONE and HB are other commands' to write. -/
theorem sendFrame : Obligations.SendFrame := by
  unfold Obligations.SendFrame
  intro n s t h
  exact ⟨exec_outcome rfl (by simp) h, exec_rxLen rfl (by simp) h, exec_initDone rfl (by simp) h, exec_surroundings h,
    fun a => by rw [exec_hb_of_ne rfl (by simp) h]⟩

/-- Settles O58: RX_LEN, INIT_DONE and HB are other commands' to write. -/
theorem receiveFrame : Obligations.ReceiveFrame := by
  unfold Obligations.ReceiveFrame
  intro s t h
  exact ⟨exec_rxLen rfl (by simp) h, exec_initDone rfl (by simp) h, exec_surroundings h,
    fun a => by rw [exec_hb_of_ne rfl (by simp) h]⟩

/-- The MemWrite of GET_PACKET is line 6 of its program (R122, R123). -/
theorem getPacket_hbWrite_line {n : Nat} (h : getPacketProgram[n]? = some .hbWrite) : n = 6 := by
  have only : ∀ n : Fin 8, getPacketProgram[n.val]? = some .hbWrite → n.val = 6 := by decide
  exact only ⟨n, (List.getElem?_eq_some_iff.mp h).1⟩ h

/-- Settles O59: HB is written at line 6 alone, at the buffer index, and a write reads back elsewhere as before. -/
theorem getPacketFrame : Obligations.GetPacketFrame := by
  unfold Obligations.GetPacketFrame
  intro s t h
  refine ⟨exec_outcome rfl (by simp) h, exec_initDone rfl (by simp) h, exec_surroundings h, fun i _ hi a ha => ?_,
    fun hfirst hagain a => ?_⟩ <;>
    rcases exec_hb rfl h with same | ⟨n, again, x, b, hs, hl, hx, hhb⟩
  · rw [same]
  · obtain rfl : x = i := Option.some.inj (hx.symm.trans hi)
    rw [hhb, Memory.read_write_ne _ b ha.symm]
  · rw [same]
  · obtain rfl := getPacket_hbWrite_line hl
    cases again with
    | false => exact absurd hs hfirst
    | true => exact absurd hs hagain

/-- Settles O60: both commands only write registers, and INIT_DONE is INIT's. -/
theorem changeFrame : Obligations.ChangeFrame := by
  unfold Obligations.ChangeFrame
  intro k s t h
  rcases h with h | h
  · obtain ⟨hout, hlen, hmiso, hsame, hhb⟩ := exec_writesOnly_frame (.inr (.inl ⟨k, rfl⟩)) h
    exact ⟨hout, hlen, exec_initDone rfl (by simp) h, hmiso, hsame, hhb⟩
  · obtain ⟨hout, hlen, hmiso, hsame, hhb⟩ := exec_writesOnly_frame (.inr (.inr ⟨k, rfl⟩)) h
    exact ⟨hout, hlen, exec_initDone rfl (by simp) h, hmiso, hsame, hhb⟩

end Sys2Proof.Machine
end

section
/-! The waits (42_mode_controller.md R102, R103, R104, R144, R146): one sample, giving up at the bound, holding without
one, and the wait of ENSURE_STANDBY. -/

open Sys2Proof.Claims

namespace Sys2Proof.Machine

/-! ### One sample -/

/-- A wait gives up at the count its natural bound names, and never without one (R102). -/
theorem waitExpired_iff {bound : Option Nat} {n : Nat} : waitExpired bound n = true ↔ bound = some n := by
  cases bound with
  | none => simp
  | some b => rw [waitExpired_bound, beq_iff_eq, Option.some.injEq, eq_comm]

/-- The state after a last low sample `e` (R144, R146): the sample is recorded, and the command ends with WAIT_TIMEOUT. -/
def expired (e : Event) (rest : List Levels) (s : State) : State :=
  raiseError .waitTimeout { s.record e with lineIn := rest }

/-- A low sample of `WaitHigh(L)` that reaches the bound. -/
theorem exec_wait_expires {i : Instr} {s : State} {n c : Nat} {again : Bool} {L : WaitLine} {l : Levels} {ls : List Levels}
    (hs : s.seq = .run (.line n again)) (hp : (program i s.params)[n]? = some (.wait L)) (hq : s.lineIn = l :: ls)
    (hc : waitCount again s.work = some c) (hl : l.of L = false)
    (hb : waitExpired s.params.waitBound (c + 1) = true) :
    exec i s = .next (expired (.sample L false) ls s) := by
  rw [exec_line hs hp]
  simp [runLine, hc, sampleLine, lowSample, levelsNow_cons hq, hl, takeLevels_cons hq, hb, State.record, expired]

/-- A sample of `WaitRx()` with both lines low that reaches the bound. -/
theorem exec_waitRx_expires {i : Instr} {s : State} {n c : Nat} {again : Bool} {l : Levels} {ls : List Levels}
    (hs : s.seq = .run (.line n again)) (hp : (program i s.params)[n]? = some .waitRx) (hq : s.lineIn = l :: ls)
    (hc : waitCount again s.work = some c) (hd : l.rxDone = false) (ht : l.rxTimeout = false)
    (hb : waitExpired s.params.waitBound (c + 1) = true) :
    exec i s = .next (expired (.sampleRx false false) ls s) := by
  rw [exec_line hs hp]
  simp [runLine, hc, sampleRxLines, lowSample, levelsNow_cons hq, hd, ht, rxWinner, takeLevels_cons hq, hb, State.record,
    expired]

/-- Settles O34: the sample is high, or low at the bound, or low below it. -/
theorem waitHighSample : Obligations.WaitHighSample := by
  unfold Obligations.WaitHighSample
  intro s i n c again L l rest hs hp hq hc
  cases hl : l.of L with
  | true => exact exec_wait_high hs hp hq hc hl
  | false =>
    by_cases hb : s.params.waitBound = some (c + 1)
    · simpa [hb, expired, raiseError, endCommand, State.record] using exec_wait_expires hs hp hq hc hl (waitExpired_iff.mpr hb)
    · have below : waitExpired s.params.waitBound (c + 1) = false :=
        Bool.eq_false_iff.mpr (mt waitExpired_iff.mp hb)
      simpa [hb] using exec_wait_low hs hp hq hc hl below

/-- Settles O35: RX_DONE is high, or RX_TIMEOUT alone, or both are low, at the bound or below it. -/
theorem waitRxSample : Obligations.WaitRxSample := by
  unfold Obligations.WaitRxSample
  intro s n c again l rest hs hp hq hc
  cases hd : l.rxDone with
  | true => simpa [hd] using exec_waitRx_ends hs hp hq hc (x := .done) (by simp [rxWinner, hd])
  | false =>
    cases ht : l.rxTimeout with
    | true => simpa [hd, ht] using exec_waitRx_ends hs hp hq hc (x := .timeout) (by simp [rxWinner, hd, ht])
    | false =>
      by_cases hb : s.params.waitBound = some (c + 1)
      · simpa [hb, expired, raiseError, endCommand, State.record] using
          exec_waitRx_expires hs hp hq hc hd ht (waitExpired_iff.mpr hb)
      · have below : waitExpired s.params.waitBound (c + 1) = false :=
        Bool.eq_false_iff.mpr (mt waitExpired_iff.mp hb)
        simpa [hb] using exec_waitRx_low hs hp hq hc hd ht below

/-! ### Low samples only -/

/-- Settles O37: without a bound no low sample expires, at `WaitHigh` or at `WaitRx`. -/
theorem unboundedWaitHolds : Obligations.UnboundedWaitHolds := by
  unfold Obligations.UnboundedWaitHolds
  refine ⟨fun s i n L lows rest hs hp hb hne hl hq => ?_, fun s n lows rest hs hp hb hne hl hq => ?_⟩
  · simpa using execSteps_wait_lows lows (c := 0) hs hp hq rfl hl (by simp [hb]) hne
  · simpa using execSteps_waitRx_lows lows (c := 0) hs hp hq rfl hl (by simp [hb]) hne

/-- The state of a wait at line `n` that has counted `k` low samples, each recorded as `e`: at its first sample, or
counting. -/
structure Counted (e : Event) (n k : Nat) (rest : List Levels) (again : Bool) (s t : State) : Prop where
  state : ∃ w, t = { s with
    seq := .run (.line n again), lineIn := rest, work := w, history := s.history ++ List.replicate k e }
  count : waitCount again t.work = some k

/-- Before its first sample a wait has counted none. -/
theorem counted_zero {e : Event} {n : Nat} {rest : List Levels} {s : State} (hs : s.seq = .run (.line n false))
    (hq : s.lineIn = rest) : Counted e n 0 rest false s s where
  state := ⟨s.work, by rw [← hs, ← hq, List.replicate_zero, List.append_nil]⟩
  count := rfl

/-- A `WaitHigh(L)` whose samples are low and fewer than the bound counts them. -/
theorem execSteps_wait_counted {i : Instr} {s : State} {n : Nat} {L : WaitLine} {lows rest : List Levels}
    (hs : s.seq = .run (.line n false)) (hp : (program i s.params)[n]? = some (.wait L)) (hq : s.lineIn = lows ++ rest)
    (hl : ∀ l ∈ lows, l.of L = false) (hb : ∀ b, s.params.waitBound = some b → lows.length < b) :
    ∃ again t, execSteps i lows.length s = .next t ∧ Counted (.sample L false) n lows.length rest again s t := by
  by_cases hne : lows = []
  · subst hne
    exact ⟨false, s, rfl, counted_zero hs hq⟩
  · have run := execSteps_wait_lows lows (c := 0) hs hp hq rfl hl (by simpa using hb) hne
    rw [Nat.zero_add] at run
    exact ⟨true, _, run, ⟨_, rfl⟩, rfl⟩

/-- A `WaitRx()` likewise. -/
theorem execSteps_waitRx_counted {i : Instr} {s : State} {n : Nat} {lows rest : List Levels}
    (hs : s.seq = .run (.line n false)) (hp : (program i s.params)[n]? = some .waitRx) (hq : s.lineIn = lows ++ rest)
    (hl : ∀ l ∈ lows, BothLow l) (hb : ∀ b, s.params.waitBound = some b → lows.length < b) :
    ∃ again t, execSteps i lows.length s = .next t ∧ Counted (.sampleRx false false) n lows.length rest again s t := by
  by_cases hne : lows = []
  · subst hne
    exact ⟨false, s, rfl, counted_zero hs hq⟩
  · have run := execSteps_waitRx_lows lows (c := 0) hs hp hq rfl hl (by simpa using hb) hne
    rw [Nat.zero_add] at run
    exact ⟨true, _, run, ⟨_, rfl⟩, rfl⟩

/-- One more low sample, which reaches the bound, and the wait has given up (R144, R146). -/
theorem Counted.gaveUp {e : Event} {n k : Nat} {last : Levels} {rest : List Levels} {again : Bool} {s t : State}
    (h : Counted e n k (last :: rest) again s t) : GaveUp e (k + 1) rest s (expired e rest t) := by
  obtain ⟨⟨w, rfl⟩, -⟩ := h
  refine ⟨?_, rfl, rfl, rfl, rfl, rfl, rfl, rfl, rfl, rfl, rfl, rfl, rfl, rfl, rfl, rfl, rfl, rfl, rfl, rfl, rfl, rfl⟩
  simp [expired, List.replicate_succ']

/-- As many samples as a bound of at least 1 are some and a last one. -/
theorem samples_of_bound {lows : List Levels} {N : Nat} (hN : 1 ≤ N) (hlen : lows.length = N) :
    ∃ ls l, lows = ls ++ [l] ∧ N = ls.length + 1 := by
  obtain rfl | ⟨ls, l, rfl⟩ := List.eq_nil_or_concat' lows
  · have : 0 = N := hlen
    omega
  · exact ⟨ls, l, rfl, by simpa using hlen.symm⟩

/-- Settles O36: all but the last of the N low samples are counted, and the last one reaches the bound. -/
theorem boundedWaitGivesUp : Obligations.BoundedWaitGivesUp := by
  unfold Obligations.BoundedWaitGivesUp
  refine ⟨fun s i n N L lows rest hs hp hb hN hlen hl hq => ?_, fun s n N lows rest hs hp hb hN hlen hl hq => ?_⟩ <;>
    obtain ⟨ls, l, rfl, rfl⟩ := samples_of_bound hN hlen <;>
    rw [List.append_assoc] at hq <;>
    rw [List.forall_mem_append, List.forall_mem_singleton] at hl
  · obtain ⟨again, t, run, hcount⟩ := execSteps_wait_counted hs hp hq hl.1 (by simp [hb])
    have hc := hcount.count
    refine ⟨_, ?_, hcount.gaveUp⟩
    obtain ⟨⟨w, rfl⟩, -⟩ := hcount
    rw [execSteps_add run, execSteps_one]
    exact exec_wait_expires rfl hp rfl hc hl.2 (waitExpired_iff.mpr hb)
  · obtain ⟨again, t, run, hcount⟩ := execSteps_waitRx_counted hs hp hq hl.1 (by simp [hb])
    have hc := hcount.count
    refine ⟨_, ?_, hcount.gaveUp⟩
    obtain ⟨⟨w, rfl⟩, -⟩ := hcount
    rw [execSteps_add run, execSteps_one]
    exact exec_waitRx_expires rfl hp rfl hc hl.2.1 hl.2.2 (waitExpired_iff.mpr hb)

/-! ### ENSURE_STANDBY -/

/-- With INIT_DONE = 1 a well-formed command passes its decode checks (R69). -/
theorem decodeCheck_of_wf {i : Instr} (hc : i.isCommand = true) (hw : i.wf = true) : decodeCheck i true = none := by
  cases i with
  | changeChannel k => simp [decodeCheck, firstError, initGate, indexGate, show legalChannel k = true from hw]
  | changeDatarate k => simp [decodeCheck, firstError, initGate, indexGate, show legalDatarate k = true from hw]
  | rd a => cases hc
  | wr a v => cases hc
  | _ => rfl

/-- Every command but INIT begins with ENSURE_STANDBY (R104). -/
theorem program_ensureStandby {i : Instr} (hc : i.isCommand = true) (hi : i ≠ .init) (p : Params) :
    ∃ rest, program i p = .ensureStandby :: .wait .modeReady :: rest := by
  cases i with
  | init => exact absurd rfl hi
  | rd a => cases hc
  | wr a v => cases hc
  | _ => exact ⟨_, rfl⟩

theorem enter_lineIn (i : Instr) (s : State) : (enter i s).lineIn = s.lineIn := by
  cases i <;> rfl

/-- The line of ENSURE_STANDBY that is not passed over writes Standby to 0x01 (R101, R104). -/
theorem exec_ensureStandby {i : Instr} {s : State} {n : Nat} {again : Bool} (hs : s.seq = .run (.line n again))
    (hp : (program i s.params)[n]? = some .ensureStandby) (hl : landsAt (program i s.params) (n + 1) = true) :
    exec i s = .next ((requestMode .standby s).atLine (n + 1)) := by
  rw [exec_line hs hp, runLine, goto_of_lands hl]

/-- The decode step from another mode than Standby leads to the first line (R69, R104). -/
theorem exec_check_of_not_standby {i : Instr} {s : State} (hi : i.isCommand = true) (hs : s.seq = .run .check)
    (hc : decodeCheck i s.initDone = none) (hp : (program i s.params)[0]? = some .ensureStandby)
    (hm : s.mode ≠ .requested .standby) : exec i s = .next ((enter i s).atLine 0) := by
  have harrive : arrive (program i s.params) 0 (enter i s) = some 0 := by simp [arrive, hp, enter_mode, hm]
  rw [exec_command hi, runCommand_enters hs hc, goto_of_arrive harrive]

/-- The line that the decode step leads to: the one after ENSURE_STANDBY where that is passed over, else the first (R69,
R104). -/
theorem exec_check_of_passes {i : Instr} {s : State} (hi : i.isCommand = true) (hs : s.seq = .run .check)
    (hc : decodeCheck i s.initDone = none) :
    exec i s = .next ((enter i s).atLine (if i ≠ .init ∧ s.mode = .requested .standby then 2 else 0)) := by
  by_cases hinit : i = .init
  · subst hinit
    exact exec_check_of_lands rfl hs rfl rfl
  · obtain ⟨tail, hprog⟩ := program_ensureStandby hi hinit s.params
    have first : (program i s.params)[0]? = some .ensureStandby := by rw [hprog]; rfl
    by_cases hm : s.mode = .requested .standby
    · rw [if_pos ⟨hinit, hm⟩]
      exact exec_check_of_standby hi hs hc first ((enter_mode i s).trans hm)
    · rw [if_neg fun h => hm h.2]
      exact exec_check_of_not_standby hi hs hc first hm

/-- The two lines of ENSURE_STANDBY, with the wait ending within the bound: the write, the samples, and the line after them
(R104). -/
theorem execSteps_ensureStandby {i : Instr} {s : State} {lows : List Levels} {last : Levels} {rest : List Levels}
    (hc : i.isCommand = true) (hi : i ≠ .init) (hs : s.seq = .run (.line 0 false)) (hq : s.lineIn = lows ++ last :: rest)
    (hready : WaitEnds s.params.waitBound Levels.modeReady lows last) :
    execSteps i (lows.length + 1 + 1) s = .next
      { s with
        mode := .requested .standby, seq := .run (.line 2 false), lineIn := rest
        work := { s.work with waitCnt := some lows.length }
        history := s.history ++ ([.wr 0x01 s.params.modeStandby] ++ waitEvents .modeReady lows)
        port := { nss := true, sck := s.params.spiFormat.sckIdle, mosi := s.params.spiFormat.mosiIdle,
                  sent := [0x81, s.params.modeStandby] } } := by
  obtain ⟨tail, hprog⟩ := program_ensureStandby hc hi s.params
  have write : exec i s = .next ((requestMode .standby s).atLine 1) :=
    exec_ensureStandby hs (by rw [hprog]; rfl) (by rw [hprog]; rfl)
  have hwait : (program i ((requestMode .standby s).atLine 1).params)[1]? = some (.wait .modeReady) :=
    congrArg (·[1]?) hprog
  have wait := execSteps_wait_of_waitEnds (s := (requestMode .standby s).atLine 1) rfl hwait hq hready
  rw [execSteps_succ write, wait, ← List.append_assoc]
  rfl

/-- Settles O31: the decode step from Standby passes ENSURE_STANDBY over; from another mode its two lines lead to the
same state, which a decode step from Standby leaves as it is, since what the command assigned as it entered stands there
already. -/
theorem ensureStandbyActsOnlyWhenNeeded : Obligations.EnsureStandbyActsOnlyWhenNeeded := by
  unfold Obligations.EnsureStandbyActsOnlyWhenNeeded
  intro s i hc hi hw hs hd
  have standby : ∀ u : State, u.seq = .run .check → u.initDone = true → u.mode = .requested .standby →
      exec i u = .next { enter i u with seq := .run (.line 2 false) } := by
    intro u hs hd hm
    rw [exec_check_of_passes hc hs (by rw [hd]; exact decodeCheck_of_wf hc hw), if_pos ⟨hi, hm⟩]
    rfl
  refine ⟨standby s hs hd, fun hm lows last rest hq hready => ⟨_, ?_, rfl, ?_⟩⟩
  · obtain ⟨-, -, -, hparams, -⟩ := enter_surroundings i s
    have check := exec_check_of_passes hc hs (by rw [hd]; exact decodeCheck_of_wf hc hw)
    rw [if_neg fun h => hm h.2] at check
    have run := execSteps_ensureStandby (s := (enter i s).atLine 0) (rest := rest) hc hi rfl
      ((enter_lineIn i s).trans hq) (by rw [atLine_params, hparams]; exact hready)
    rw [show 3 + lows.length = lows.length + 1 + 1 + 1 by omega, execSteps_succ check, run]
    cases i <;> rfl
  · refine (standby _ rfl ?_ rfl).trans ?_
    · exact ((enter_initDone i s).resolve_right fun h => hi h.1).trans hd
    · cases i <;> rfl

end Sys2Proof.Machine
end

section
/-! The host's side (10_state.md R11 to R19, 20_memory.md R41, R55, 70_reset_and_hazards.md R160 to R162): the window's
layout, the host buffer, acceptance and reset. -/

open Sys2Proof.Claims

namespace Sys2Proof.Machine

/-! ### The window -/

/-- STATUS as `statusWord` lays it out (R12). -/
theorem statusWord_fields (busy initDone ovr : Bool) (err : ErrCode) :
    (statusWord busy initDone ovr err).getLsbD 0 = busy ∧ (statusWord busy initDone ovr err).getLsbD 1 = initDone ∧
    (statusWord busy initDone ovr err).getLsbD 2 = ovr ∧ (statusWord busy initDone ovr err).extractLsb' 3 3 = err.code ∧
    (statusWord busy initDone ovr err).extractLsb' 6 10 = 0#10 := by
  cases err <;> revert busy initDone ovr <;> decide

/-- A narrow value set at the bottom of a register reads back there, with zeros above (R17 to R19). -/
theorem extractLsb'_setWidth {k : Nat} (x : BitVec k) (hk : k ≤ 16) :
    (x.setWidth 16).extractLsb' 0 k = x ∧ (x.setWidth 16).extractLsb' k (16 - k) = 0#(16 - k) := by
  refine ⟨BitVec.eq_of_getLsbD_eq fun i hi => ?_, BitVec.eq_of_getLsbD_eq fun i hi => ?_⟩
  · rw [BitVec.getLsbD_extractLsb', BitVec.getLsbD_setWidth]
    simp [hi, show i < 16 by omega]
  · rw [BitVec.getLsbD_extractLsb', BitVec.getLsbD_setWidth, BitVec.getLsbD_of_ge x (k + i) (by omega)]
    simp

/-- Settles O14: STATUS field by field, the three narrow registers at the bottom of their words, and the codes case by
case. -/
theorem windowLayout : Obligations.WindowLayout := by
  unfold Obligations.WindowLayout
  intro s
  obtain ⟨hbusy, hinit, hovr, herr, hzero⟩ := statusWord_fields s.busy s.initDone s.ovr s.err
  obtain ⟨hout, hout0⟩ := extractLsb'_setWidth s.outcome.code (by omega)
  obtain ⟨hlen, hlen0⟩ := extractLsb'_setWidth s.rxLen (by omega)
  obtain ⟨hmode, hmode0⟩ := extractLsb'_setWidth s.mode.code (by omega)
  refine ⟨rfl, hbusy, hinit, hovr, herr.trans ?_, hzero, rfl, hout.trans ?_, hout0, hlen, hlen0, hmode.trans ?_, hmode0⟩
  · cases s.err <;> rfl
  · cases s.outcome <;> rfl
  · cases s.mode with
    | unknown => rfl
    | requested m => cases m <;> rfl

/-- Settles O20: each register of the reset state is computed. -/
theorem resetValues : Obligations.ResetValues := by
  unfold Obligations.ResetValues
  exact ⟨rfl, rfl, rfl, rfl, rfl, rfl, rfl, rfl, rfl, rfl, rfl, rfl, rfl⟩

/-- While BUSY = 0 a word written to CMD is accepted (R67). -/
theorem windowWrite_cmd_of_idle {s : State} (w : HalfWord) (hb : s.busy = false) : windowWrite 0 w s = accept w s := by
  simp [windowWrite, hb]

/-- Settles O10: the step is the host's write to CMD, which an idle NRC accepts. -/
theorem idleWriteToCmdIsAccepted : Obligations.IdleWriteToCmdIsAccepted := by
  unfold Obligations.IdleWriteToCmdIsAccepted
  intro s w rest hl hq hb
  have haccept : windowWrite 0 w { s with hostIn := rest } = accept w { s with hostIn := rest } :=
    windowWrite_cmd_of_idle w hb
  rw [step_hostAct hl hq (by simp), hostAct, haccept]
  rfl

/-- Settles O19: the step is the host's reset. -/
theorem resetTakesEffect : Obligations.ResetTakesEffect := by
  unfold Obligations.ResetTakesEffect
  intro s rest hl hq
  rw [step_hostAct hl hq (by simp), hostAct]
  simp [resetNrc, State.reset, hl]

/-! ### The host buffer -/

/-- Settles O15, by the laws of reading after writing. -/
theorem hostBufferReadAfterWrite : Obligations.HostBufferReadAfterWrite := by
  unfold Obligations.HostBufferReadAfterWrite
  intro m i b hm
  exact ⟨Memory.wf_write hm i b, fun j => by rw [Memory.read_write hm]; simp only [eq_comm]⟩

theorem Memory.wfFrom_cons {lo k : Nat} {b : Byte} {m : Memory} : Memory.wfFrom lo ((k, b) :: m) = true ↔
    lo ≤ k ∧ k < 256 ∧ b ≠ unlistedByte ∧ Memory.wfFrom (k + 1) m = true := by
  simp [Memory.wfFrom, and_assoc]

/-- A buffer that reads alike at the lowest address of another lists an address as low: there the other's byte is no
unlisted one. -/
theorem Memory.exists_head_le {lo lo' k : Nat} {b : Byte} {m m' : Memory} (h : Memory.wfFrom lo ((k, b) :: m) = true)
    (h' : Memory.wfFrom lo' m' = true) (hread : Memory.read ((k, b) :: m) k = Memory.read m' k) :
    ∃ k' b' t, m' = (k', b') :: t ∧ k' ≤ k := by
  obtain ⟨-, -, hb, -⟩ := Memory.wfFrom_cons.mp h
  rw [Memory.read_cons, if_pos rfl] at hread
  cases m' with
  | nil => exact absurd hread hb
  | cons e t =>
    obtain ⟨k', b'⟩ := e
    obtain ⟨-, hk', hb', ht⟩ := Memory.wfFrom_cons.mp h'
    have listed : Memory.wfFrom k' ((k', b') :: t) = true := Memory.wfFrom_cons.mpr ⟨le_rfl, hk', hb', ht⟩
    refine ⟨k', b', t, rfl, not_lt.mp fun hlt => hb ?_⟩
    rw [hread, Memory.read_below listed hlt]

/-- Buffers in canonical form that read alike are one list: their lowest addresses are the same, and so on up. -/
theorem Memory.ext_of_wfFrom {lo : Nat} {m m' : Memory} (h : Memory.wfFrom lo m = true) (h' : Memory.wfFrom lo m' = true)
    (hread : ∀ j, m.read j = m'.read j) : m = m' := by
  induction m generalizing lo m' with
  | nil =>
    cases m' with
    | nil => rfl
    | cons e' t =>
      obtain ⟨_, _, _, hnil, -⟩ := Memory.exists_head_le h' h (hread e'.1).symm
      cases hnil
  | cons e m ih =>
    obtain ⟨k, b⟩ := e
    obtain ⟨k', b', t, rfl, hle⟩ := Memory.exists_head_le h h' (hread k)
    obtain ⟨_, _, _, hcons, hle'⟩ := Memory.exists_head_le h' h (hread k').symm
    cases hcons
    obtain rfl : k = k' := Nat.le_antisymm hle' hle
    obtain ⟨-, -, -, hm⟩ := Memory.wfFrom_cons.mp h
    obtain ⟨-, -, -, ht⟩ := Memory.wfFrom_cons.mp h'
    obtain rfl : b = b' := by simpa [Memory.read_cons] using hread k
    have tails : m = t := ih hm ht fun j => by
      by_cases hj : j < k + 1
      · rw [Memory.read_below hm hj, Memory.read_below ht hj]
      · simpa [Memory.read_cons, show k ≠ j by omega] using hread j
    rw [tails]

/-- Settles O16, by induction on the list from its lowest address up. -/
theorem hostBufferIsCanonical : Obligations.HostBufferIsCanonical := by
  unfold Obligations.HostBufferIsCanonical
  exact fun m m' h h' hread => Memory.ext_of_wfFrom h h' hread

/-- The words of SEND are those with OP 0x02 (R61). -/
theorem decodeHcmd_send_iff (w : HalfWord) : (∃ n, decodeHcmd w = .ok (.send n)) ↔ w.extractLsb' 8 8 = 0x02#8 := by
  constructor
  · rintro ⟨n, h⟩
    rw [← encode_of_decodeHcmd h]
    exact opField_append 0x02 n
  · intro h
    have word : encode (.send (argField w)) = w := word_of_opField (k := 2) (congrArg BitVec.toNat h)
    exact ⟨argField w, by rw [← decodeHcmd_encode rfl, word]⟩

/-- The word of GET_PACKET is 0x0400 (R61, R62). -/
theorem decodeHcmd_getPacket_iff (w : HalfWord) : decodeHcmd w = .ok .getPacket ↔ w = 0x0400#16 := by
  constructor
  · intro h
    exact (encode_of_decodeHcmd h).symm
  · rintro rfl
    rfl

/-- HB is in use while SEND or GET_PACKET runs (R55). -/
theorem bufferInUse_iff (s : State) : bufferInUse s = true ↔ TransferRuns s := by
  rw [TransferRuns, ← decodeHcmd_send_iff, ← decodeHcmd_getPacket_iff, bufferInUse, Bool.and_eq_true]
  refine and_congr_right fun _ => ?_
  split
  next n h => simp [h]
  next h => simp [h]
  next hsend hget => simpa using ⟨hsend, hget⟩

/-- The marks of raced bytes after a host store (R55). -/
theorem mem_hostStore_raced {s : State} {i b : Byte} (h : TransferRuns s) (j : Byte) :
    j ∈ (hostStore i b s).raced ↔ j = i ∨ j ∈ s.raced := by
  have use := (bufferInUse_iff s).mpr h
  by_cases hmem : i ∈ s.raced
  · have same : (hostStore i b s).raced = s.raced := by simp [hostStore, hmem]
    rw [same]
    exact ⟨.inr, fun hj => hj.elim (fun hj => hj ▸ hmem) id⟩
  · have marked : (hostStore i b s).raced = i :: s.raced := by simp [hostStore, use, hmem]
    rw [marked, List.mem_cons]

theorem hostStore_raced_of_not_runs {s : State} {i b : Byte} (h : ¬ TransferRuns s) : (hostStore i b s).raced = s.raced := by
  have idle : bufferInUse s = false := Bool.eq_false_iff.mpr (mt (bufferInUse_iff s).mp h)
  simp [hostStore, idle]

/-- Settles O17: the step is the host's store, which writes the byte and, while HB is in use, marks its index. -/
theorem hostStoreIntoBuffer : Obligations.HostStoreIntoBuffer := by
  unfold Obligations.HostStoreIntoBuffer
  intro s i b rest hl hq hm
  refine ⟨hostStore i b { s with hostIn := rest }, step_hostAct hl hq (by simp), rfl, ?_, fun j hj => ?_, ?_, ?_⟩
  · exact (Memory.read_write hm ..).trans (if_pos rfl)
  · exact Memory.read_write_ne _ b hj.symm
  · exact hostStore_raced_of_not_runs (s := { s with hostIn := rest }) (b := b)
  · exact mem_hostStore_raced (s := { s with hostIn := rest }) (b := b)

/-- Settles O18: the step is the host's load, whose value is a draw exactly while HB is in use. -/
theorem hostLoadFromBuffer : Obligations.HostLoadFromBuffer := by
  unfold Obligations.HostLoadFromBuffer
  intro s i rest hl hq
  rw [step_hostAct hl hq (by simp), hostAct]
  refine ⟨fun h => ?_, fun h => ?_⟩
  · have idle : ¬ bufferInUse { s with hostIn := rest } = true := mt (bufferInUse_iff _).mp h
    rw [hostLoad, if_neg idle]
  · have use : bufferInUse { s with hostIn := rest } = true := (bufferInUse_iff _).mpr h
    rw [hostLoad, if_pos use]

end Sys2Proof.Machine
end

section
/-! Single steps of the sequencer: a transaction (40_register_bus.md R80, R81), the decoded instruction's step
(10_state.md R23), the decode checks (30_encoding.md R69) and the last lines (R72). -/

open Sys2Proof.Claims

namespace Sys2Proof.Machine

/-! ### Transactions -/

/-- Settles O6: WR is `spiWrite`, whose every field is as the statement writes it out. -/
theorem wrCompletes : Obligations.WrCompletes := by
  unfold Obligations.WrCompletes
  exact fun a v s => exec_wr a v s

/-- Settles O7: RD is `spiRead`, which takes the radio's answer from the queue or draws it. -/
theorem rdCompletes : Obligations.RdCompletes := by
  unfold Obligations.RdCompletes
  refine fun a s => ⟨fun v vs hq => ?_, fun hq => ?_⟩
  · rw [exec_rd, spiRead, radioAnswer_cons hq, takeAnswer_cons hq]
    rfl
  · have taken : s.takeAnswer = { s with draws := s.draws + 1 } := by simp [State.takeAnswer, hq]
    rw [exec_rd, spiRead, taken, radioAnswer, hq]
    rfl

/-! ### The sequencer's turn -/

/-- With nothing queued, taking the turn changes nothing. -/
theorem takeTurn_of_no_queue {s : State} (hl : s.lone = none) (hq : s.hostIn = []) : takeTurn s = s := by
  rw [takeTurn_of_no_lone hl, hq, List.tail_nil, ← hq]

/-- At the sequencer's turn a step is one of the decoded instruction. -/
theorem step_sequencer {s : State} {pos : SeqPos} {i : Instr} (hl : s.lone = none)
    (hq : s.hostIn = [] ∨ s.hostIn.head? = some .turn) (hs : s.seq = .run pos) (hd : decodeHcmd s.seqCmd = .ok i) :
    step s = exec i (takeTurn s) := by
  have hturn : nextTurn s = .instr i := (nextTurn_sequencer hl hq).trans (sequencerTurn_run hs hd)
  rw [step, hturn]

/-- Settles O21: the turn is the sequencer's, or that of a lone transaction. -/
theorem stepRunsDecodedInstruction : Obligations.StepRunsDecodedInstruction := by
  unfold Obligations.StepRunsDecodedInstruction
  refine fun s i => ⟨fun pos hl hs hd => ⟨fun hq => ?_, fun rest hq => ?_⟩, fun f hl hd => ?_⟩
  · rw [step_sequencer hl (.inl hq) hs hd, takeTurn_of_no_queue hl hq]
  · rw [step_sequencer hl (.inr (by rw [hq]; rfl)) hs hd, takeTurn_of_no_lone hl, hq, List.tail_cons]
  · have hturn : nextTurn s = .instr i := by rw [nextTurn, hl]; simp only [loneTurn, hd]
    have htake : takeTurn s = { s with lone := none } := by rw [takeTurn, hl]
    rw [step, hturn, htake]

/-! ### The decode checks -/

/-- The pseudocode's checks reject every word that decodes to no command (R63, R69). -/
theorem decodeChecks_of_error {w : HalfWord} {r : Reject} (initDone : Bool) (h : decodeHcmd w = .error r) :
    decodeChecks w initDone = some .illegalCmd := by
  have refused := (decodeHcmd_error_iff w).mp ⟨r, h⟩
  have harg : argField w ≠ 0#8 ↔ (argField w).toNat ≠ 0 := not_congr BitVec.toNat_eq
  rw [harg] at refused
  simp only [opField, argField] at refused
  simp only [decodeChecks]
  rcases refused with hop | ⟨hop, harg⟩
  · exact if_pos (by omega)
  · exact (if_neg (by omega)).trans (if_pos ⟨hop, harg⟩)

/-- On a word that decodes they are the checks of its command (R69). -/
theorem decodeChecks_of_ok {w : HalfWord} {i : Instr} (initDone : Bool) (h : decodeHcmd w = .ok i) :
    decodeChecks w initDone = decodeCheck i initDone := by
  have hc := isCommand_of_decodeHcmd h
  have fields : ∀ op arg : Byte, (op ++ arg).extractLsb' 8 8 = op ∧ (op ++ arg).extractLsb' 0 8 = arg :=
    fun op arg => ⟨opField_append op arg, argField_append op arg⟩
  obtain rfl := encode_of_decodeHcmd h
  cases i with
  | rd a => cases hc
  | wr a v => cases hc
  | init => rfl
  | receive => cases initDone <;> rfl
  | getPacket => cases initDone <;> rfl
  | send n => cases initDone <;> simp [decodeChecks, encode, fields, decodeCheck, initGate]
  | changeChannel k =>
    have legal : legalChannel k = decide (k.toNat ≤ 7 ∨ k.toNat = 0x10) := by simp [legalChannel, BitVec.toNat_eq]
    cases initDone <;> by_cases hk : k.toNat ≤ 7 ∨ k.toNat = 0x10 <;>
      simp [decodeChecks, encode, fields, decodeCheck, firstError, initGate, indexGate, legal, hk]
  | changeDatarate k =>
    cases initDone <;> by_cases hk : k.toNat ≤ 6 <;>
      simp [decodeChecks, encode, fields, decodeCheck, firstError, initGate, indexGate, legalDatarate, hk]

/-- What a command assigns as it enters, by the OP of its word (R14, R17, R62). -/
theorem enter_eq {s : State} {i : Instr} (h : decodeHcmd s.seqCmd = .ok i) : enter i s = { s with
    initDone := if s.seqCmd.extractLsb' 8 8 = 0x01#8 then false else s.initDone
    outcome := if s.seqCmd.extractLsb' 8 8 = 0x03#8 then .noMessage else s.outcome
    work :=
      if s.seqCmd.extractLsb' 8 8 = 0x02#8 then { s.work with len := some (s.seqCmd.extractLsb' 0 8) } else s.work } := by
  have hc := isCommand_of_decodeHcmd h
  have fields : ∀ op arg : Byte, (op ++ arg).extractLsb' 8 8 = op ∧ (op ++ arg).extractLsb' 0 8 = arg :=
    fun op arg => ⟨opField_append op arg, argField_append op arg⟩
  have hop : s.seqCmd.extractLsb' 8 8 = (encode i).extractLsb' 8 8 := by rw [encode_of_decodeHcmd h]
  have harg : s.seqCmd.extractLsb' 0 8 = (encode i).extractLsb' 0 8 := by rw [encode_of_decodeHcmd h]
  rw [hop, harg]
  cases i with
  | rd a => cases hc
  | wr a v => cases hc
  | _ => simp [encode, enter, fields]

/-- The word of INIT is the one with OP 0x01 (R61). -/
theorem opcode_init_iff {w : HalfWord} {i : Instr} (h : decodeHcmd w = .ok i) : w.extractLsb' 8 8 = 0x01#8 ↔ i = .init := by
  have hc := isCommand_of_decodeHcmd h
  have op : ∀ op arg : Byte, (op ++ arg).extractLsb' 8 8 = op := opField_append
  rw [← encode_of_decodeHcmd h]
  cases i with
  | rd a => cases hc
  | wr a v => cases hc
  | _ => simp [encode, op]

/-- Settles O22: the pseudocode's checks are the decoded command's, and one that fails is the step's error. -/
theorem decodeChecksInOrder : Obligations.DecodeChecksInOrder := by
  unfold Obligations.DecodeChecksInOrder
  intro s hl hq hs
  cases hd : decodeHcmd s.seqCmd with
  | error r =>
    rw [decodeChecks_of_error s.initDone hd]
    have hturn : nextTurn s = .illegal := by
      rw [nextTurn_sequencer hl (.inl hq), sequencerTurn, hs]
      simp only [hd]
    rw [step, hturn, takeTurn_of_no_queue hl hq]
    rfl
  | ok i =>
    have hi := isCommand_of_decodeHcmd hd
    have hstep : step s = exec i s := (step_sequencer hl (.inl hq) hs hd).trans (by rw [takeTurn_of_no_queue hl hq])
    rw [decodeChecks_of_ok s.initDone hd]
    cases hc : decodeCheck i s.initDone with
    | some e =>
      have rejected : exec i s = .next (raiseError e s) := (exec_command hi s).trans (runCommand_rejects hs hc)
      have hmode : e ≠ .waitTimeout := by rcases decodeCheck_codes hc with rfl | rfl <;> decide
      simp [hstep, rejected, raiseError, endCommand, State.record, hmode]
    | none =>
      refine ⟨i, rfl, hc.symm, hstep, (exec_check_of_passes hi hs hc).trans ?_⟩
      rw [enter_eq hd]
      simp only [State.atLine, ne_eq, opcode_init_iff hd]

/-! ### The last lines -/

/-- Settles O23: at its last line each command makes its last assignment and completes. -/
theorem lastLinesComplete : Obligations.LastLinesComplete := by
  unfold Obligations.LastLinesComplete
  refine fun s again => ⟨fun hs => ?_, fun n hs => ?_, fun x f hs hx hf => ?_, fun n hs hn => ?_, fun k hs hk => ?_,
    fun k hs hk => ?_⟩
  · exact exec_complete_initDone hs rfl
  · exact exec_line (i := .send n) (l := .complete .standby) hs rfl
  · exact exec_complete_outcome hs rfl hx hf
  · rw [exec_line hs rfl, runLine, finish, hn, need_some]
    rfl
  · obtain ⟨f, hf⟩ := Option.isSome_iff_exists.mp ((chTable_isSome k).trans hk)
    exact exec_line hs ((onlyWrites_changeChannel hf).last_line _)
  · obtain ⟨m, hm⟩ := Option.isSome_iff_exists.mp ((drTable_isSome k).trans hk)
    exact exec_line hs ((onlyWrites_changeDatarate hm).last_line _)

end Sys2Proof.Machine
end

section
/-! The runs of CHANGE_CHANNEL and CHANGE_DATARATE (41_config_tables.md R95, R96). -/

open Sys2Proof.Claims

namespace Sys2Proof.Machine

/-- The run of a command that only writes registers, in the words of the statements (R95, R96). -/
theorem OnlyWrites.runsToDone {i : Instr} {ws : List (RegAddr × Byte)} {s : State} (h : OnlyWrites i ws) (hne : ws ≠ [])
    (hs : s.seq = .run .check) (hd : s.initDone = true) (hm : s.mode = .requested .standby) :
    ∃ t, execSteps i (ws.length + 2) s = .next t ∧
      t.history = s.history ++ ((ws.map fun w => .wr w.1 w.2) ++ [.done (statusWord false true s.ovr s.err)]) ∧
      t.mode = s.mode ∧ t.initDone = true ∧ t.err = s.err ∧ t.outcome = s.outcome ∧ t.rxLen = s.rxLen ∧ t.hb = s.hb ∧
      t.misoIn = s.misoIn ∧ t.lineIn = s.lineIn ∧ t.draws = s.draws ∧ Ended t ∧ SameSurroundings s t := by
  obtain ⟨p, hp, run⟩ := h.run hs hd hm
  refine ⟨_, run, ?_, rfl, hd, rfl, rfl, rfl, rfl, rfl, rfl, rfl, ⟨rfl, rfl, rfl, hp (.inl hne)⟩, rfl, rfl, rfl, rfl, rfl, rfl,
    rfl, rfl⟩
  simp [hd]

/-- Settles O29: the three writes of the entry of index k. -/
theorem changeChannelRunsToDone : Obligations.ChangeChannelRunsToDone := by
  unfold Obligations.ChangeChannelRunsToDone
  intro s k f hs hd hm hf
  exact (onlyWrites_changeChannel hf).runsToDone (by simp) hs hd hm

/-- Settles O30: the three writes of the entry of index k. -/
theorem changeDatarateRunsToDone : Obligations.ChangeDatarateRunsToDone := by
  unfold Obligations.ChangeDatarateRunsToDone
  intro s k m hs hd hm hm'
  exact (onlyWrites_changeDatarate hm').runsToDone (by simp) hs hd hm

end Sys2Proof.Machine
end

section
/-! The runs of SEND and GET_PACKET (43_packet_transfer.md R120 to R123): the lines before the byte loop, the loop, the
lines after it. -/

open Sys2Proof.Claims

namespace Sys2Proof.Machine

/-! ### Single steps of a run -/

/-- A line that writes a value that its source has is one write (R53, R81). -/
theorem exec_wr_source {i : Instr} {s : State} {n : Nat} {again : Bool} {a : RegAddr} {src : WrSource} {v : Byte}
    (hs : s.seq = .run (.line n again)) (hp : (program i s.params)[n]? = some (.wr a src)) (hv : src.get s.work = some v)
    (hl : landsAt (program i s.params) (n + 1) = true) : exec i s = .next ((spiWrite a v s).atLine (n + 1)) := by
  rw [exec_line hs hp, runLine, hv, need_some, goto_of_lands hl]

/-- A line that reads a register puts the radio's answer into its working register (R53, R80). -/
theorem exec_rd_into {i : Instr} {s : State} {n : Nat} {again : Bool} {a : RegAddr} {d : RdTarget} {v : Byte} {vs : List Byte}
    (hs : s.seq = .run (.line n again)) (hp : (program i s.params)[n]? = some (.rd a d)) (hq : s.misoIn = v :: vs)
    (hl : landsAt (program i s.params) (n + 1) = true) :
    exec i s = .next
      { s with
        seq := .run (.line (n + 1) false), misoIn := vs, work := d.put v s.work, history := s.history ++ [.rd a v]
        port := s.port.transfer s.params.spiFormat (rdFirstByte a) dummyByte } := by
  rw [exec_line hs hp, runLine, readInto, goto_of_lands hl, spiRead, radioAnswer_cons hq, takeAnswer_cons hq]
  rfl

/-- The line that sets the FIFO pointer starts the byte loop at T_IDX = 0 (R120, R122). -/
theorem exec_wrFifoPtr {i : Instr} {s : State} {n : Nat} {again : Bool} {p : Byte} (hs : s.seq = .run (.line n again))
    (hp : (program i s.params)[n]? = some .wrFifoPtr) (hptr : s.work.ptr = some p) :
    exec i s = goto (program i s.params) (n + 1) { spiWrite 0x0D p s with work := { s.work with idx := some 0 } } := by
  rw [exec_line hs hp, runLine, hptr, need_some]

/-- SEND's last line makes MODE_SHADOW STANDBY and completes (R106, R121). -/
theorem exec_complete_standby {i : Instr} {s : State} {n : Nat} {again : Bool} (hs : s.seq = .run (.line n again))
    (hp : (program i s.params)[n]? = some (.complete .standby)) :
    exec i s = .next (complete (s.setMode (.requested .standby))) := by
  rw [exec_line hs hp, runLine, finish]

/-- GET_PACKET's last line makes RX_LEN T_LEN and completes (R123). -/
theorem exec_complete_rxLen {i : Instr} {s : State} {n : Nat} {again : Bool} {len : Byte} (hs : s.seq = .run (.line n again))
    (hp : (program i s.params)[n]? = some (.complete .rxLen)) (hlen : s.work.len = some len) :
    exec i s = .next (complete { s with rxLen := len }) := by
  rw [exec_line hs hp, runLine, finish, hlen, need_some]

/-! ### SEND -/

/-- From the decode checks to SEND_PAYLOAD: T_LEN is the operand, and IQ_TX is written (R112, R121). -/
theorem send_setup {s : State} {n : Byte} (hs : s.seq = .run .check) (hd : s.initDone = true)
    (hm : s.mode = .requested .standby) :
    execSteps (.send n) 3 s = .next
      { s with
        seq := .run (.line 4 false), work := { s.work with len := some n }
        port := s.port.transfer s.params.spiFormat (wrFirstByte 0x3B) s.params.iqTx3B
        history := s.history ++ [.wr 0x33 s.params.iqTx33, .wr 0x3B s.params.iqTx3B] } := by
  have passes : decodeCheck (.send n) s.initDone = none := by rw [hd]; rfl
  have check : exec (.send n) s = .next ((enter (.send n) s).atLine 2) := exec_check_of_standby rfl hs passes rfl hm
  refine (execSteps_succ check).trans ?_
  refine (execSteps_succ (exec_wr_value (n := 2) rfl rfl rfl)).trans ?_
  refine (execSteps_one ..).trans ((exec_wr_value (n := 3) rfl rfl rfl).trans ?_)
  simp [spiWrite, State.record, State.atLine, enter, transfer_eq_transfer (SpiPort.transfer ..) s.port]

/-- The state in which SEND reaches its byte loop: the length written, the FIFO pointer read and written back (R120). -/
def sendLoaded (n p : Byte) (ps : List Byte) (s : State) : State :=
  { s with
    seq := .run (.line 6 false), misoIn := ps
    work := { s.work with ptr := some p, idx := some 0 }
    port := s.port.transfer s.params.spiFormat (wrFirstByte 0x0D) p
    history := s.history ++ [.wr 0x22 n, .rd 0x0E p, .wr 0x0D p] }

/-- From the start of SEND_PAYLOAD to its byte loop (R120). -/
theorem send_load {s : State} {n p : Byte} {ps : List Byte} (hs : s.seq = .run (.line 4 false)) (hlen : s.work.len = some n)
    (hq : s.misoIn = p :: ps) :
    execSteps (.send n) 3 s = goto (program (.send n) s.params) 7 (sendLoaded n p ps s) := by
  refine (execSteps_succ (exec_wr_source (src := .len) hs rfl hlen rfl)).trans ?_
  refine (execSteps_succ (exec_rd_into (s := (spiWrite 0x22 n s).atLine 5) rfl rfl hq rfl)).trans ?_
  refine (execSteps_one ..).trans ((exec_wrFifoPtr (n := 6) (p := p) rfl rfl rfl).trans ?_)
  simp [sendLoaded, spiWrite, State.record, State.atLine, RdTarget.put, transfer_eq_transfer (SpiPort.transfer ..) s.port]

theorem sendEvents_zero (m : Memory) (n : Nat) : sendEvents m 0 n = sendLoopEvents m n := by
  rw [sendEvents, sendLoopEvents, List.range_eq_range']

/-- SEND_PAYLOAD for every length, with no byte raced (R120, R45). -/
theorem send_payload {s : State} {n p : Byte} {ps : List Byte} (hs : s.seq = .run (.line 4 false))
    (hlen : s.work.len = some n) (hq : s.misoIn = p :: ps) (hraced : s.raced = []) :
    ∃ (q : SpiPort) (w : Work), q.nss = true ∧ execSteps (.send n) (3 + 2 * n.toNat) s = .next
      { s with
        seq := .run (.line 9 false), port := q, work := w, misoIn := ps
        history := s.history ++ ([Event.wr 0x22 n, Event.rd 0x0E p, Event.wr 0x0D p] ++ sendLoopEvents s.hb n.toNat) } := by
  have test := goto_loop (prog := program (.send n) s.params) (n := 7) (s := sendLoaded n p ps s) (.inl rfl) rfl hlen
  obtain ⟨q, w, hn, -, loop⟩ := execSteps_sendLoop (i := .send n) (s := sendLoaded n p ps s) n.toNat 0 rfl rfl rfl hlen
    (Nat.zero_add _) rfl hraced test
  refine ⟨q, w, hn, (execSteps_add ((send_load hs hlen hq).trans test)).trans (loop.trans ?_)⟩
  rw [execSteps_zero, show (0 : BitVec 9).toNat = 0 from rfl, sendEvents_zero, sendLoaded, List.append_assoc]

/-- TX_PHASE, with both waits ending within the bound, and completion (R106, R121). -/
theorem send_transmit {s : State} {n : Byte} {lows1 lows2 : List Levels} {last1 last2 : Levels} {rest : List Levels}
    (hs : s.seq = .run (.line 9 false)) (hline : s.lineIn = lows1 ++ last1 :: (lows2 ++ last2 :: rest))
    (hready : WaitEnds s.params.waitBound Levels.modeReady lows1 last1)
    (htx : WaitEnds s.params.waitBound Levels.txDone lows2 last2) :
    execSteps (.send n) (2 + (lows1.length + 1) + (lows2.length + 1) + 1) s = .next (complete
      { s with
        mode := .requested .standby, lineIn := rest
        port := s.port.transfer s.params.spiFormat (wrFirstByte 0x01) s.params.modeTx
        history := s.history ++ ([Event.wr 0x40 s.params.dioMapTx, Event.wr 0x01 s.params.modeTx] ++
          waitEvents .modeReady lows1 ++ waitEvents .txDone lows2) }) := by
  have phase : execSteps (.send n) 2 s = .next
      { s with
        seq := .run (.line 11 false), mode := .requested .tx
        port := s.port.transfer s.params.spiFormat (wrFirstByte 0x01) s.params.modeTx
        history := s.history ++ [.wr 0x40 s.params.dioMapTx, .wr 0x01 s.params.modeTx] } := by
    refine (execSteps_succ (exec_wr_value hs rfl rfl)).trans ?_
    refine (execSteps_one ..).trans ((exec_mode (n := 10) (m := .tx) rfl rfl rfl).trans ?_)
    simp [requestMode, spiWrite, State.record, State.setMode, State.atLine, modeValue,
      transfer_eq_transfer (SpiPort.transfer ..) s.port]
  have ready := (execSteps_add phase).trans (execSteps_wait_of_waitEnds (L := .modeReady) rfl rfl hline hready)
  have done := (execSteps_add ready).trans (execSteps_wait_of_waitEnds (L := .txDone) rfl rfl rfl htx)
  refine (execSteps_add done).trans ((execSteps_one ..).trans ((exec_complete_standby rfl rfl).trans ?_))
  simp [complete, endCommand, State.record, State.setMode]

/-- The events of SEND `n` from MODE_SHADOW = STANDBY but for `Done`, with `p` the radio's answer to RD 0x0E (R120,
R121). -/
def sendTrace (prm : Params) (m : Memory) (n p : Byte) (lows1 lows2 : List Levels) : List Event :=
  [Event.wr 0x33 prm.iqTx33, Event.wr 0x3B prm.iqTx3B, Event.wr 0x22 n, Event.rd 0x0E p, Event.wr 0x0D p] ++
    sendLoopEvents m n.toNat ++
    [Event.wr 0x40 prm.dioMapTx, Event.wr 0x01 prm.modeTx] ++ waitEvents .modeReady lows1 ++ waitEvents .txDone lows2

/-- The whole run of SEND from MODE_SHADOW = STANDBY, with no byte raced (R121): what completion finds. -/
theorem send_run {s : State} {n p : Byte} {ps : List Byte} {lows1 lows2 : List Levels} {last1 last2 : Levels}
    {rest : List Levels} (hs : s.seq = .run .check) (hd : s.initDone = true) (hm : s.mode = .requested .standby)
    (hraced : s.raced = []) (hmiso : s.misoIn = p :: ps) (hline : s.lineIn = lows1 ++ last1 :: (lows2 ++ last2 :: rest))
    (hready : WaitEnds s.params.waitBound Levels.modeReady lows1 last1)
    (htx : WaitEnds s.params.waitBound Levels.txDone lows2 last2) :
    execSteps (.send n) (11 + 2 * n.toNat + lows1.length + lows2.length) s = .next (complete
      { s with
        mode := .requested .standby, misoIn := ps, lineIn := rest
        port := s.port.transfer s.params.spiFormat (wrFirstByte 0x01) s.params.modeTx
        history := s.history ++ sendTrace s.params s.hb n p lows1 lows2 }) := by
  obtain ⟨q, w, -, loop⟩ := send_payload (n := n) (p := p) (ps := ps)
    (s := { s with
      seq := .run (.line 4 false), work := { s.work with len := some n }
      port := s.port.transfer s.params.spiFormat (wrFirstByte 0x3B) s.params.iqTx3B
      history := s.history ++ [.wr 0x33 s.params.iqTx33, .wr 0x3B s.params.iqTx3B] }) rfl rfl hmiso hraced
  have loaded := (execSteps_add (send_setup (n := n) hs hd hm)).trans loop
  rw [show 11 + 2 * n.toNat + lows1.length + lows2.length =
    3 + (3 + 2 * n.toNat) + (2 + (lows1.length + 1) + (lows2.length + 1) + 1) by omega, execSteps_add loaded]
  refine (send_transmit (last1 := last1) (last2 := last2) (rest := rest) rfl ?_ ?_ ?_).trans ?_
  · exact hline
  · exact hready
  · exact htx
  · simp [complete, endCommand, State.record, sendTrace, transfer_eq_transfer q s.port]

/-- Settles O26: the run is the decode step and IQ_TX, SEND_PAYLOAD, and TX_PHASE with completion. -/
theorem sendRunsToDone : Obligations.SendRunsToDone := by
  unfold Obligations.SendRunsToDone
  intro s n p ps lows1 lows2 last1 last2 rest hs hd hm hraced hmiso hline hready htx
  refine ⟨_, send_run hs hd hm hraced hmiso hline hready htx, ?_, rfl, hd, rfl, rfl, rfl, rfl, rfl, rfl, rfl,
    ⟨rfl, rfl, rfl, rfl⟩, rfl, rfl, rfl, rfl, rfl, rfl, rfl, rfl⟩
  simp [hd, sendTrace]

/-! ### GET_PACKET -/

/-- The state in which GET_PACKET reaches its byte loop: the offset and the length read, the FIFO pointer set (R122). -/
def getLoaded (o n : Byte) (rest : List Byte) (s : State) : State :=
  { s with
    seq := .run (.line 4 false), misoIn := rest
    work := { s.work with ptr := some o, len := some n, idx := some 0 }
    port := s.port.transfer s.params.spiFormat (wrFirstByte 0x0D) o
    history := s.history ++ [.rd 0x10 o, .rd 0x13 n, .wr 0x0D o] }

/-- From the decode checks to the byte loop (R122, R123). -/
theorem get_load {s : State} {o n : Byte} {rest : List Byte} (hs : s.seq = .run .check) (hd : s.initDone = true)
    (hm : s.mode = .requested .standby) (hq : s.misoIn = o :: n :: rest) :
    execSteps .getPacket 4 s = goto getPacketProgram 5 (getLoaded o n rest s) := by
  have passes : decodeCheck .getPacket s.initDone = none := by rw [hd]; rfl
  have check : exec .getPacket s = .next (s.atLine 2) := exec_check_of_standby rfl hs passes rfl hm
  refine (execSteps_succ check).trans ?_
  refine (execSteps_succ (exec_rd_into (s := s.atLine 2) rfl rfl hq rfl)).trans ?_
  refine (execSteps_succ (exec_rd_into (n := 3) rfl rfl rfl rfl)).trans ?_
  refine (execSteps_one ..).trans ((exec_wrFifoPtr (n := 4) (p := o) rfl rfl rfl).trans ?_)
  simp [getLoaded, program, spiWrite, State.record, State.atLine, RdTarget.put,
    transfer_eq_transfer (SpiPort.transfer ..) s.port]

/-- A list with its indices is its entries at them. -/
theorem zipIdx_eq_map (bytes : List Byte) :
    bytes.zipIdx = (List.range bytes.length).map fun j => (bytes.getD j 0, j) := by
  refine List.ext_getElem (by simp) fun j h _ => ?_
  have hj : j < bytes.length := by simpa using h
  simp [hj]

theorem receiveEvents_zero (bytes : List Byte) : receiveEvents 0 bytes = receiveLoopEvents bytes := by
  rw [receiveEvents, zipIdx_eq_map, List.flatMap_map]
  rfl

/-- The events of GET_PACKET from MODE_SHADOW = STANDBY but for `Done`, with the radio's answers (R122, R123). -/
def getTrace (o n : Byte) (bytes : List Byte) : List Event :=
  [Event.rd 0x10 o, Event.rd 0x13 n, Event.wr 0x0D o] ++ receiveLoopEvents bytes

/-- The whole run of GET_PACKET from MODE_SHADOW = STANDBY (R123): what completion finds. -/
theorem get_run {s : State} {o n : Byte} {bytes ps : List Byte} (hs : s.seq = .run .check) (hd : s.initDone = true)
    (hm : s.mode = .requested .standby) (hq : s.misoIn = o :: n :: (bytes ++ ps)) (hn : bytes.length = n.toNat) :
    ∃ q : SpiPort, q.nss = true ∧ execSteps .getPacket (5 + 2 * n.toNat) s = .next (complete
      { s with
        rxLen := n, misoIn := ps, port := q, hb := storeFrom s.hb 0 bytes
        history := s.history ++ getTrace o n bytes }) := by
  have test := goto_loop (prog := getPacketProgram) (n := 5) (s := getLoaded o n (bytes ++ ps) s) (j := 0) (len := n)
    (.inr rfl) rfl rfl
  obtain ⟨q, w, hq', hw, loop⟩ := execSteps_receiveLoop (i := .getPacket) (s := getLoaded o n (bytes ++ ps) s) (j := 0) bytes
    1 rfl rfl rfl rfl ((Nat.zero_add _).trans hn) rfl rfl test
  refine ⟨q, hq', ?_⟩
  rw [show 5 + 2 * n.toNat = 4 + (2 * bytes.length + 1) by omega,
    execSteps_add ((get_load hs hd hm hq).trans test), loop, execSteps_one,
    exec_complete_rxLen (n := 7) (again := false) rfl rfl hw]
  simp [getLoaded, complete, endCommand, State.record, receiveEvents_zero, getTrace]

/-- Settles O28: the run is the decode step with the two reads, the byte loop, and completion. -/
theorem getPacketRunsToDone : Obligations.GetPacketRunsToDone := by
  unfold Obligations.GetPacketRunsToDone
  intro s o n bytes ps hs hd hm hwf hq hn
  have hlt : n.toNat < 256 := n.isLt
  obtain ⟨q, hq', run⟩ := get_run hs hd hm hq hn
  refine ⟨_, run, ?_, fun j => ?_, rfl, hm, hd, rfl, rfl, rfl, rfl, rfl, ⟨rfl, rfl, rfl, hq'⟩, rfl, rfl, rfl, rfl, rfl, rfl,
    rfl, rfl⟩
  · simp [hd, getTrace]
  · refine (read_storeFrom hwf bytes 0 (by omega) j).trans ?_
    simp [hn]

end Sys2Proof.Machine
end

section
/-! The round trip through the loopback responder (43_packet_transfer.md R125, 95_test_vectors.md section 1.3): what the
responder holds after SEND, and what its answers in GET_PACKET must then be. -/

open Sys2Proof.Claims

namespace Sys2Proof.Machine

/-! ### The responder after a list of events -/

/-- What an event does to the responder. -/
def Responder.next (tx : Byte) (r : Responder) : Event → Responder
  | .wr a v => r.onWr tx a v
  | .rd a _ => r.onRd a
  | _       => r

/-- The responder after those events, oldest first. -/
def Responder.after (tx : Byte) (r : Responder) (es : List Event) : Responder := es.foldl (Responder.next tx) r

theorem after_append (tx : Byte) (r : Responder) (es fs : List Event) :
    Responder.after tx r (es ++ fs) = Responder.after tx (Responder.after tx r es) fs := List.foldl_append

/-- Answers to a list of events are answers to its first part, and to the rest from there on. -/
theorem answers_append {tx : Byte} {r : Responder} {es fs : List Event} (h : Responder.Answers tx r (es ++ fs)) :
    Responder.Answers tx r es ∧ Responder.Answers tx (Responder.after tx r es) fs := by
  induction es generalizing r with
  | nil => exact ⟨trivial, h⟩
  | cons e es ih =>
    cases e with
    | rd a v => exact ⟨⟨h.1, (ih h.2).1⟩, (ih h.2).2⟩
    | _ => exact ih h

/-- Events that are no transactions leave the responder. -/
theorem after_of_no_frame {tx : Byte} {r : Responder} {es : List Event} (h : ∀ e ∈ es, e.frame = none) :
    Responder.after tx r es = r := by
  induction es with
  | nil => rfl
  | cons e es ih =>
    rw [List.forall_mem_cons] at h
    have same : Responder.next tx r e = r := by
      cases e with
      | wr a v => cases h.1
      | rd a v => cases h.1
      | _ => rfl
    rw [Responder.after, List.foldl_cons, same]
    exact ih h.2

/-! ### SEND -/

/-- Two places of the FIFO less than 256 apart are two. -/
theorem fifo_place_ne (p : Byte) {j k : Nat} (h : j < k) (hk : k < 256) :
    (p + BitVec.ofNat 8 j).toNat ≠ (p + BitVec.ofNat 8 k).toNat := by
  bv_omega

/-- After SEND_PAYLOAD's loop the FIFO holds the buffer's bytes from where the pointer stood, and the registers are
untouched. -/
theorem after_sendLoop (tx : Byte) (m : Memory) (r : Responder) (n : Nat) (hn : n ≤ 256) :
    (Responder.after tx r (sendLoopEvents m n)).reg = r.reg ∧
    (Responder.after tx r (sendLoopEvents m n)).ptr = r.ptr + BitVec.ofNat 8 n ∧
    ∀ j, j < n → (Responder.after tx r (sendLoopEvents m n)).fifo (r.ptr + BitVec.ofNat 8 j).toNat = m.read j := by
  induction n with
  | zero => exact ⟨rfl, (BitVec.add_zero r.ptr).symm, fun j hj => absurd hj (Nat.not_lt_zero j)⟩
  | succ n ih =>
    obtain ⟨hreg, hptr, hfifo⟩ := ih (by omega)
    have last : Responder.after tx r (sendLoopEvents m (n + 1)) =
        (Responder.after tx r (sendLoopEvents m n)).onWr tx 0x00 (m.read n) := by
      rw [sendLoopEvents, List.range_succ, List.flatMap_append, after_append]
      rfl
    simp only [last, Responder.onWr, if_true, hreg, hptr, true_and]
    refine ⟨by rw [BitVec.ofNat_add, BitVec.add_assoc]; rfl, fun j hj => ?_⟩
    by_cases hjn : j = n
    · subst hjn
      simp [setAt]
    · have hlt : j < n := by omega
      rw [setAt, if_neg (fifo_place_ne r.ptr hlt (by omega)), hfifo j hlt]

/-- The register writes, the pointer read and the pointer write before the loop: register 0x22 holds the length, and the
pointer stands where register 0x0E says. -/
theorem after_sendLoad {tx iq33 iq3B L p : Byte} {r r' : Responder}
    (h : Responder.Answers tx r [.wr 0x33 iq33, .wr 0x3B iq3B, .wr 0x22 L, .rd 0x0E p, .wr 0x0D p])
    (hr : r' = Responder.after tx r [.wr 0x33 iq33, .wr 0x3B iq3B, .wr 0x22 L, .rd 0x0E p, .wr 0x0D p]) :
    r'.reg 0x0E = p ∧ r'.reg 0x22 = L ∧ r'.ptr = p := by
  have answer : p = r.reg 0x0E := by simpa [Responder.Answers, Responder.onWr, Responder.answer, setAt] using h
  subst hr
  simp [Responder.after, Responder.next, Responder.onWr, Responder.onRd, setAt, ← answer]

/-- Transmission copies the FIFO base and the length to the registers a receiver reads them from. -/
theorem after_transmit {tx dio : Byte} {r r' : Responder} (hr : r' = Responder.after tx r [.wr 0x40 dio, .wr 0x01 tx]) :
    r'.reg 0x10 = r.reg 0x0E ∧ r'.reg 0x13 = r.reg 0x22 ∧ r'.fifo = r.fifo := by
  subst hr
  simp [Responder.after, Responder.next, Responder.onWr, setAt]

/-! ### GET_PACKET -/

/-- The events of the bytes `b 0`, `b 1`, … of RECEIVE_PAYLOAD's loop (R122). -/
def receivedEvents (b : Nat → Byte) (n : Nat) : List Event :=
  (List.range n).flatMap fun j => [Event.rd 0x00 (b j), Event.hbWr (BitVec.ofNat 8 j) (b j)]

theorem receivedEvents_succ (b : Nat → Byte) (n : Nat) :
    receivedEvents b (n + 1) = receivedEvents b n ++ [Event.rd 0x00 (b n), Event.hbWr (BitVec.ofNat 8 n) (b n)] := by
  rw [receivedEvents, List.range_succ, List.flatMap_append]
  rfl

/-- Reading moves the pointer on and nothing else. -/
theorem after_received (tx : Byte) (r : Responder) (b : Nat → Byte) (n : Nat) :
    Responder.after tx r (receivedEvents b n) = { r with ptr := r.ptr + BitVec.ofNat 8 n } := by
  induction n with
  | zero =>
    have still : r.ptr + BitVec.ofNat 8 0 = r.ptr := BitVec.add_zero r.ptr
    rw [still]
    rfl
  | succ n ih =>
    rw [receivedEvents_succ, after_append, ih, BitVec.ofNat_add, ← BitVec.add_assoc]
    rfl

/-- So the bytes read are the FIFO's from where the pointer stood. -/
theorem received_eq_fifo {tx : Byte} {r : Responder} {b : Nat → Byte} {n : Nat}
    (h : Responder.Answers tx r (receivedEvents b n)) : ∀ j, j < n → b j = r.fifo (r.ptr + BitVec.ofNat 8 j).toNat := by
  induction n with
  | zero => exact fun j hj => absurd hj (Nat.not_lt_zero j)
  | succ n ih =>
    rw [receivedEvents_succ] at h
    obtain ⟨first, last⟩ := answers_append h
    rw [after_received] at last
    intro j hj
    by_cases hjn : j = n
    · subst hjn
      exact last.1
    · exact ih first j (by omega)

/-- The length and the offset that GET_PACKET reads are the responder's, and the loop starts at that offset. -/
theorem after_getLoad {tx o n : Byte} {r : Responder} (h : Responder.Answers tx r [.rd 0x10 o, .rd 0x13 n, .wr 0x0D o]) :
    o = r.reg 0x10 ∧ n = r.reg 0x13 ∧ (Responder.after tx r [.rd 0x10 o, .rd 0x13 n, .wr 0x0D o]).ptr = o ∧
      (Responder.after tx r [.rd 0x10 o, .rd 0x13 n, .wr 0x0D o]).fifo = r.fifo := by
  obtain ⟨ho, hn⟩ : o = r.reg 0x10 ∧ n = r.reg 0x13 := by
    simpa [Responder.Answers, Responder.onRd, Responder.answer] using h
  exact ⟨ho, hn, by simp [Responder.after, Responder.next, Responder.onWr, Responder.onRd],
    by simp [Responder.after, Responder.next, Responder.onWr, Responder.onRd]⟩

/-! ### Both -/

/-- Where the responder answers a SEND and then a GET_PACKET, the packet read is the packet sent (R125). -/
theorem packet_of_answers {prm : Params} {m : Memory} {L p o n : Byte} {lows1 lows2 : List Levels} {bytes : List Byte}
    {d d' : HalfWord} {r : Responder} (hn : bytes.length = n.toNat)
    (h : Responder.Answers prm.modeTx r
      ((sendTrace prm m L p lows1 lows2 ++ [Event.done d]) ++ (getTrace o n bytes ++ [Event.done d']))) :
    n = L ∧ ∀ j, j < L.toNat → bytes.getD j 0 = m.read j := by
  have hL : L.toNat < 256 := L.isLt
  simp only [sendTrace, getTrace, List.append_assoc] at h
  obtain ⟨load, h⟩ := answers_append h
  generalize hr1 : Responder.after prm.modeTx r _ = r1 at h
  obtain ⟨hbase, hlen, hptr⟩ := after_sendLoad load hr1.symm
  obtain ⟨-, h⟩ := answers_append h
  obtain ⟨hreg, -, hfifo⟩ := after_sendLoop prm.modeTx m r1 L.toNat hL.le
  obtain ⟨-, h⟩ := answers_append h
  generalize hr3 : Responder.after prm.modeTx (Responder.after prm.modeTx r1 _) _ = r3 at h
  obtain ⟨hbase3, hlen3, hfifo3⟩ := after_transmit hr3.symm
  have idle : ∀ e ∈ waitEvents .modeReady lows1 ++ (waitEvents .txDone lows2 ++ [Event.done d]), e.frame = none := by
    simp [waitEvents, Event.frame, or_imp, forall_and]
  rw [← List.append_assoc (waitEvents .txDone lows2), ← List.append_assoc (waitEvents .modeReady lows1)] at h
  obtain ⟨-, h⟩ := answers_append h
  rw [after_of_no_frame idle] at h
  obtain ⟨reads, h⟩ := answers_append h
  obtain ⟨ho, hn', hptr4, hfifo4⟩ := after_getLoad reads
  obtain ⟨received, -⟩ := answers_append h
  obtain rfl : n = L := hn'.trans (hlen3.trans ((congrFun hreg _).trans hlen))
  obtain rfl : o = p := ho.trans (hbase3.trans ((congrFun hreg _).trans hbase))
  refine ⟨rfl, fun j hj => ?_⟩
  have byte := received_eq_fifo (b := fun j => bytes.getD j 0) received j (hn ▸ hj)
  rw [hfifo4, hptr4, hfifo3] at byte
  rw [← hfifo j hj, hptr]
  exact byte

/-- Settles O33: the two runs make the events of SEND and of GET_PACKET, and the responder's answers to those fix the
packet. -/
theorem loopbackRoundTrip : Obligations.LoopbackRoundTrip := by
  unfold Obligations.LoopbackRoundTrip
  intro s t u v L p o n ps bytes qs lows1 lows2 last1 last2 rest r sent got hs hd hm hraced hmiso hline hready htx ht hsent
    hs' hd' hm' hparams hwf hmiso' hn hv hgot answers
  obtain rfl := Host.Outcome.next.inj (ht.symm.trans (send_run hs hd hm hraced hmiso hline hready htx))
  obtain ⟨q, -, run⟩ := get_run hs' hd' hm' hmiso' hn
  obtain rfl := Host.Outcome.next.inj (hv.symm.trans run)
  rw [complete_history, List.append_assoc] at hsent hgot
  rw [← List.append_cancel_left hsent, ← List.append_cancel_left hgot] at answers
  obtain ⟨rfl, hbytes⟩ := packet_of_answers hn answers
  refine ⟨rfl, fun j hj => ?_⟩
  have hlt : n.toNat < 256 := n.isLt
  rw [← hbytes j hj]
  refine (read_storeFrom hwf bytes 0 (by omega) j).trans ?_
  simp [hn, hj]

end Sys2Proof.Machine
end
